-- ==== Sys2Proof/Word.lean ====
section
/-! DEFINITION. The words URBC moves: bytes, 16-bit register values, 32-bit operands, 64-bit command words
and 8-bit vector ids (20_memory.md R71, 30_encoding.md R100). -/

namespace Sys2Proof

/-- A u8: a ring-buffer element, CTRLA, CTRLB, CTRLC, STATUS, TXDATA, a pin identifier, a mux index (R71). -/
abbrev Byte := BitVec 8

/-- A u16: BAUD, the RXDATA read value, the Configuration Word, a response value (R71, R106). -/
abbrev Half := BitVec 16

/-- A u32: the baud rate argument, the operand of WRITE, the response word (R71, R103, R106). -/
abbrev Long := BitVec 32

/-- The command word, always 64 bits (R101, R108). -/
abbrev CommandWord := BitVec 64

/-- The vector id, 8 bits (R125). -/
abbrev VectorId := BitVec 8

end Sys2Proof
end

