-- ==== Sys2Proof/Syntax.lean ====
section
/-! DEFINITION. The instructions of URBC, one constructor per row of opcode_table.json (30_encoding.md R104, R125),
and the turns the agents take (00_scope.md R15). -/

namespace Sys2Proof

/-- The fifteen commands (R104) and the three handler activations (R125).
A command's port operand is its 8-bit field, a handler's the 6 bits `p[5:0]` of its vector id. -/
inductive Instr where
  /-- BEGIN p, baud, cfg (R162). -/
  | beginPort (p : Byte) (baud : Long) (cfg : Half)
  /-- END p (R176). -/
  | endPort (p : Byte)
  /-- AVAIL p (R148). -/
  | avail (p : Byte)
  /-- AVAILW p (R149). -/
  | availw (p : Byte)
  /-- PEEK p (R150). -/
  | peek (p : Byte)
  /-- READ p (R151). -/
  | read (p : Byte)
  /-- WRITE p, v (R166); only `v[7:0]` is used. -/
  | write (p : Byte) (v : Long)
  /-- FLUSH p (R172). -/
  | flush (p : Byte)
  /-- USABLE p (R179). -/
  | usable (p : Byte)
  /-- PINS p, tx, rx (R210). -/
  | pins (p : Byte) (tx rx : Byte)
  /-- SWAP p, idx (R211). -/
  | swap (p : Byte) (idx : Byte)
  /-- IRQSAVE (R240). -/
  | irqsave
  /-- IRQREST s (R241). -/
  | irqrest (on : Bool)
  /-- ISRENTER (R242). -/
  | isrenter
  /-- ISREXIT (R243). -/
  | isrexit
  /-- The handler RXC(p) (R264). -/
  | rxc (p : BitVec 6)
  /-- The handler DRE(p) (R265). -/
  | dre (p : BitVec 6)
  /-- The handler TXC(p) (R266). -/
  | txc (p : BitVec 6)
deriving DecidableEq, Repr, Inhabited

/-- One turn of one agent (R15): what the schedule of R46 chooses.
The `env` turns belong to the boundary view of R286. -/
inductive Event where
  /-- The Host moves: it issues its next command, or spins if one is blocked (R180). -/
  | host
  /-- The Irq agent tries the handler of a vector id (R261). -/
  | irq (v : VectorId)
  /-- `LineLoad(p)` (R281). -/
  | lineLoad (p : Nat)
  /-- `LineShiftDone(p)` (R282). -/
  | lineShiftDone (p : Nat)
  /-- `LineRx(p, b, perr, ferr)` (R283). -/
  | lineRx (p : Nat) (b : Byte) (perr ferr : Bool)
  /-- The free environment sets DREIF of port p (R286). -/
  | envDataEmpty (p : Nat)
  /-- The free environment sets TXCIF of port p (R286). -/
  | envTransmitComplete (p : Nat)
  /-- The free environment appends an entry to RXFIFO of port p (R286). -/
  | envReceive (p : Nat) (b : Byte) (perr ferr : Bool)
deriving DecidableEq, Repr, Inhabited

/-- The three interrupt sources of a port (R260). -/
inductive Source where
  /-- Receive-complete. -/
  | rxc
  /-- Transmit-data-empty. -/
  | dre
  /-- Transmit-complete. -/
  | txc
deriving DecidableEq, Repr

end Sys2Proof
end

