-- ==== Sys2Proof/Config.lean ====
section
/-! DEFINITION. What an implementation fixes: the parameters of 00_scope.md R8 as plain data, the fixed constants of R9
and 30_encoding.md R111, the free values of the model, and the configuration CFG-T that reset uses. -/

namespace Sys2Proof

/-- The "not a pin" sentinel, also the "don't care" value of `rxPin` (R9, R122). -/
def NOT_A_PIN : Byte := 0xFF#8
/-- The "none" sentinel of `pinGroupIndex` (R9, R121). -/
def MUX_IDX_NONE : Byte := 0x80#8
/-- The `NotFound` result of `resolveMuxFromPins` (R9, R121). -/
def NOT_A_MUX : Byte := 0xFF#8
/-- What READ and PEEK answer on an empty receive buffer (R9). -/
def EMPTY16 : Half := 0xFFFF#16
/-- 8 data bits, no parity, 1 stop bit, asynchronous (R9, R118). -/
def SERIAL_8N1 : Half := 0x0003#16
/-- Configuration Word bit 8 (R111). -/
def CFG_LOOPBACK : Half := 0x0100#16
/-- Configuration Word bit 9 (R111). -/
def CFG_OPENDRAIN : Half := 0x0200#16
/-- Bits 8 and 9 together (R111, R119). -/
def CFG_HALF_DUPLEX : Half := 0x0300#16
/-- Configuration Word bit 10 (R111). -/
def CFG_TX_OFF : Half := 0x0400#16
/-- Configuration Word bit 11 (R111). -/
def CFG_RX_OFF : Half := 0x0800#16
/-- Configuration Word bit 12 (R111). -/
def CFG_INTERNAL : Half := 0x1000#16
/-- Configuration Word bit 13 (R111). -/
def CFG_EVENT_RX : Half := 0x2000#16
/-- Configuration Word bits 15:14 (R111). -/
def CFG_RS485_MASK : Half := 0xC000#16
/-- `RX_OFFSET`, "fixed at 1 by the source" (R8). -/
def RX_OFFSET : Nat := 1

/-- A Pin-Group Table Row (R36); `muxCode` has ROUTE_WIDTH bits. -/
structure Row where
  muxCode : Nat
  txPin : Byte
  xckPin : Byte
deriving DecidableEq, Repr

/-- What the chip-configuration collaborator supplies for one port (R37): `TABLE[p]` with `NROWS[p]` its length,
`MUX_NONE_CODE[p]` and `GROUP_MASK[p]`. -/
structure PortParams where
  rows : List Row
  muxNoneCode : Nat
  groupMask : Nat
deriving DecidableEq, Repr

/-- The OPEN parameter `BaudDivisor` (R230, R231): the default of R232, or any other function that R231 admits. -/
inductive Divisor where
  /-- The default of R232. -/
  | standard
  /-- Any function R231 admits, through the free values `Config.divisorValid`, `divisorReg`, `divisorBound`. -/
  | free
deriving DecidableEq, Repr

/-- The treatment of a WRITE that 93_implementation_defined.md U1 and U2 leave undefined. -/
inductive Misuse where
  /-- `refuse`, the table's first treatment: R166 defines WRITE only on a begun port with the transmitter on. -/
  | refuse
  /-- The alternatives the same table admits: U1 answers (FAIL, 0) with no state change, U2 runs the rule. -/
  | total
deriving DecidableEq, Repr

/-- How the peripheral is closed off: by the reference model R281 to R284 or by the free environment of R286. -/
inductive LineView where
  | reference
  | boundary
deriving DecidableEq, Repr

/-- The parameters of R8. NPORTS is the length of `ports`. No step changes them (R46). -/
structure Params where
  ports : List PortParams
  rxCap : Nat
  txCap : Nat
  fClk : Nat
  divisor : Divisor
  routeWidth : Nat
  xdirOffset : Nat
  rxFifoDepth : Nat
  misuse : Misuse
  line : LineView
deriving DecidableEq, Repr

/-- `NPORTS` (R8). -/
def Params.nports (c : Params) : Nat := c.ports.length

/-- A legal capacity: a power of two from 2 to 32768 (R8). -/
def LegalCap (cap : Nat) : Prop := ∃ k, 1 ≤ k ∧ k ≤ 15 ∧ cap = 2 ^ k

/-- The constraints of R8 and R36 on one port's table. The receive pin txPin + 1 is held to 254 as well (R204). -/
structure PortParams.Wf (c : Params) (t : PortParams) : Prop where
  rows_pos : 1 ≤ t.rows.length
  rows_le : t.rows.length ≤ 127
  codes : ∀ r ∈ t.rows, r.muxCode < 2 ^ c.routeWidth
  none_code : t.muxNoneCode < 2 ^ c.routeWidth
  mask : t.groupMask < 2 ^ c.routeWidth
  pins : ∀ r ∈ t.rows, r.txPin ≠ NOT_A_PIN →
    r.txPin.toNat + c.xdirOffset ≤ 254 ∧ r.txPin.toNat + RX_OFFSET ≤ 254

/-- The constraints of R8: outside them the model is not meant (93_implementation_defined.md U13). -/
structure Params.Wf (c : Params) : Prop where
  nports_pos : 1 ≤ c.nports
  nports_le : c.nports ≤ 64
  rx_cap : LegalCap c.rxCap
  tx_cap : LegalCap c.txCap
  f_clk : 0 < c.fClk
  route_width : 1 ≤ c.routeWidth
  fifo_depth : 1 ≤ c.rxFifoDepth
  tables : ∀ t ∈ c.ports, t.Wf c
  disjoint : ∀ (p q : Nat) (t t' : PortParams), p ≠ q →
    c.ports[p]? = some t → c.ports[q]? = some t' → t.groupMask &&& t'.groupMask = 0

/-- The configuration CFG-T of 95_test_vectors.md, the "test value" column of R8, with the total treatment of a misused
WRITE (log 9) and the reference peripheral (log 13). -/
def Config.cfgT : Params where
  ports := [
    { rows := [⟨0x00, 0#8, 2#8⟩, ⟨0x01, 4#8, 6#8⟩], muxNoneCode := 0x03, groupMask := 0x03 },
    { rows := [⟨0x00, 14#8, 16#8⟩, ⟨0x04, NOT_A_PIN, NOT_A_PIN⟩], muxNoneCode := 0x0C, groupMask := 0x0C }]
  rxCap := 16
  txCap := 16
  fClk := 24000000
  divisor := .standard
  routeWidth := 8
  xdirOffset := 3
  rxFifoDepth := 2
  misuse := .total
  line := .reference

/-- Free value: the turn taken when no turn is fixed any more (R46: "the schedule ... and the bytes that arrive on the
line are free inputs"), applied to the counter `State.tick`. -/
opaque Config.freeEvent : Nat → Event

/-- Free value: what RXDATA reads when RXFIFO is empty (93_implementation_defined.md U7: "any value"), applied to
the counter `State.tick`. -/
opaque Config.rxDataEmpty : Nat → Half

/-- Free value: which baud rates a non-default `BaudDivisor` represents, from F_CLK and the rate (R231 a). -/
opaque Config.divisorValid : Nat → Nat → Bool

/-- Free value: the register value a non-default `BaudDivisor` gives, from F_CLK and the rate (R231 a). -/
opaque Config.divisorReg : Nat → Nat → Half

/-- Free value: the bound `B1(f)` of a non-default `BaudDivisor`, above which it asks for 2x mode (R231 b). -/
opaque Config.divisorBound : Nat → Nat

end Sys2Proof
end

