-- ==== Sys2Proof/WellFormed.lean ====
section
/-! DEFINITION. Which instructions are legal on a chip with `nports` ports (30_encoding.md R105, R125). -/

namespace Sys2Proof

/-- The port an instruction names, if its format has a port operand (R102, R125). -/
def Instr.port? : Instr → Option Nat
  | .beginPort p _ _ => some p.toNat
  | .endPort p => some p.toNat
  | .avail p => some p.toNat
  | .availw p => some p.toNat
  | .peek p => some p.toNat
  | .read p => some p.toNat
  | .write p _ => some p.toNat
  | .flush p => some p.toNat
  | .usable p => some p.toNat
  | .pins p _ _ => some p.toNat
  | .swap p _ => some p.toNat
  | .irqsave => none
  | .irqrest _ => none
  | .isrenter => none
  | .isrexit => none
  | .rxc p => some p.toNat
  | .dre p => some p.toNat
  | .txc p => some p.toNat

/-- The port whose line a turn of the line or of the environment moves (60_exceptions.md R281 to R283, R286). -/
def Event.linePort? : Event → Option Nat
  | .host => none
  | .irq _ => none
  | .lineLoad p => some p
  | .lineShiftDone p => some p
  | .lineRx p _ _ _ => some p
  | .envDataEmpty p => some p
  | .envTransmitComplete p => some p
  | .envReceive p _ _ _ => some p

/-- A command whose format has a port operand is illegal when `port >= NPORTS` (R105); a vector id of a port that
does not exist names no handler (R125, R262). The other conditions of R105 are about words, not terms. -/
def Instr.wellFormed (nports : Nat) (i : Instr) : Bool :=
  match i.port? with
  | some p => p < nports
  | none => true

/-- Whether an instruction is a command of R104 (true) or a handler activation of R125 (false). -/
def Instr.isCommand : Instr → Bool
  | .rxc _ => false
  | .dre _ => false
  | .txc _ => false
  | .beginPort _ _ _ => true
  | .endPort _ => true
  | .avail _ => true
  | .availw _ => true
  | .peek _ => true
  | .read _ => true
  | .write _ _ => true
  | .flush _ => true
  | .usable _ => true
  | .pins _ _ _ => true
  | .swap _ _ => true
  | .irqsave => true
  | .irqrest _ => true
  | .isrenter => true
  | .isrexit => true

end Sys2Proof
end

