-- ==== Sys2Proof/Decode.lean ====
section
/-! DEFINITION. The decoder of command words and vector ids, total and rejecting by name, then the encoder, the
match-and-mask table of 30_encoding.md R102 and R104, and the assembler's operand order (R109, R110). -/

namespace Sys2Proof

/-- Why a word is illegal (R105). The third reason of R105, `port >= NPORTS`, depends on the chip and is checked where a
command runs (`Machine.withPort`). -/
inductive DecodeError where
  /-- The `op` field is not in R104's table. -/
  | unknownOpcode (op : Byte)
  /-- A field the format does not use is non-zero. -/
  | unusedField (op : Byte)
  /-- A vector id with `k = 0b11` names no handler (R125). -/
  | reservedVector
deriving DecidableEq, Repr

/-- Bits 63:56 (R101). -/
def opField (w : CommandWord) : Byte := w.extractLsb' 56 8
/-- Bits 55:48 (R101). -/
def portField (w : CommandWord) : Byte := w.extractLsb' 48 8
/-- Bits 47:32 (R101). -/
def a16Field (w : CommandWord) : Half := w.extractLsb' 32 16
/-- Bits 31:0 (R101). -/
def a32Field (w : CommandWord) : Long := w.extractLsb' 0 32

/-- Format P: `a16` and `a32` unused (R102). -/
def decodeP (w : CommandWord) (mk : Byte → Instr) : Except DecodeError Instr :=
  if a16Field w = 0#16 ∧ a32Field w = 0#32 then .ok (mk (portField w)) else .error (.unusedField (opField w))

/-- Format B: every field used (R102, R103). -/
def decodeB (w : CommandWord) (mk : Byte → Long → Half → Instr) : Except DecodeError Instr :=
  .ok (mk (portField w) (a32Field w) (a16Field w))

/-- Format W: `a16` unused (R102). -/
def decodeW (w : CommandWord) (mk : Byte → Long → Instr) : Except DecodeError Instr :=
  if a16Field w = 0#16 then .ok (mk (portField w) (a32Field w)) else .error (.unusedField (opField w))

/-- Format N: tx in bits 47:40, rx in bits 39:32, `a32` unused (R102). -/
def decodeN (w : CommandWord) (mk : Byte → Byte → Byte → Instr) : Except DecodeError Instr :=
  if a32Field w = 0#32 then .ok (mk (portField w) ((a16Field w).extractLsb' 8 8) ((a16Field w).extractLsb' 0 8))
  else .error (.unusedField (opField w))

/-- Format S: idx in bits 39:32, bits 47:40 and `a32` unused (R102). -/
def decodeS (w : CommandWord) (mk : Byte → Byte → Instr) : Except DecodeError Instr :=
  if (a16Field w).extractLsb' 8 8 = 0#8 ∧ a32Field w = 0#32 then .ok (mk (portField w) ((a16Field w).extractLsb' 0 8))
  else .error (.unusedField (opField w))

/-- Format G: no operand; port, `a16` and `a32` unused (R102). -/
def decodeG (w : CommandWord) (i : Instr) : Except DecodeError Instr :=
  if portField w = 0#8 ∧ a16Field w = 0#16 ∧ a32Field w = 0#32 then .ok i else .error (.unusedField (opField w))

/-- Format R: s in bit 32; port, bits 47:33 and `a32` unused (R102). -/
def decodeR (w : CommandWord) (mk : Bool → Instr) : Except DecodeError Instr :=
  if portField w = 0#8 ∧ (a16Field w).extractLsb' 1 15 = 0#15 ∧ a32Field w = 0#32 then
    .ok (mk ((a16Field w).getLsbD 0))
  else .error (.unusedField (opField w))

/-- The opcode map (R104); every other `op` is illegal (R105). -/
def decodeCommand (w : CommandWord) : Except DecodeError Instr :=
  if opField w = 0x01#8 then decodeB w .beginPort
  else if opField w = 0x02#8 then decodeP w .endPort
  else if opField w = 0x03#8 then decodeP w .avail
  else if opField w = 0x04#8 then decodeP w .availw
  else if opField w = 0x05#8 then decodeP w .peek
  else if opField w = 0x06#8 then decodeP w .read
  else if opField w = 0x07#8 then decodeW w .write
  else if opField w = 0x08#8 then decodeP w .flush
  else if opField w = 0x09#8 then decodeP w .usable
  else if opField w = 0x0A#8 then decodeN w .pins
  else if opField w = 0x0B#8 then decodeS w .swap
  else if opField w = 0x10#8 then decodeG w .irqsave
  else if opField w = 0x11#8 then decodeR w .irqrest
  else if opField w = 0x12#8 then decodeG w .isrenter
  else if opField w = 0x13#8 then decodeG w .isrexit
  else .error (.unknownOpcode (opField w))

/-- A vector id `p[5:0] k[1:0]`: k 0 is RXC, 1 DRE, 2 TXC, 3 reserved (R125). -/
def decodeVector (v : VectorId) : Except DecodeError Instr :=
  if v.extractLsb' 0 2 = 0#2 then .ok (.rxc (v.extractLsb' 2 6))
  else if v.extractLsb' 0 2 = 1#2 then .ok (.dre (v.extractLsb' 2 6))
  else if v.extractLsb' 0 2 = 2#2 then .ok (.txc (v.extractLsb' 2 6))
  else .error .reservedVector

/-- What an instruction is written as: a 64-bit command word or an 8-bit vector id (R100). -/
inductive Encoding where
  | command (w : CommandWord)
  | vector (v : VectorId)
deriving DecidableEq, Repr

/-- The decoder of both encodings. -/
def decode : Encoding → Except DecodeError Instr
  | .command w => decodeCommand w
  | .vector v => decodeVector v

/-- A command word from its four fields (R101). -/
def commandWord (op p : Byte) (a16 : Half) (a32 : Long) : CommandWord := op ++ p ++ a16 ++ a32

/-- A vector id from its two fields (R125). -/
def vectorId (p : BitVec 6) (k : BitVec 2) : VectorId := p ++ k

/-- The encoder, from R102, R104 and R125. -/
def encode : Instr → Encoding
  | .beginPort p baud cfg => .command (commandWord 0x01#8 p cfg baud)
  | .endPort p => .command (commandWord 0x02#8 p 0#16 0#32)
  | .avail p => .command (commandWord 0x03#8 p 0#16 0#32)
  | .availw p => .command (commandWord 0x04#8 p 0#16 0#32)
  | .peek p => .command (commandWord 0x05#8 p 0#16 0#32)
  | .read p => .command (commandWord 0x06#8 p 0#16 0#32)
  | .write p v => .command (commandWord 0x07#8 p 0#16 v)
  | .flush p => .command (commandWord 0x08#8 p 0#16 0#32)
  | .usable p => .command (commandWord 0x09#8 p 0#16 0#32)
  | .pins p tx rx => .command (commandWord 0x0A#8 p (tx ++ rx) 0#32)
  | .swap p idx => .command (commandWord 0x0B#8 p (0#8 ++ idx) 0#32)
  | .irqsave => .command (commandWord 0x10#8 0#8 0#16 0#32)
  | .irqrest on => .command (commandWord 0x11#8 0#8 (0#15 ++ BitVec.ofBool on) 0#32)
  | .isrenter => .command (commandWord 0x12#8 0#8 0#16 0#32)
  | .isrexit => .command (commandWord 0x13#8 0#8 0#16 0#32)
  | .rxc p => .vector (vectorId p 0#2)
  | .dre p => .vector (vectorId p 1#2)
  | .txc p => .vector (vectorId p 2#2)

/-- The mnemonic of opcode_table.json (R104, R125). -/
def Instr.mnemonic : Instr → String
  | .beginPort _ _ _ => "BEGIN"
  | .endPort _ => "END"
  | .avail _ => "AVAIL"
  | .availw _ => "AVAILW"
  | .peek _ => "PEEK"
  | .read _ => "READ"
  | .write _ _ => "WRITE"
  | .flush _ => "FLUSH"
  | .usable _ => "USABLE"
  | .pins _ _ _ => "PINS"
  | .swap _ _ => "SWAP"
  | .irqsave => "IRQSAVE"
  | .irqrest _ => "IRQREST"
  | .isrenter => "ISRENTER"
  | .isrexit => "ISREXIT"
  | .rxc _ => "RXC"
  | .dre _ => "DRE"
  | .txc _ => "TXC"

/-- One row of the opcode map: a word selects it when `w & mask = pattern` (R102). -/
structure CommandRow where
  mnemonic : String
  pattern : CommandWord
  mask : CommandWord
deriving DecidableEq, Repr

/-- R104's rows with the masks of R102's formats. -/
def commandTable : List CommandRow := [
  ⟨"BEGIN", 0x0100000000000000#64, 0xFF00000000000000#64⟩,
  ⟨"END", 0x0200000000000000#64, 0xFF00FFFFFFFFFFFF#64⟩,
  ⟨"AVAIL", 0x0300000000000000#64, 0xFF00FFFFFFFFFFFF#64⟩,
  ⟨"AVAILW", 0x0400000000000000#64, 0xFF00FFFFFFFFFFFF#64⟩,
  ⟨"PEEK", 0x0500000000000000#64, 0xFF00FFFFFFFFFFFF#64⟩,
  ⟨"READ", 0x0600000000000000#64, 0xFF00FFFFFFFFFFFF#64⟩,
  ⟨"WRITE", 0x0700000000000000#64, 0xFF00FFFF00000000#64⟩,
  ⟨"FLUSH", 0x0800000000000000#64, 0xFF00FFFFFFFFFFFF#64⟩,
  ⟨"USABLE", 0x0900000000000000#64, 0xFF00FFFFFFFFFFFF#64⟩,
  ⟨"PINS", 0x0A00000000000000#64, 0xFF000000FFFFFFFF#64⟩,
  ⟨"SWAP", 0x0B00000000000000#64, 0xFF00FF00FFFFFFFF#64⟩,
  ⟨"IRQSAVE", 0x1000000000000000#64, 0xFFFFFFFFFFFFFFFF#64⟩,
  ⟨"IRQREST", 0x1100000000000000#64, 0xFFFFFFFEFFFFFFFF#64⟩,
  ⟨"ISRENTER", 0x1200000000000000#64, 0xFFFFFFFFFFFFFFFF#64⟩,
  ⟨"ISREXIT", 0x1300000000000000#64, 0xFFFFFFFFFFFFFFFF#64⟩]

/-- The instruction read from a table row's word: 64 bits for a command row, 8 for a vector row. -/
def decodeTableWord (nbits w : Nat) : Option Instr :=
  let read : Except DecodeError Instr → Option Instr := fun
    | .ok i => some i
    | .error _ => none
  if nbits = 64 then read (decodeCommand (BitVec.ofNat 64 w))
  else if nbits = 8 then read (decodeVector (BitVec.ofNat 8 w))
  else none

/-- One number of assembler text as a field of n bits; a number that does not fit is no operand. -/
def asmField (n v : Nat) : Option (BitVec n) := if v < 2 ^ n then some (BitVec.ofNat n v) else none

/-- The assembler: a mnemonic and its operands in R109's order, with the pseudo-instructions `BEGIN p, baud` and
`UNBIND p` (R110). Handlers and `@` events have no command text. -/
def assemble : String → List Nat → Option Instr
  | "BEGIN", [p, baud, cfg] => do return .beginPort (← asmField 8 p) (← asmField 32 baud) (← asmField 16 cfg)
  | "BEGIN", [p, baud] => do return .beginPort (← asmField 8 p) (← asmField 32 baud) SERIAL_8N1
  | "END", [p] => do return .endPort (← asmField 8 p)
  | "AVAIL", [p] => do return .avail (← asmField 8 p)
  | "AVAILW", [p] => do return .availw (← asmField 8 p)
  | "PEEK", [p] => do return .peek (← asmField 8 p)
  | "READ", [p] => do return .read (← asmField 8 p)
  | "WRITE", [p, v] => do return .write (← asmField 8 p) (← asmField 32 v)
  | "FLUSH", [p] => do return .flush (← asmField 8 p)
  | "USABLE", [p] => do return .usable (← asmField 8 p)
  | "PINS", [p, tx, rx] => do return .pins (← asmField 8 p) (← asmField 8 tx) (← asmField 8 rx)
  | "SWAP", [p, idx] => do return .swap (← asmField 8 p) (← asmField 8 idx)
  | "UNBIND", [p] => do return .swap (← asmField 8 p) MUX_IDX_NONE
  | "IRQSAVE", [] => some .irqsave
  | "IRQREST", [n] => do return .irqrest ((← asmField 1 n).getLsbD 0)
  | "ISRENTER", [] => some .isrenter
  | "ISREXIT", [] => some .isrexit
  | _, _ => none

end Sys2Proof
end

