-- ==== Sys2Proof/Machine/State.lean ====
section
/-! DEFINITION. The state of URBC as plain data (10_state.md R20 to R45), the reasons a step can stop, and reset (R50). -/

namespace Sys2Proof.Machine

open Sys2Proof

/-- A byte array kept sparsely: (index, byte) pairs with indices strictly rising and no byte equal to the unlisted one. -/
abbrev Memory := List Host.Cell

/-- What a slot that nothing has written reads as (R28, R50: unspecified; DESIGN CHOICE, log 8). -/
def Memory.unlisted : Byte := 0#8

/-- A ring buffer (R24): `head` the next write index, `tail` the next read index, and the backing array.
Its capacity is a parameter, passed to every operation. -/
structure Ring where
  head : Nat
  tail : Nat
  data : Memory
deriving DecidableEq, Repr

/-- One entry of the peripheral's receive buffer: the byte and its error flags (R43). -/
structure RxEntry where
  byte : Byte
  perr : Bool
  ferr : Bool
deriving DecidableEq, Repr

/-- The register block of one port and the peripheral's hidden state (R30 to R35, R43). RXCIF and DREIF are derived. -/
structure Periph where
  /-- Control register A (R31). -/
  ctrla : Byte
  /-- Control register B (R32). -/
  ctrlb : Byte
  /-- Control register C, the frame format (R33). -/
  ctrlc : Byte
  /-- The divisor register (R34). -/
  baud : Half
  /-- The stored flag TXCIF of STATUS (R35). -/
  txcif : Bool
  /-- TXHOLD, the transmit data register's content (R43). -/
  txHold : Option Byte
  /-- TXSHIFT, the byte in the shift register (R43). -/
  txShift : Option Byte
  /-- RXFIFO, oldest first (R43). -/
  rxFifo : List RxEntry
deriving DecidableEq, Repr

/-- One Port Instance (R21 to R29) with its register block and ghost traces (R44). -/
structure Port where
  /-- `pinGroupIndex`: a row index or MUX_IDX_NONE (R21). -/
  pgi : Byte
  /-- hasWrittenSinceBegin (R22). -/
  written : Bool
  /-- isHalfDuplex (R22). -/
  hd : Bool
  /-- Set between a successful BEGIN and the next END (R23). -/
  begun : Bool
  /-- The receive ring buffer. -/
  rxb : Ring
  /-- The transmit ring buffer. -/
  txb : Ring
  /-- `U[p]`. -/
  uart : Periph
  /-- Ghost: the bytes written to TXDATA since reset, in order (R44). -/
  txLog : List Byte
  /-- Ghost: the bytes that have fully left the pin, in order (R44). -/
  lineOut : List Byte
deriving DecidableEq, Repr

/-- A pin's direction (R39). -/
inductive PinDir where
  | input
  | output
deriving DecidableEq, Repr

/-- A pin's pull-up (R39). -/
inductive Pull where
  | off
  | on
deriving DecidableEq, Repr

/-- `PIN[id]` (R39). -/
structure PinCfg where
  dir : PinDir
  pull : Pull
deriving DecidableEq, Repr

/-- What a pin that nothing has configured holds (R50: unspecified; DESIGN CHOICE, log 7). -/
def PinCfg.unlisted : PinCfg := ⟨.input, .off⟩

/-- What follows a flush (R45, R172). -/
inductive Cont where
  /-- The command FLUSH. -/
  | done
  /-- The command END. -/
  | thenEnd
  /-- The command BEGIN on a begun port. -/
  | thenEndBegin (baud : Long) (cfg : Half)
deriving DecidableEq, Repr

/-- The host sequencer state `seq` (R45). -/
inductive Seq where
  | ready
  | writeWait (p : Nat) (b : Byte)
  | flushWait (p : Nat) (k : Cont)
deriving DecidableEq, Repr

/-- The status of a response (00_scope.md R14, 30_encoding.md R106). -/
inductive Status where
  | ok
  | fail
  | illegal
deriving DecidableEq, Repr

/-- A response `(status, value)` (R14, R106). -/
structure Response where
  status : Status
  value : Half
deriving DecidableEq, Repr

/-- The whole state (R20). `params`, `response`, `program`, `inputs` and `tick` are the model's own fields. -/
structure State where
  /-- The configuration of R8; no step changes it (R46; log 1). -/
  params : Params
  /-- The port instances, `ports[p]` for p below NPORTS. -/
  ports : List Port
  /-- The shared pin-routing register ROUTE (R38), a value below `2 ^ routeWidth`. -/
  route : Nat
  /-- `PIN[id]` for id in 0..254 (R39), sparse. -/
  pins : List (Nat × PinCfg)
  /-- The global interrupt enable (R40). -/
  gie : Bool
  /-- Within an interrupt context (R41). -/
  iexec : Bool
  /-- The host sequencer (R45). -/
  seq : Seq
  /-- The response port: the answer to the latest command, none while it is blocked (R106; log 4). -/
  response : Option Response
  /-- The commands the Host has not issued yet, in program order (R180, R342; log 2). -/
  program : List CommandWord
  /-- The turns already fixed, next first (R46; log 2). -/
  inputs : List Event
  /-- How many free turns have been drawn (log 2). -/
  tick : Nat
deriving DecidableEq, Repr

/-- Why the machine stops. URBC itself raises no exception (60_exceptions.md R250). -/
inductive Fault where
  /-- Raised by BEGIN's `Configure` when `pgi[p]` is neither a row index nor MUX_IDX_NONE, so that `TableRow` would be
  called outside the table, which R74 says never happens. Unreachable from reset by R21. Safe. -/
  | tableRow
  /-- Raised by a spin when `seq` names a port that does not exist. Unreachable from reset. Safe. -/
  | noSuchPort
deriving DecidableEq, Repr

/-- Why an instruction has no meaning. -/
inductive Refusal where
  /-- Raised by exec's arm of an instruction that the model does not give a meaning yet. Safe. -/
  | notModelled (mnemonic : String)
  /-- Raised by WRITE on a port that is not begun, under `Misuse.refuse`: "undefined/hardware-dependent behavior",
  treated as `refuse` (R166, 93_implementation_defined.md U1). Safe. -/
  | writeNotBegun
  /-- Raised by WRITE on a begun port with the transmitter off, under `Misuse.refuse` (R166, U2). Safe. -/
  | writeTransmitterOff
deriving DecidableEq, Repr

/-- The result of a step or of a meaning. -/
abbrev Result := Host.Outcome State Fault Refusal

/-- An empty ring buffer (R50). -/
def Ring.reset : Ring := ⟨0, 0, []⟩

/-- The register block after reset (R50): CTRLC and BAUD are unspecified there (DESIGN CHOICE zero, log 5). -/
def Periph.reset : Periph where
  ctrla := 0x00#8
  ctrlb := 0x00#8
  ctrlc := 0x00#8
  baud := 0x0000#16
  txcif := false
  txHold := none
  txShift := none
  rxFifo := []

/-- A port instance after reset (R50). -/
def Port.reset : Port where
  pgi := 0x00#8
  written := false
  hd := false
  begun := false
  rxb := Ring.reset
  txb := Ring.reset
  uart := Periph.reset
  txLog := []
  lineOut := []

/-- The machine of configuration `c` after reset (R50, R301): ROUTE is unspecified there (DESIGN CHOICE zero, log 6),
and so is PIN (log 7). No program is loaded and no turn is fixed. -/
def State.resetWith (c : Params) : State where
  params := c
  ports := c.ports.map fun _ => Port.reset
  route := 0
  pins := []
  gie := false
  iexec := false
  seq := .ready
  response := none
  program := []
  inputs := []
  tick := 0

/-- The machine right after reset, in the configuration CFG-T (R301; log 1). -/
def State.reset : State := State.resetWith Config.cfgT

end Sys2Proof.Machine
end

