-- ==== Sys2Proof/Machine/Sparse.lean ====
section
/-! DEFINITION. Sparse arrays in one canonical form, for the ring-buffer arrays and PIN (20_memory.md R70, R73, R80). -/

namespace Sys2Proof.Machine

/-- The value at an address; `d` is what an unlisted address reads as. -/
def sparseRead {α : Type} (d : α) : List (Nat × α) → Nat → α
  | [], _ => d
  | (k, x) :: l, a => if a = k then x else sparseRead d l a

/-- Stores `v` at `a` and keeps the canonical form: storing the unlisted value removes the entry. -/
def sparseWrite {α : Type} [DecidableEq α] (d : α) : List (Nat × α) → Nat → α → List (Nat × α)
  | [], a, v => if v = d then [] else [(a, v)]
  | (k, x) :: l, a, v =>
    if a < k then (if v = d then (k, x) :: l else (a, v) :: (k, x) :: l)
    else if a = k then (if v = d then l else (a, v) :: l)
    else (k, x) :: sparseWrite d l a v

/-- Every address is above `b` and strictly rising, and no entry equals the unlisted value. -/
def sparseAbove {α : Type} [DecidableEq α] (d : α) : Nat → List (Nat × α) → Bool
  | _, [] => true
  | b, (k, x) :: l => decide (b ≤ k) && decide (x ≠ d) && sparseAbove d (k + 1) l

/-- The canonical form: addresses strictly rising, no entry equal to the unlisted value. -/
def sparseWf {α : Type} [DecidableEq α] (d : α) (l : List (Nat × α)) : Bool := sparseAbove d 0 l

/-- `BufRead` on the backing array (R73). -/
def Memory.read (m : Memory) (i : Nat) : Byte := sparseRead Memory.unlisted m i

/-- `BufWrite` on the backing array (R73). -/
def Memory.write (m : Memory) (i : Nat) (v : Byte) : Memory := sparseWrite Memory.unlisted m i v

/-- The canonical form of a byte array. -/
def Memory.wf (m : Memory) : Bool := sparseWf Memory.unlisted m

/-- `PIN[id]` (R39). -/
def State.pin (s : State) (id : Nat) : PinCfg := sparseRead PinCfg.unlisted s.pins id

/-- `PinConfig(id, dir, pull)` (R80): nothing for NOT_A_PIN, or for a number that names no pin (R39). -/
def pinConfig (t : List (Nat × PinCfg)) (id : Nat) (dir : PinDir) (pull : Pull) : List (Nat × PinCfg) :=
  if id ≤ 254 then sparseWrite PinCfg.unlisted t id ⟨dir, pull⟩ else t

end Sys2Proof.Machine
end

