-- ==== Sys2Proof/Machine/RingBuffer.lean ====
section
/-! DEFINITION. The ring-buffer primitives of 40_ring_buffer.md R140 to R147. Cursor arithmetic is in unbounded naturals,
then masked (R143, R146); `cap` is the capacity. -/

namespace Sys2Proof.Machine

/-- `next(b, i) = (i + 1) & mask(b)` (20_memory.md R73). -/
def cursorNext (cap i : Nat) : Nat := (i + 1) &&& (cap - 1)

/-- `tryPush` (R141): `none` is "false", the buffer is full and nothing changes. -/
def Ring.tryPush (cap : Nat) (b : Ring) (v : Byte) : Option Ring :=
  if cursorNext cap b.head = b.tail then none
  else some { b with data := Memory.write b.data b.head v, head := cursorNext cap b.head }

/-- `tryPop` (R142): the popped byte and the buffer with its tail advanced; the slot keeps its byte. -/
def Ring.tryPop (cap : Nat) (b : Ring) : Option (Byte × Ring) :=
  if b.head = b.tail then none
  else some (Memory.read b.data b.tail, { b with tail := cursorNext cap b.tail })

/-- `available` (R143): the number of bytes held. -/
def Ring.available (cap : Nat) (b : Ring) : Nat := (cap + b.head - b.tail) &&& (cap - 1)

/-- `availableForWrite` (R144). -/
def Ring.availableForWrite (cap : Nat) (b : Ring) : Nat := cap - 1 - b.available cap

/-- `front` (R145): the oldest byte, not consumed. -/
def Ring.front (b : Ring) : Option Byte :=
  if b.head = b.tail then none else some (Memory.read b.data b.tail)

/-- The bytes held, oldest first (10_state.md R25). -/
def Ring.held (cap : Nat) (b : Ring) : List Byte :=
  (List.range (b.available cap)).map fun i => Memory.read b.data ((b.tail + i) &&& (cap - 1))

end Sys2Proof.Machine
end

