-- ==== Sys2Proof/Machine/Flags.lean ====
section
/-! DEFINITION. Every flag and condition of the spec: the fields of CTRLA, CTRLB and STATUS (10_state.md R31, R32, R35),
pending interrupts (R42), dispatch (60_exceptions.md R261, R263), `MustPoll` (00_scope.md R13), `FlushDone`
(41_transfer_state_machine.md R172) and the transfer states (R160). -/

namespace Sys2Proof.Machine

/-- CTRLA bit 7, receive-complete interrupt enable (R31). -/
def Periph.rxcie (u : Periph) : Bool := u.ctrla.getLsbD 7
/-- CTRLA bit 6, transmit-complete interrupt enable (R31). -/
def Periph.txcie (u : Periph) : Bool := u.ctrla.getLsbD 6
/-- CTRLA bit 5, transmit-data-empty interrupt enable (R31). -/
def Periph.dreie (u : Periph) : Bool := u.ctrla.getLsbD 5
/-- CTRLA bit 3, loopback mode enable (R31). -/
def Periph.lbme (u : Periph) : Bool := u.ctrla.getLsbD 3
/-- CTRLA bits 1:0, RS-485 mode selector (R31). -/
def Periph.rs485 (u : Periph) : BitVec 2 := u.ctrla.extractLsb' 0 2
/-- CTRLB bit 7, receiver enable (R32). -/
def Periph.rxen (u : Periph) : Bool := u.ctrlb.getLsbD 7
/-- CTRLB bit 6, transmitter enable (R32). -/
def Periph.txen (u : Periph) : Bool := u.ctrlb.getLsbD 6
/-- CTRLB bit 3, open-drain mode enable (R32). -/
def Periph.odme (u : Periph) : Bool := u.ctrlb.getLsbD 3
/-- CTRLB bits 2:1: 00 normal speed, 01 double speed (R32). -/
def Periph.rxmode (u : Periph) : BitVec 2 := u.ctrlb.extractLsb' 1 2

/-- RXCIF: a received byte is waiting (R35, R43, R76). -/
def Periph.rxcif (u : Periph) : Bool := !u.rxFifo.isEmpty
/-- DREIF: TXHOLD is empty (R35, R43, R76). -/
def Periph.dreif (u : Periph) : Bool := u.txHold.isNone

/-- The byte STATUS reads as, `RXCIF TXCIF DREIF 00000` (R76). -/
def Periph.status (u : Periph) : Byte :=
  BitVec.ofBool u.rxcif ++ BitVec.ofBool u.txcif ++ BitVec.ofBool u.dreif ++ 0#5

/-- `Pending(p, k)` (R42): the flag and its enable bit are both set. -/
def Periph.pending (u : Periph) : Source → Bool
  | .rxc => u.rxcie && u.rxcif
  | .dre => u.dreie && u.dreif
  | .txc => u.txcie && u.txcif

/-- No source of the port above `k` is pending; the order is RXC, DRE, TXC (R263). -/
def Periph.noneAbove (u : Periph) : Source → Bool
  | .rxc => true
  | .dre => !u.pending .rxc
  | .txc => !u.pending .rxc && !u.pending .dre

/-- The Irq agent may take `Handler(p, k)` (R261). -/
def State.dispatchable (s : State) (u : Periph) (k : Source) : Bool :=
  s.gie && !s.iexec && u.pending k && u.noneAbove k

/-- `MustPoll` (R13): "interrupts are globally disabled or this call is itself within an interrupt context". -/
def State.mustPoll (s : State) : Bool := !s.gie || s.iexec

/-- `FlushDone(p)` (R172). -/
def Periph.flushDone (u : Periph) : Bool := !u.dreie && u.txcif

/-- The source's transfer states (R160). -/
inductive XferState where
  | disabled
  | idle
  | transmitting
deriving DecidableEq, Repr

/-- The source's receive-path modes (R160). -/
inductive RxMode where
  | interruptDriven
  | suppressed
deriving DecidableEq, Repr

/-- `XferState(p)` (R160). -/
def Port.xferState (u : Port) : XferState :=
  if u.begun then (if u.uart.dreie then .transmitting else .idle) else .disabled

/-- `RxMode(p)` (R160). -/
def Port.rxMode (u : Port) : RxMode := if u.uart.rxcie then .interruptDriven else .suppressed

/-- The status codes of R106. -/
def Status.code : Status → Byte
  | .ok => 0#8
  | .fail => 1#8
  | .illegal => 2#8

/-- The 32-bit response word: status in 31:24, zero in 23:16, value in 15:0 (R106). -/
def Response.word (r : Response) : Long := r.status.code ++ 0#8 ++ r.value

/-- The optional packing of `st[p]` into a byte: bit 0 `written`, bit 1 `hd` (R22). -/
def Port.stByte (u : Port) : Byte := 0#6 ++ BitVec.ofBool u.hd ++ BitVec.ofBool u.written

end Sys2Proof.Machine
end

