-- ==== Sys2Proof/Machine/Operands.lean ====
section
/-! DEFINITION. Operand forms: the byte of WRITE (30_encoding.md R103), the fields of the Configuration Word (R112), the
Configuration Decoder (43_configuration_decoder.md R220 to R229), the baud divisor (R230 to R232), and the derived pins of
a row (42_pin_binding_resolver.md R204). -/

namespace Sys2Proof.Machine

open Sys2Proof

/-- The byte written by WRITE: `v[7:0]` (R103). -/
def writeByte (v : Long) : Byte := v.extractLsb' 0 8

/-- `CHSIZE`, bits 1:0 (R112). -/
def cfgChsize (cfg : Half) : BitVec 2 := cfg.extractLsb' 0 2
/-- `SBMODE`, bit 3 (R112). -/
def cfgSbmode (cfg : Half) : Bool := cfg.getLsbD 3
/-- `PMODE`, bits 5:4 (R112). -/
def cfgPmode (cfg : Half) : BitVec 2 := cfg.extractLsb' 4 2
/-- `CMODE`, bits 7:6 (R112). -/
def cfgCmode (cfg : Half) : BitVec 2 := cfg.extractLsb' 6 2
/-- `LOOPBACK`, bit 8 (R112). -/
def cfgLoopback (cfg : Half) : Bool := cfg.getLsbD 8
/-- `OPENDRAIN`, bit 9 (R112). -/
def cfgOpenDrain (cfg : Half) : Bool := cfg.getLsbD 9
/-- `TXOFF`, bit 10, inverted sense (R112, R114). -/
def cfgTxOff (cfg : Half) : Bool := cfg.getLsbD 10
/-- `RXOFF`, bit 11, inverted sense (R112, R114). -/
def cfgRxOff (cfg : Half) : Bool := cfg.getLsbD 11
/-- `RS485SEL`, bits 15:14 (R112, R117). -/
def cfgRs485 (cfg : Half) : BitVec 2 := cfg.extractLsb' 14 2

/-- The five outputs of `decode` (R220). -/
structure DecodedConfig where
  frameFormat : Byte
  ctrlA : Byte
  ctrlB : Byte
  wantsRx : Bool
  isHD : Bool
deriving DecidableEq, Repr

/-- A byte with bit `n` equal to `b` and the others 0. -/
def byteBit (b : Bool) (n : Nat) : Byte := (BitVec.ofBool b).setWidth 8 <<< n

/-- `frameFormatRegisterValue` (R222): the low byte with bit 2 cleared (R115). -/
def frameFormatOf (cfg : Half) : Byte := cfg.extractLsb' 0 8 &&& 0xFB#8

/-- `wantsReceiveInterrupt` (R226). -/
def wantsRxOf (cfg : Half) : Bool := !cfgRxOff cfg

/-- `isHalfDuplex` (R227, R119). -/
def isHalfDuplexOf (cfg : Half) : Bool := cfgLoopback cfg && cfgOpenDrain cfg

/-- `controlRegisterAValue` (R224). -/
def ctrlAOf (cfg : Half) : Byte :=
  byteBit (wantsRxOf cfg) 7 ||| byteBit (cfgLoopback cfg) 3 ||| (cfgRs485 cfg).setWidth 8

/-- `controlRegisterBValue` (R225). -/
def ctrlBOf (cfg : Half) : Byte :=
  byteBit (!cfgRxOff cfg) 7 ||| byteBit (!cfgTxOff cfg) 6 ||| byteBit (cfgOpenDrain cfg) 3

/-- The Configuration Decoder `decode(cfg)` (R221); it never fails (R223). -/
def decodeConfig (cfg : Half) : DecodedConfig where
  frameFormat := frameFormatOf cfg
  ctrlA := ctrlAOf cfg
  ctrlB := ctrlBOf cfg
  wantsRx := wantsRxOf cfg
  isHD := isHalfDuplexOf cfg

/-- `EnableMask(cfg)` (R120, R229). -/
def enableMask (cfg : Half) : Byte :=
  byteBit (!cfgTxOff cfg) 0 ||| byteBit (!cfgRxOff cfg) 1 ||| byteBit (cfgLoopback cfg) 2 |||
    byteBit (cfgOpenDrain cfg) 3 ||| byteBit (cfgRs485 cfg != 0#2) 4

/-- Bit 0 of an enable mask (R120). -/
def maskTxen (m : Byte) : Bool := m.getLsbD 0
/-- Bit 1 of an enable mask (R120). -/
def maskRxen (m : Byte) : Bool := m.getLsbD 1
/-- Bit 2 of an enable mask (R120). -/
def maskLoopback (m : Byte) : Bool := m.getLsbD 2
/-- Bit 3 of an enable mask (R120). -/
def maskOpenDrain (m : Byte) : Bool := m.getLsbD 3
/-- Bit 4 of an enable mask (R120). -/
def maskRs485 (m : Byte) : Bool := m.getLsbD 4

/-- What `BaudDivisor` returns when the rate is valid: the register value and the 2x bit (R231). -/
structure BaudSetting where
  reg : Half
  clk2x : Bool
deriving DecidableEq, Repr

/-- The default `BaudDivisor` (R232), in unbounded naturals; `none` is Invalid. -/
def standardDivisor (f baud : Nat) : Option BaudSetting :=
  if baud = 0 then none
  else
    let n1 := (4 * f + baud / 2) / baud
    let n2 := (8 * f + baud / 2) / baud
    if n1 > 65535 then none
    else if n1 ≥ 64 then some ⟨BitVec.ofNat 16 n1, false⟩
    else if n2 ≥ 64 then some ⟨BitVec.ofNat 16 n2, true⟩
    else none

/-- Any other `BaudDivisor` that R231 admits: a total pure function of f and baud, with clk2x set exactly above a bound
that depends on f alone. -/
def freeDivisor (f baud : Nat) : Option BaudSetting :=
  if Config.divisorValid f baud then some ⟨Config.divisorReg f baud, decide (baud > Config.divisorBound f)⟩ else none

/-- `BaudDivisor(F_CLK, baud)` of a configuration (R230, R231; log 10). -/
def baudDivisor (c : Params) (baud : Nat) : Option BaudSetting :=
  match c.divisor with
  | .standard => standardDivisor c.fClk baud
  | .free => freeDivisor c.fClk baud

/-- `rxPin(row)` (R204), in unbounded naturals. -/
def rowRxPin (r : Row) : Nat := if r.txPin = NOT_A_PIN then NOT_A_PIN.toNat else r.txPin.toNat + RX_OFFSET

/-- `dirPin(row)` (R204). -/
def rowDirPin (c : Params) (r : Row) : Nat :=
  if r.txPin = NOT_A_PIN then NOT_A_PIN.toNat else r.txPin.toNat + c.xdirOffset

end Sys2Proof.Machine
end

