-- ==== Sys2Proof/Machine/Ops.lean ====
section
/-! DEFINITION. The named operations every meaning is written with: register accesses (20_memory.md R75 to R79), ports and
responses, interrupt entry and return (60_exceptions.md R268, R269). -/

namespace Sys2Proof.Machine

open Sys2Proof

/-- A `RegWrite` access with its value (R75): RXDATA is read only. -/
inductive RegWrite where
  | ctrla (v : Byte)
  | ctrlb (v : Byte)
  | ctrlc (v : Byte)
  | baud (v : Half)
  | status (v : Byte)
  | txdata (v : Byte)
deriving DecidableEq, Repr

/-- A `RegRead` access (R75): TXDATA is write only. -/
inductive RegRead where
  | ctrla
  | ctrlb
  | ctrlc
  | baud
  | status
  | rxdata
deriving DecidableEq, Repr

/-- `RegWrite(p, r, v)`. CTRLA, CTRLB, CTRLC, BAUD are plain storage with reserved bits 0 (R31 to R34, R75); STATUS clears
TXCIF when bit 6 is 1 (R76); TXDATA fills TXHOLD and extends TXLOG (R79; every caller has checked DREIF = 1, log 12). -/
def Port.regWrite (u : Port) : RegWrite → Port
  | .ctrla v => { u with uart := { u.uart with ctrla := v &&& 0xEB#8 } }
  | .ctrlb v => { u with uart := { u.uart with ctrlb := v &&& 0xCE#8 } }
  | .ctrlc v => { u with uart := { u.uart with ctrlc := v &&& 0xFB#8 } }
  | .baud v => { u with uart := { u.uart with baud := v } }
  | .status v => { u with uart := { u.uart with txcif := u.uart.txcif && !v.getLsbD 6 } }
  | .txdata v => { u with uart := { u.uart with txHold := some v }, txLog := u.txLog ++ [v] }

/-- The 16-bit value RXDATA delivers for an entry: byte in 7:0, PERR in 9, FERR in 10 (R35, R77). -/
def RxEntry.word (e : RxEntry) : Half :=
  0#5 ++ BitVec.ofBool e.ferr ++ BitVec.ofBool e.perr ++ 0#1 ++ e.byte

/-- `RegRead(p, r)`: only the RXDATA read has a side effect, it pops RXFIFO (R77). `free` is the value an empty RXFIFO
reads as (R78, 93_implementation_defined.md U7). -/
def Port.regRead (u : Port) (free : Half) : RegRead → Half × Port
  | .ctrla => (u.uart.ctrla.setWidth 16, u)
  | .ctrlb => (u.uart.ctrlb.setWidth 16, u)
  | .ctrlc => (u.uart.ctrlc.setWidth 16, u)
  | .baud => (u.uart.baud, u)
  | .status => (u.uart.status.setWidth 16, u)
  | .rxdata =>
    match u.uart.rxFifo with
    | [] => (free, u)
    | e :: rest => (e.word, { u with uart := { u.uart with rxFifo := rest } })

/-- Clears TXCIF: `RegWrite(p, STATUS, 0x40)` (R76). -/
def Port.clearTxcif (u : Port) : Port := u.regWrite (.status 0x40#8)

/-- `CTRLA.DREIE <- 1`, one read-modify-write (R81). -/
def Port.enableDre (u : Port) : Port := u.regWrite (.ctrla (u.uart.ctrla ||| 0x20#8))

/-- `CTRLA.DREIE <- 0` (R81). -/
def Port.disableDre (u : Port) : Port := u.regWrite (.ctrla (u.uart.ctrla &&& ~~~0x20#8))

/-- The table and the instance of port p, if the port exists. -/
def State.lookup (s : State) (p : Nat) : Option (PortParams × Port) :=
  match s.params.ports[p]?, s.ports[p]? with
  | some c, some u => some (c, u)
  | _, _ => none

/-- Replaces the instance of port p. -/
def State.setPort (s : State) (p : Nat) (u : Port) : State := { s with ports := s.ports.set p u }

/-- Puts a response on the response port (R106). -/
def State.respond (s : State) (status : Status) (value : Half) : State :=
  { s with response := some ⟨status, value⟩ }

/-- The command blocks: `seq <- q`, and no response yet (R45, R106). -/
def State.block (s : State) (q : Seq) : State := { s with seq := q, response := none }

/-- The Host may issue again: `seq <- Ready`. -/
def State.unblock (s : State) : State := { s with seq := .ready }

/-- An illegal word answers `(ILLEGAL, 0)` and changes no state whatever (R105). -/
def State.illegal (s : State) : State := s.respond .illegal 0#16

/-- Runs a command's rule on an existing port; `port >= NPORTS` is illegal (R105). -/
def withPort (s : State) (p : Nat) (f : PortParams → Port → Result) : Result :=
  match s.lookup p with
  | some (c, u) => f c u
  | none => .next s.illegal

/-- Taking an interrupt (R268): nothing is saved, `IEXEC <- 1`, and control goes to the handler. -/
def State.takeInterrupt (s : State) : State := { s with iexec := true }

/-- Returning from an interrupt (R269): the handler ends, `IEXEC <- 0`, GIE unchanged. -/
def State.returnFromInterrupt (s : State) : State := { s with iexec := false }

/-- One activation of `Handler(p, k)` (R261, R268, R269): entry, the handler's body on its own port, return, in one step.
When the source is not dispatchable there is no such step of the Irq agent, and nothing changes (log 3). -/
def runHandler (s : State) (p : Nat) (k : Source) (body : Port → Port) : Result :=
  match s.lookup p with
  | some (_, u) =>
    if s.dispatchable u.uart k then .next ((s.takeInterrupt.setPort p (body u)).returnFromInterrupt) else .next s
  | none => .next s

end Sys2Proof.Machine
end

