-- ==== Sys2Proof/Machine/Pins.lean ====
section
/-! DEFINITION. The Pin Binding Resolver: `resolveMuxFromPins`, `RouteMasked`, `applyPinConfiguration`
(42_pin_binding_resolver.md R200 to R208). -/

namespace Sys2Proof.Machine

open Sys2Proof

/-- Whether a row matches a requested pair (R201, R203). -/
def rowMatches (tx rx : Byte) (r : Row) : Bool :=
  r.txPin != NOT_A_PIN && r.txPin == tx && (rx == NOT_A_PIN || rowRxPin r == rx.toNat)

/-- The scan of R201 in ascending order, `i` the index of the first row left. -/
def scanRows (tx rx : Byte) : Nat → List Row → Byte
  | _, [] => NOT_A_MUX
  | i, r :: rest => if rowMatches tx rx r then BitVec.ofNat 8 i else scanRows tx rx (i + 1) rest

/-- `resolveMuxFromPins(p, tx, rx)` (R201): a row index, MUX_IDX_NONE or NOT_A_MUX. -/
def resolveMuxFromPins (c : PortParams) (tx rx : Byte) : Byte :=
  if tx = NOT_A_PIN ∧ rx = NOT_A_PIN then MUX_IDX_NONE else scanRows tx rx 0 c.rows

/-- The value `RouteMasked` writes: `(old & ~mask) | (code & mask)` on `width` bits (R207). -/
def maskedRoute (width old mask code : Nat) : Nat :=
  ((BitVec.ofNat width old &&& ~~~BitVec.ofNat width mask) ||| (BitVec.ofNat width code &&& BitVec.ofNat width mask)).toNat

/-- `RouteMasked(p, code)`, one read-modify-write of ROUTE (R207). -/
def State.routeMasked (s : State) (c : PortParams) (code : Nat) : State :=
  { s with route := maskedRoute s.params.routeWidth s.route c.groupMask code }

/-- The pins of a row under an enable mask, by the truth table of R205, in R206's order. -/
def configureRowPins (c : Params) (r : Row) (m : Byte) (t : List (Nat × PinCfg)) : List (Nat × PinCfg) :=
  if r.txPin = NOT_A_PIN then t
  else
    let t1 :=
      if maskTxen m && !maskOpenDrain m then pinConfig t r.txPin.toNat .output .off
      else pinConfig t r.txPin.toNat .input .on
    let t2 := if maskRxen m && !maskLoopback m then pinConfig t1 (rowRxPin r) .input .on else t1
    if maskRs485 m then pinConfig t2 (rowDirPin c r) .output .off else t2

/-- `applyPinConfiguration(p, row, m)` (R206): the mux code under the group mask, then the row's pins. -/
def State.applyPinConfiguration (s : State) (c : PortParams) (r : Row) (m : Byte) : State :=
  { s.routeMasked c r.muxCode with pins := configureRowPins s.params r m s.pins }

/-- The binding part of `Configure` (R163): the none code, or the bound row. `none` when `pgi[p]` is neither. -/
def State.bindPins (s : State) (c : PortParams) (pgi : Byte) (cfg : Half) : Option State :=
  if pgi = MUX_IDX_NONE then some (s.routeMasked c c.muxNoneCode)
  else (c.rows[pgi.toNat]?).map fun r => s.applyPinConfiguration c r (enableMask cfg)

end Sys2Proof.Machine
end

