-- ==== Sys2Proof/Machine/Binding.lean ====
section
/-! DEFINITION. The binding commands PINS and SWAP (42_pin_binding_resolver.md R210 to R213). -/

namespace Sys2Proof.Machine

open Sys2Proof

/-- PINS p, tx, rx (R210): only `pgi[p]` changes, and not on failure (R208). -/
def execPins (p tx rx : Byte) (s : State) : Result :=
  withPort s p.toNat fun c u =>
    if resolveMuxFromPins c tx rx = NOT_A_MUX then .next (s.respond .fail 0#16)
    else
      .next ((s.setPort p.toNat { u with pgi := resolveMuxFromPins c tx rx }).respond .ok
        ((resolveMuxFromPins c tx rx).setWidth 16))

/-- SWAP p, idx (R211): a row index or MUX_IDX_NONE. -/
def execSwap (p idx : Byte) (s : State) : Result :=
  withPort s p.toNat fun c u =>
    if idx.toNat < c.rows.length ∨ idx = MUX_IDX_NONE then
      .next ((s.setPort p.toNat { u with pgi := idx }).respond .ok (idx.setWidth 16))
    else .next (s.respond .fail 0#16)

end Sys2Proof.Machine
end

