-- ==== Sys2Proof/Machine/Engine.lean ====
section
/-! DEFINITION. The stages of the Transfer State Machine that commands, spins and handlers share
(41_transfer_state_machine.md R163 to R177). -/

namespace Sys2Proof.Machine

open Sys2Proof

/-- `HdArm(p)` (R168): RXCIE <- 0 and TXCIE <- 1 in one access. -/
def Port.hdArm (u : Port) : Port := u.regWrite (.ctrla ((u.uart.ctrla &&& ~~~0x80#8) ||| 0x40#8))

/-- `HdArm` when `st[p].hd = 1`, as both paths of WRITE call it. -/
def Port.armIfHalfDuplex (u : Port) : Port := if u.hd then u.hdArm else u

/-- Clears TXCIF, strictly before writing the byte to TXDATA (20_memory.md R90). -/
def Port.sendByte (u : Port) (b : Byte) : Port := u.clearTxcif.regWrite (.txdata b)

/-- `DreStep(p)` (R169); precondition DREIF = 1. -/
def Port.dreStep (txCap : Nat) (u : Port) : Port :=
  match u.txb.tryPop txCap with
  | none => u.disableDre
  | some (b, r) => { u with txb := r }.sendByte b

/-- `PollDrain(p)` (R170): the condition flag only, whatever DREIE. -/
def Port.pollDrain (txCap : Nat) (u : Port) : Port := if u.uart.dreif then u.dreStep txCap else u

/-- The poll of a blocked command: `PollDrain` under `MustPoll`, nothing otherwise (R167, R173). -/
def State.pollPort (s : State) (u : Port) : Port := if s.mustPoll then u.pollDrain s.params.txCap else u

/-- `Shutdown(p)` (R177). -/
def Port.shutdown (u : Port) : Port :=
  let u1 := ((u.regWrite (.ctrlb 0x00#8)).regWrite (.ctrla 0x00#8)).clearTxcif
  { u1 with
    uart := { u1.uart with rxFifo := [] }
    rxb := { u1.rxb with tail := u1.rxb.head }
    written := false
    hd := false
    begun := false }

/-- The registers and instance bits `Configure` writes for a valid rate (R163): BAUD, CTRLC, CTRLA, then CTRLB with the
double-speed bit, last. -/
def Port.configureRegs (u : Port) (d : BaudSetting) (cfg : Half) : Port :=
  let k := decodeConfig cfg
  let u1 := (((u.regWrite (.baud d.reg)).regWrite (.ctrlc k.frameFormat)).regWrite (.ctrla k.ctrlA)).regWrite
    (.ctrlb (k.ctrlB ||| byteBit d.clk2x 1))
  { u1 with written := false, hd := k.isHD, begun := true }

/-- `Configure(p, baud, cfg)` (R163, R164) on the instance `u` of port p, whose `begun` is 0. -/
def configure (s : State) (p : Nat) (baud : Long) (cfg : Half) (c : PortParams) (u : Port) : Result :=
  match baudDivisor s.params baud.toNat with
  | none => .next ((s.setPort p u).respond .fail 0#16)
  | some d =>
    match s.bindPins c u.pgi cfg with
    | none => .fault .tableRow
    | some s1 => .next ((s1.setPort p (u.configureRegs d cfg)).respond .ok 0#16)

/-- `Continue(p, k)` (R172). -/
def continueWith (s : State) (p : Nat) (k : Cont) (c : PortParams) (u : Port) : Result :=
  match k with
  | .done => .next (s.respond .ok 0#16)
  | .thenEnd => .next ((s.setPort p u.shutdown).respond .ok 0#16)
  | .thenEndBegin baud cfg => configure s p baud cfg c u.shutdown

/-- `FlushThen(p, k)` (R172). -/
def flushThen (s : State) (p : Nat) (k : Cont) (c : PortParams) (u : Port) : Result :=
  if !u.written || u.uart.flushDone then continueWith s p k c u else .next (s.block (.flushWait p k))

/-- The push of `WriteTry` (R167): push, arm half duplex, enable DRE. The push cannot fail here. -/
def Port.pushByte (txCap : Nat) (u : Port) (b : Byte) : Port :=
  ({ u with txb := (u.txb.tryPush txCap b).getD u.txb }.armIfHalfDuplex).enableDre

/-- `WriteTry(p, b)` (R167) on the instance `u`. -/
def writeTry (s : State) (p : Nat) (b : Byte) (u : Port) : Result :=
  if u.txb.availableForWrite s.params.txCap = 0 then
    .next ((s.setPort p (s.pollPort u)).block (.writeWait p b))
  else
    .next (((s.setPort p (u.pushByte s.params.txCap b)).unblock).respond .ok 1#16)

/-- `FlushSpin(p, k)` (R173). -/
def flushSpin (s : State) (p : Nat) (k : Cont) (c : PortParams) (u : Port) : Result :=
  if u.uart.flushDone then continueWith s.unblock p k c u else .next (s.setPort p (s.pollPort u))

/-- `HostSpin` (R180): one iteration of the blocked command. -/
def spin (s : State) : Result :=
  match s.seq with
  | .ready => .next s
  | .writeWait p b =>
    match s.lookup p with
    | some (_, u) => writeTry s p b u
    | none => .fault .noSuchPort
  | .flushWait p k =>
    match s.lookup p with
    | some (c, u) => flushSpin s p k c u
    | none => .fault .noSuchPort

end Sys2Proof.Machine
end

