-- ==== Sys2Proof/Machine/Handlers.lean ====
section
/-! DEFINITION. The three interrupt handlers (60_exceptions.md R264 to R266). -/

namespace Sys2Proof.Machine

open Sys2Proof

/-- The body of RXC (R264): one RXDATA read; a parity error drops the byte, a full buffer drops it silently, a framing
error is ignored (90_conflicts.md C5). -/
def Port.rxcBody (rxCap : Nat) (free : Half) (u : Port) : Port :=
  let (w, u1) := u.regRead free .rxdata
  if w.getLsbD 9 then u1
  else
    match u1.rxb.tryPush rxCap (w.extractLsb' 0 8) with
    | some r => { u1 with rxb := r }
    | none => u1

/-- `while RXCIF = 1 do RegRead(p, RXDATA)` (R266), at most `n` reads. -/
def Port.drainRx (free : Half) : Nat → Port → Port
  | 0, u => u
  | n + 1, u => if u.uart.rxcif then Port.drainRx free n (u.regRead free .rxdata).2 else u

/-- The body of TXC (R266): discard every waiting entry, then RXCIE <- 1 and TXCIE <- 0 in one access. -/
def Port.txcBody (free : Half) (u : Port) : Port :=
  let u1 := u.drainRx free u.uart.rxFifo.length
  u1.regWrite (.ctrla ((u1.uart.ctrla ||| 0x80#8) &&& ~~~0x40#8))

/-- RXC(p) (R264). -/
def execRxc (p : BitVec 6) (s : State) : Result :=
  runHandler s p.toNat .rxc (Port.rxcBody s.params.rxCap (Config.rxDataEmpty s.tick))

/-- DRE(p) (R265). -/
def execDre (p : BitVec 6) (s : State) : Result := runHandler s p.toNat .dre (Port.dreStep s.params.txCap)

/-- TXC(p) (R266). -/
def execTxc (p : BitVec 6) (s : State) : Result :=
  runHandler s p.toNat .txc (Port.txcBody (Config.rxDataEmpty s.tick))

end Sys2Proof.Machine
end

