-- ==== Sys2Proof/Machine/Receive.lean ====
section
/-! DEFINITION. The receive-side commands AVAIL, AVAILW, PEEK, READ (40_ring_buffer.md R148 to R151). -/

namespace Sys2Proof.Machine

open Sys2Proof

/-- AVAIL p (R148). -/
def execAvail (p : Byte) (s : State) : Result :=
  withPort s p.toNat fun _ u => .next (s.respond .ok (BitVec.ofNat 16 (u.rxb.available s.params.rxCap)))

/-- AVAILW p (R149). -/
def execAvailw (p : Byte) (s : State) : Result :=
  withPort s p.toNat fun _ u => .next (s.respond .ok (BitVec.ofNat 16 (u.txb.availableForWrite s.params.txCap)))

/-- PEEK p (R150). -/
def execPeek (p : Byte) (s : State) : Result :=
  withPort s p.toNat fun _ u =>
    match u.rxb.front with
    | none => .next (s.respond .ok EMPTY16)
    | some v => .next (s.respond .ok (v.setWidth 16))

/-- READ p (R151). -/
def execRead (p : Byte) (s : State) : Result :=
  withPort s p.toNat fun _ u =>
    match u.rxb.tryPop s.params.rxCap with
    | none => .next (s.respond .ok EMPTY16)
    | some (v, r) => .next ((s.setPort p.toNat { u with rxb := r }).respond .ok (v.setWidth 16))

end Sys2Proof.Machine
end

