-- ==== Sys2Proof/Machine/System.lean ====
section
/-! DEFINITION. The system commands IRQSAVE, IRQREST, ISRENTER, ISREXIT (44_system_ops.md R240 to R243). -/

namespace Sys2Proof.Machine

open Sys2Proof

/-- IRQSAVE (R240): answers the old GIE and clears it. -/
def execIrqsave (s : State) : Result :=
  .next ({ s with gie := false }.respond .ok ((BitVec.ofBool s.gie).setWidth 16))

/-- IRQREST s (R241). -/
def execIrqrest (on : Bool) (s : State) : Result := .next ({ s with gie := on }.respond .ok 0#16)

/-- ISRENTER (R242): no nesting. -/
def execIsrenter (s : State) : Result :=
  if s.iexec then .next (s.respond .fail 0#16) else .next ({ s with iexec := true }.respond .ok 0#16)

/-- ISREXIT (R243). -/
def execIsrexit (s : State) : Result :=
  if s.iexec then .next ({ s with iexec := false }.respond .ok 0#16) else .next (s.respond .fail 0#16)

end Sys2Proof.Machine
end

