-- ==== Sys2Proof/Machine/Transfer.lean ====
section
/-! DEFINITION. The commands of the Transfer State Machine: BEGIN, END, WRITE, FLUSH, USABLE
(41_transfer_state_machine.md R162, R166, R172, R176, R179). -/

namespace Sys2Proof.Machine

open Sys2Proof

/-- BEGIN p, baud, cfg (R162): an implicit `end()` first when the port is begun. -/
def execBegin (p : Byte) (baud : Long) (cfg : Half) (s : State) : Result :=
  withPort s p.toNat fun c u =>
    if u.begun then flushThen s p.toNat (.thenEndBegin baud cfg) c u else configure s p.toNat baud cfg c u

/-- END p (R176). -/
def execEnd (p : Byte) (s : State) : Result :=
  withPort s p.toNat fun c u => flushThen s p.toNat .thenEnd c u

/-- The fast path of WRITE (R166): TXCIF is cleared before the load (20_memory.md R90). -/
def Port.fastWrite (u : Port) (b : Byte) : Port := u.armIfHalfDuplex.sendByte b

/-- The body of WRITE on a port it is defined for (R166). -/
def writeBody (s : State) (p : Nat) (b : Byte) (u : Port) : Result :=
  if u.txb.head = u.txb.tail ∧ u.uart.dreif then
    .next ((s.setPort p ({ u with written := true }.fastWrite b)).respond .ok 1#16)
  else writeTry s p b { u with written := true }

/-- WRITE p, v (R166): defined on a begun port with the transmitter on. The rest is the misuse of
93_implementation_defined.md U1 and U2, treated as `params.misuse` says (log 9). -/
def execWrite (p : Byte) (v : Long) (s : State) : Result :=
  withPort s p.toNat fun _ u =>
    if u.begun then
      if u.uart.txen then writeBody s p.toNat (writeByte v) u
      else
        match s.params.misuse with
        | .refuse => .refused .writeTransmitterOff
        | .total => writeBody s p.toNat (writeByte v) u
    else
      match s.params.misuse with
      | .refuse => .refused .writeNotBegun
      | .total => .next (s.respond .fail 0#16)

/-- FLUSH p (R172). -/
def execFlush (p : Byte) (s : State) : Result :=
  withPort s p.toNat fun c u => flushThen s p.toNat .done c u

/-- USABLE p (R179). -/
def execUsable (p : Byte) (s : State) : Result :=
  withPort s p.toNat fun _ _ => .next (s.respond .ok 1#16)

end Sys2Proof.Machine
end

