-- ==== Sys2Proof/Machine/Dispatch.lean ====
section
/-! DEFINITION. One arm per instruction of opcode_table.json. -/

namespace Sys2Proof.Machine

open Sys2Proof

def exec (i : Instr) (s : State) : Host.Outcome State Fault Refusal :=
  match i with
  | .beginPort p baud cfg => Sys2Proof.Machine.execBegin p baud cfg s
  | .endPort p => Sys2Proof.Machine.execEnd p s
  | .avail p => Sys2Proof.Machine.execAvail p s
  | .availw p => Sys2Proof.Machine.execAvailw p s
  | .peek p => Sys2Proof.Machine.execPeek p s
  | .read p => Sys2Proof.Machine.execRead p s
  | .write p v => Sys2Proof.Machine.execWrite p v s
  | .flush p => Sys2Proof.Machine.execFlush p s
  | .usable p => Sys2Proof.Machine.execUsable p s
  | .pins p tx rx => Sys2Proof.Machine.execPins p tx rx s
  | .swap p idx => Sys2Proof.Machine.execSwap p idx s
  | .irqsave => Sys2Proof.Machine.execIrqsave s
  | .irqrest on => Sys2Proof.Machine.execIrqrest on s
  | .isrenter => Sys2Proof.Machine.execIsrenter s
  | .isrexit => Sys2Proof.Machine.execIsrexit s
  | .rxc p => Sys2Proof.Machine.execRxc p s
  | .dre p => Sys2Proof.Machine.execDre p s
  | .txc p => Sys2Proof.Machine.execTxc p s

end Sys2Proof.Machine
end

