-- ==== Sys2Proof/Machine/Line.lean ====
section
/-! DEFINITION. The steps of the peripheral and the line (60_exceptions.md R281 to R284), and of the free environment of the
boundary view (R286). A turn whose step is not enabled changes nothing (log 3). -/

namespace Sys2Proof.Machine

open Sys2Proof

/-- `LineLoad(p)` is enabled (R281). -/
def Periph.lineLoadEnabled (u : Periph) : Bool := u.txen && u.txShift.isNone && u.txHold.isSome

/-- `LineLoad(p)` (R281). -/
def Periph.lineLoad (u : Periph) : Periph :=
  if u.lineLoadEnabled then { u with txShift := u.txHold, txHold := none } else u

/-- `RxArrive(p, b, perr, ferr)` (R284). -/
def Periph.rxArrive (depth : Nat) (u : Periph) (e : RxEntry) : Periph :=
  if u.rxFifo.length < depth then { u with rxFifo := u.rxFifo ++ [e] } else u

/-- The echo of a byte whose shift ends, in loopback with the receiver on (R282). -/
def Periph.echo (depth : Nat) (u : Periph) (b : Byte) : Periph :=
  if u.lbme && u.rxen then u.rxArrive depth ⟨b, false, false⟩ else u

/-- What the shift register does next (R282): back to back with TXHOLD, or TXCIF when nothing follows. -/
def Periph.shiftNext (u : Periph) : Periph :=
  match u.txHold with
  | some c => { u with txShift := some c, txHold := none }
  | none => { u with txShift := none, txcif := true }

/-- `LineShiftDone(p)` (R282). -/
def Port.lineShiftDone (depth : Nat) (u : Port) : Port :=
  match u.uart.txShift with
  | none => u
  | some b => { u with lineOut := u.lineOut ++ [b], uart := (u.uart.echo depth b).shiftNext }

/-- `LineRx(p, b, perr, ferr)` (R283). -/
def Periph.lineRx (depth : Nat) (u : Periph) (e : RxEntry) : Periph :=
  if u.rxen then u.rxArrive depth e else u

/-- One environment step on port p, under the view it belongs to. -/
def State.environment (s : State) (view : LineView) (p : Nat) (f : Port → Port) : State :=
  if s.params.line = view then
    match s.lookup p with
    | some (_, u) => s.setPort p (f u)
    | none => s
  else s

/-- The turn `LineLoad(p)` (R281). -/
def turnLineLoad (p : Nat) (s : State) : State :=
  s.environment .reference p fun u => { u with uart := u.uart.lineLoad }

/-- The turn `LineShiftDone(p)` (R282). -/
def turnLineShiftDone (p : Nat) (s : State) : State :=
  s.environment .reference p fun u => u.lineShiftDone s.params.rxFifoDepth

/-- The turn `LineRx(p, b, perr, ferr)` (R283). -/
def turnLineRx (p : Nat) (e : RxEntry) (s : State) : State :=
  s.environment .reference p fun u => { u with uart := u.uart.lineRx s.params.rxFifoDepth e }

/-- The free environment sets DREIF to 1 (R286). -/
def turnEnvDataEmpty (p : Nat) (s : State) : State :=
  s.environment .boundary p fun u => { u with uart := { u.uart with txHold := none } }

/-- The free environment sets TXCIF to 1 (R286). -/
def turnEnvTransmitComplete (p : Nat) (s : State) : State :=
  s.environment .boundary p fun u => { u with uart := { u.uart with txcif := true } }

/-- The free environment appends an entry to RXFIFO, at any step (R286): the bound RXFIFO_DEPTH belongs to the reference
model's `RxArrive` (R284, 10_state.md R43), which R286 replaces. -/
def turnEnvReceive (p : Nat) (e : RxEntry) (s : State) : State :=
  s.environment .boundary p fun u => { u with uart := { u.uart with rxFifo := u.uart.rxFifo ++ [e] } }

end Sys2Proof.Machine
end

