-- ==== Sys2Proof/Machine/Agents.lean ====
section
/-! DEFINITION. The turns of the three agents (00_scope.md R15, 41_transfer_state_machine.md R180, 60_exceptions.md R261),
where the next turn comes from (10_state.md R46), and how a first instruction is staged. -/

namespace Sys2Proof.Machine

open Sys2Proof

/-- `HostIssue(w)` (R180): decode the word and run its rule; an illegal word answers `(ILLEGAL, 0)` (30_encoding.md R105). -/
def issue (w : CommandWord) (s : State) : Result :=
  match decodeCommand w with
  | .ok i => exec i s
  | .error _ => .next s.illegal

/-- The Host's turn (R180): spin when a command is blocked, else issue the next command of the program in program order; with
no command left the Host issues nothing (70_reset_and_hazards.md R341). -/
def hostTurn (s : State) : Result :=
  match s.seq with
  | .ready =>
    match s.program with
    | [] => .next s
    | w :: rest => issue w { s with program := rest }
  | _ => spin s

/-- The Irq agent's turn on a vector id (30_encoding.md R125); a reserved id names no handler. -/
def irqTurn (v : VectorId) (s : State) : Result :=
  match decodeVector v with
  | .ok i => exec i s
  | .error _ => .next s

/-- One turn of one agent. -/
def runEvent (e : Event) (s : State) : Result :=
  match e with
  | .host => hostTurn s
  | .irq v => irqTurn v s
  | .lineLoad p => .next (turnLineLoad p s)
  | .lineShiftDone p => .next (turnLineShiftDone p s)
  | .lineRx p b perr ferr => .next (turnLineRx p ⟨b, perr, ferr⟩ s)
  | .envDataEmpty p => .next (turnEnvDataEmpty p s)
  | .envTransmitComplete p => .next (turnEnvTransmitComplete p s)
  | .envReceive p b perr ferr => .next (turnEnvReceive p ⟨b, perr, ferr⟩ s)

/-- The next turn: the first one fixed, or a free one when none is (R46; log 2). -/
def State.nextEvent (s : State) : Event :=
  match s.inputs with
  | e :: _ => e
  | [] => Config.freeEvent s.tick

/-- The state in which that turn is taken: the turn is used up. -/
def State.afterDraw (s : State) : State :=
  match s.inputs with
  | _ :: rest => { s with inputs := rest }
  | [] => { s with tick := s.tick + 1 }

/-- The instance `u` with one source pending and no other: its enable bit and its flag set (R42). -/
def Port.raise (u : Port) : Source → Port
  | .rxc => { u with uart := { u.uart with
      ctrla := (u.uart.ctrla &&& 0x1F#8) ||| 0x80#8
      rxFifo := if u.uart.rxFifo.isEmpty then [⟨0#8, false, false⟩] else u.uart.rxFifo } }
  | .dre => { u with uart := { u.uart with
      ctrla := (u.uart.ctrla &&& 0x1F#8) ||| 0x20#8
      txHold := none } }
  | .txc => { u with uart := { u.uart with
      ctrla := (u.uart.ctrla &&& 0x1F#8) ||| 0x40#8
      txcif := true } }

/-- Makes one interrupt source of port p dispatchable (R261), for a vector id's first activation. -/
def State.stageSource (s : State) (p : Nat) (k : Source) : State :=
  match s.lookup p with
  | some (_, u) => { s with gie := true, iexec := false }.setPort p (u.raise k)
  | none => s

/-- A command word as the Host's very next turn. -/
def State.stageCommand (s : State) (w : CommandWord) : State :=
  { s with seq := .ready, program := w :: s.program, inputs := .host :: s.inputs }

/-- A vector id as the Irq agent's very next turn, with its source made dispatchable. -/
def State.stageVector (s : State) (v : VectorId) : State :=
  let s1 :=
    match decodeVector v with
    | .ok (.rxc p) => s.stageSource p.toNat .rxc
    | .ok (.dre p) => s.stageSource p.toNat .dre
    | .ok (.txc p) => s.stageSource p.toNat .txc
    | _ => s
  { s1 with inputs := .irq v :: s1.inputs }

end Sys2Proof.Machine
end

