-- ==== Sys2Proof/Machine/Step.lean ====
section
/-! DEFINITION. One step: the next turn is drawn and taken (20_memory.md R88). And how an instruction is placed where the
next step fetches it (log 2). -/

namespace Sys2Proof.Machine

open Sys2Proof

/-- One atomic transition of the whole state (R84, R88). -/
def step (s : State) : Host.Outcome State Fault Refusal := runEvent s.nextEvent s.afterDraw

/-- The instruction whose bits are `w` as the very next step: a 64-bit word on the command port in the Host's turn, an
8-bit vector id in the Irq agent's turn. -/
def State.withFetchWord (s : State) (nbits w : Nat) : State :=
  if nbits = 8 then s.stageVector (BitVec.ofNat 8 w) else s.stageCommand (BitVec.ofNat 64 w)

end Sys2Proof.Machine
end

