-- ==== Sys2Proof/Safety.lean ====
section
/-! DEFINITION. The terms claims use: the reset states of 10_state.md R50, the invariants of R51, the frame of one step,
runs with the fairness of 60_exceptions.md R285, and the end condition of 70_reset_and_hazards.md R341. -/

namespace Sys2Proof.Machine

open Sys2Proof

/-- A port instance as R50 leaves it, whatever its buffer slots, CTRLC and BAUD hold. -/
structure Port.IsReset (u : Port) : Prop where
  pgi : u.pgi = 0#8
  st : u.written = false ∧ u.hd = false ∧ u.begun = false
  cursors : u.rxb.head = 0 ∧ u.rxb.tail = 0 ∧ u.txb.head = 0 ∧ u.txb.tail = 0
  ctrl : u.uart.ctrla = 0x00#8 ∧ u.uart.ctrlb = 0x00#8
  status : u.uart.status = 0x20#8
  hidden : u.uart.txHold = none ∧ u.uart.txShift = none ∧ u.uart.rxFifo = []
  ghosts : u.txLog = [] ∧ u.lineOut = []

/-- "The state of rule R50, for some choice of every unspecified value" (R301). -/
structure State.IsReset (s : State) : Prop where
  count : s.ports.length = s.params.nports
  ports : ∀ u ∈ s.ports, u.IsReset
  interrupts : s.gie = false ∧ s.iexec = false
  seq : s.seq = .ready

/-- R25, R27, R28: both cursors in range, the array canonical and inside the capacity. -/
structure Ring.Wf (cap : Nat) (b : Ring) : Prop where
  head : b.head < cap
  tail : b.tail < cap
  data : Memory.wf b.data = true
  bound : ∀ c ∈ b.data, c.1 < cap

/-- The items of R51 that hold of one port whatever the peripheral does, with the widths of R31 to R33 and R43. -/
structure PortInv (c : Params) (t : PortParams) (u : Port) : Prop where
  rx : u.rxb.Wf c.rxCap
  tx : u.txb.Wf c.txCap
  /-- R51 item 1, R21. -/
  pgi : u.pgi.toNat < t.rows.length ∨ u.pgi = MUX_IDX_NONE
  /-- R51 item 2. -/
  held : u.txb.head ≠ u.txb.tail → u.written = true ∧ u.begun = true
  /-- R51 item 3. -/
  dreie : u.uart.dreie = true → u.begun = true
  /-- R51 item 4. -/
  txcie : u.uart.txcie = true → u.hd = true
  /-- R51 item 5. -/
  ended : u.begun = false → u.uart.ctrla = 0x00#8 ∧ u.uart.ctrlb = 0x00#8 ∧ u.rxb.head = u.rxb.tail ∧
    u.txb.head = u.txb.tail ∧ u.written = false ∧ u.hd = false
  /-- Bytes still buffered keep the drain enabled (R167, R169). -/
  armed : u.txb.head ≠ u.txb.tail → u.uart.dreie = true
  /-- R43, R284: the bound of the reference peripheral; the free environment of R286 has none. -/
  fifo : c.line = .reference → u.uart.rxFifo.length ≤ c.rxFifoDepth
  /-- Reserved bits read 0 (R31 to R33), and RXMODE is 00 or 01 (R32). -/
  reserved : u.uart.ctrla &&& 0x14#8 = 0#8 ∧ u.uart.ctrlb &&& 0x35#8 = 0#8 ∧ u.uart.ctrlc &&& 0x04#8 = 0#8

/-- What the sequencer may hold: a blocked command names an existing begun port that has been written (R45, R167, R172). -/
def State.SeqInv (s : State) : Prop :=
  match s.seq with
  | .ready => True
  | .writeWait p _ => ∃ t u, s.lookup p = some (t, u) ∧ u.begun = true ∧ u.written = true
  | .flushWait p _ => ∃ t u, s.lookup p = some (t, u) ∧ u.begun = true ∧ u.written = true

/-- The invariant of every reachable state (R51) under legal parameters (R8). -/
structure State.Inv (s : State) : Prop where
  params : s.params.Wf
  count : s.ports.length = s.params.nports
  route : s.route < 2 ^ s.params.routeWidth
  seq : s.SeqInv
  ports : ∀ p t u, s.lookup p = some (t, u) → PortInv s.params t u

/-- What holds of one port as well when the peripheral is the reference model of R281 to R284. -/
structure PortLineInv (u : Port) : Prop where
  /-- TXCIF means that nothing is left in the peripheral (R282, R174). -/
  complete : u.uart.txcif = true → u.uart.txHold = none ∧ u.uart.txShift = none
  /-- R51 item 8. -/
  idle : u.written = false → u.uart.txHold = none ∧ u.uart.txShift = none
  /-- R339: after a WRITE something is in flight or TXCIF is set. -/
  inFlight : u.written = true →
    u.txb.head ≠ u.txb.tail ∨ u.uart.txHold ≠ none ∨ u.uart.txShift ≠ none ∨ u.uart.txcif = true
  /-- R44: LINE_OUT, the shift register and the holding register make up TXLOG. -/
  log : u.txLog = u.lineOut ++ u.uart.txShift.toList ++ u.uart.txHold.toList
  /-- R182, R330: a half-duplex port with its receive interrupt on has nothing left to send. -/
  hdQuiet : u.hd = true → u.uart.rxcie = true →
    u.txb.head = u.txb.tail ∧ u.uart.txHold = none ∧ u.uart.txShift = none
  /-- R177, R283: a disabled port's receiver is off and holds nothing. -/
  endedFifo : u.begun = false → u.uart.rxFifo = []

/-- `PortLineInv` of every port. -/
def State.LineInv (s : State) : Prop := ∀ p t u, s.lookup p = some (t, u) → PortLineInv u

/-- Every byte array of the machine and PIN are in canonical form. -/
def State.memoryWf (s : State) : Bool :=
  s.ports.all (fun u => Memory.wf u.rxb.data && Memory.wf u.txb.data) && sparseWf PinCfg.unlisted s.pins

/-- The bytes of port p that WRITE has accepted and that are not lost: sent to TXDATA, or still buffered (20_memory.md R91). -/
def Port.accepted (cap : Nat) (u : Port) : List Byte := u.txLog ++ u.txb.held cap

/-- The handler the Irq agent's turn names: its port and its source (R125). -/
def vectorSource (v : VectorId) : Option (Nat × Source) :=
  match decodeVector v with
  | .ok (.rxc p) => some (p.toNat, .rxc)
  | .ok (.dre p) => some (p.toNat, .dre)
  | .ok (.txc p) => some (p.toNat, .txc)
  | _ => none

/-- The word `w` is how the command `i` is written, and reads as `i` (30_encoding.md R101, R102, R104). -/
def Encodes (w : CommandWord) (i : Instr) : Prop := decodeCommand w = .ok i ∧ encode i = .command w

/-- The very next step is the Host issuing the command `i` (R180). -/
def State.issues (s : State) (i : Instr) : Prop :=
  s.nextEvent = .host ∧ s.seq = .ready ∧ ∃ w rest, s.program = w :: rest ∧ decodeCommand w = .ok i

/-- The port that the Host's turn is about: that of the blocked command, or of the command it issues (R45, R180). -/
def State.hostPort (s : State) : Option Nat :=
  match s.seq with
  | .writeWait p _ => some p
  | .flushWait p _ => some p
  | .ready =>
    match s.program with
    | [] => none
    | w :: _ =>
      match decodeCommand w with
      | .ok i => i.port?
      | .error _ => none

/-- The one port that the next turn is about (R52, 60_exceptions.md R262, R273); `none` for a turn that names no port: a
command without a port operand, an illegal word, a reserved vector id, or a Host with nothing to issue. -/
def State.turnPort (s : State) : Option Nat :=
  match s.nextEvent with
  | .host => s.hostPort
  | .irq v => (vectorSource v).map Prod.fst
  | e => e.linePort?

/-- The buffer with a list of bytes pushed in turn; `none` as soon as one is refused (40_ring_buffer.md R147). -/
def Ring.pushAll (cap : Nat) : Ring → List Byte → Option Ring
  | b, [] => some b
  | b, v :: vs =>
    match b.tryPush cap v with
    | some r => Ring.pushAll cap r vs
    | none => none

/-- `n` bytes popped in turn, in order, and the buffer left; `none` as soon as the buffer is empty (R147). -/
def Ring.popAll (cap : Nat) : Nat → Ring → Option (List Byte × Ring)
  | 0, b => some ([], b)
  | n + 1, b =>
    match b.tryPop cap with
    | some (v, r) => (Ring.popAll cap n r).map fun q => (v :: q.1, q.2)
    | none => none

/-- One use of a ring buffer. -/
inductive RingUse where
  | push (v : Byte)
  | pop
deriving DecidableEq, Repr

/-- A sequence of `tryPush` and `tryPop`, counting the successful pushes minus the successful pops (R147). -/
def Ring.useAll (cap : Nat) : Ring → Int → List RingUse → Ring × Int
  | b, n, [] => (b, n)
  | b, n, .push v :: l =>
    match b.tryPush cap v with
    | some r => Ring.useAll cap r (n + 1) l
    | none => Ring.useAll cap b n l
  | b, n, .pop :: l =>
    match b.tryPop cap with
    | some (_, r) => Ring.useAll cap r (n - 1) l
    | none => Ring.useAll cap b n l

/-- `n` steps of the machine, stopping at the first fault or refusal. -/
def runSteps : Nat → State → Result
  | 0, s => .next s
  | n + 1, s =>
    match step s with
    | .next t => runSteps n t
    | .fault r => .fault r
    | .refused r => .refused r

/-- An infinite run of the machine, one state per step. -/
def Run (r : Nat → State) : Prop := ∀ n, step (r n) = .next (r (n + 1))

/-- Weak fairness of one kind of turn: if it stays possible from some step on, it is taken at some later step. -/
def WeaklyFair (r : Nat → State) (possible : State → Prop) (turn : Event → Prop) : Prop :=
  ∀ n, (∀ m, n ≤ m → possible (r m)) → ∃ m, n ≤ m ∧ turn (r m).nextEvent

/-- A handler stays dispatchable until it runs (R285, first sentence). -/
def FairIrq (r : Nat → State) : Prop :=
  ∀ v p k, vectorSource v = some (p, k) →
    WeaklyFair r (fun s => ∃ t u, s.lookup p = some (t, u) ∧ s.dispatchable u.uart k = true) (· = .irq v)

/-- `HostSpin` is weakly fair (R285). -/
def FairSpin (r : Nat → State) : Prop := WeaklyFair r (fun s => s.seq ≠ .ready) (· = .host)

/-- The named assumption `LINE_DRAINS(p)`: the transmit steps of the line of port p are weakly fair (R285). DESIGN CHOICE
(log 20): R285 speaks of LineLoad and LineShiftDone alone, and is silent on the boundary view of R286, which has neither;
there the assumption stays the one on those turns, which change nothing, and asks for no turn of the environment. -/
def LineDrains (r : Nat → State) (p : Nat) : Prop :=
  WeaklyFair r (fun s => ∃ t u, s.lookup p = some (t, u) ∧ u.uart.lineLoadEnabled = true) (· = .lineLoad p) ∧
  WeaklyFair r (fun s => ∃ t u, s.lookup p = some (t, u) ∧ u.uart.txShift ≠ none) (· = .lineShiftDone p)

/-- The end condition of a program (R341): the Host is ready with nothing left to issue, and no handler and no transmit step
of the line is possible. DESIGN CHOICE (log 19): R341 says "no step other than `LineRx` is enabled", and is silent on the
boundary view of R286, whose environment may always move; there the same condition is used, that no transmit step of the
reference line would be possible, and the environment's turns are left out as LineRx is. -/
def State.quiescent (s : State) : Prop :=
  s.seq = .ready ∧ s.program = [] ∧
    ∀ p t u, s.lookup p = some (t, u) →
      (∀ k, s.dispatchable u.uart k = false) ∧ u.uart.lineLoadEnabled = false ∧ u.uart.txShift = none

/-- One round of turns for a Host that polls a blocked command on port p while its line drains: the line's two transmit
steps, then the Host (R338, 95_test_vectors.md P2). -/
def drainRound (p : Nat) : List Event := [.lineShiftDone p, .lineLoad p, .host]

end Sys2Proof.Machine
end

