-- ==== Sys2Proof/Certificates/Slice0/Obligations.lean ====
section
/-! DEFINITION. The statements for the provers, one `def Obligations.<Name> : Prop` each. -/

open Sys2Proof Sys2Proof.Machine

/-- 30_encoding.md R101 to R104, R125: every instruction has exactly one encoding, and decoding gives it back. Basis: the
spec's own decisions D2 and D25. -/
def Obligations.DecodeEncodeAgree : Prop :=
  ∀ (e : Encoding) (i : Instr), decode e = .ok i ↔ encode i = e

/-- R107: a word that decodes selects exactly one row of R104's table, the one of its mnemonic; any other word selects
none. Basis: R107 is marked as derived from R102 and R105, and the opcode map is decision D2. -/
def Obligations.EveryWordSelectsOneRowOrIsIllegal : Prop :=
  ∀ w : CommandWord,
    match decodeCommand w with
    | .ok i => ∃ r, commandTable.filter (fun r => w &&& r.mask = r.pattern) = [r] ∧ r.mnemonic = i.mnemonic
    | .error _ => commandTable.filter (fun r => w &&& r.mask = r.pattern) = []

/-- The words of 95_test_vectors.md section 2.2 and 2.3 decode as it says. Basis: decisions D2 and D25. -/
def Obligations.SampleWordsDecode : Prop :=
  decodeCommand 0x010100030001C200#64 = .ok (.beginPort 1#8 115200#32 0x0003#16) ∧
  decodeCommand 0x0200000000000000#64 = .ok (.endPort 0#8) ∧
  decodeCommand 0x0301000000000000#64 = .ok (.avail 1#8) ∧
  decodeCommand 0x07010000000001FF#64 = .ok (.write 1#8 0x1FF#32) ∧
  decodeCommand 0x0A0004FF00000000#64 = .ok (.pins 0#8 4#8 0xFF#8) ∧
  decodeCommand 0x0B01008000000000#64 = .ok (.swap 1#8 0x80#8) ∧
  decodeCommand 0x1000000000000000#64 = .ok .irqsave ∧
  decodeCommand 0x1100000100000000#64 = .ok (.irqrest true) ∧
  decodeVector 0x04#8 = .ok (.rxc 1#6) ∧
  decodeVector 0x05#8 = .ok (.dre 1#6) ∧
  decodeVector 0x06#8 = .ok (.txc 1#6) ∧
  decodeVector 0x07#8 = .error .reservedVector

/-- R110: BEGIN without a Configuration Word uses SERIAL_8N1, UNBIND is SWAP with the "none" index, and of WRITE's operand
only `v[7:0]` is used. Basis: that the default is SERIAL_8N1 is decision D22. -/
def Obligations.PseudoInstructionsExpand : Prop :=
  (∀ p baud : Nat, assemble "BEGIN" [p, baud] = assemble "BEGIN" [p, baud, 0x0003]) ∧
  (∀ p : Nat, assemble "UNBIND" [p] = assemble "SWAP" [p, 0x80]) ∧
  (∀ (s : State) (p : Byte) (v w : Long), v.setWidth 8 = w.setWidth 8 → exec (.write p v) s = exec (.write p w) s)

/-- R105: an illegal word answers `(ILLEGAL, 0)` and changes nothing else. A word is illegal when it selects no row, or
when its port does not exist. Basis: the answer to an illegal word is decision D34. -/
def Obligations.IllegalWordsChangeNothing : Prop :=
  ∀ (s : State) (w : CommandWord),
    ((∀ r ∈ commandTable, w &&& r.mask ≠ r.pattern) ∨
      (∃ i p, decodeCommand w = .ok i ∧ i.port? = some p ∧ s.params.nports ≤ p)) →
    issue w s = .next { s with response := some ⟨.illegal, 0#16⟩ }

/-- 41_transfer_state_machine.md R180, 60_exceptions.md R261, R262: a step of the Host runs the decoded command at the
state whose program has moved past the word; a step of the Irq agent runs the handler of the decoded vector id. Basis: the
steps are decision D3, the dispatcher D25; the order of turns is the model's, log 2. -/
def Obligations.StepRunsDecodedInstruction : Prop :=
  (∀ (s : State) (w : CommandWord) (rest : List CommandWord) (i : Instr),
    s.nextEvent = .host → s.seq = .ready → s.program = w :: rest → decodeCommand w = .ok i →
    step s = exec i { s.afterDraw with program := rest }) ∧
  (∀ (s : State) (v : VectorId) (i : Instr),
    s.nextEvent = .irq v → decodeVector v = .ok i → step s = exec i s.afterDraw)

/-- A command word placed by `withFetchWord` is what the very next step runs, at a state that differs from the given one only
in that no command is in progress (the model's convention of log 2). -/
def Obligations.StagedWordRunsNext : Prop :=
  ∀ (s : State) (w : Nat) (i : Instr), decodeTableWord 64 w = some i →
    step (s.withFetchWord 64 w) = exec i { s with seq := .ready }

/-- 20_memory.md R76, R77: the STATUS read, the STATUS write, and the RXDATA read that pops one entry. Basis: decisions
D13 and D27. -/
def Obligations.RegisterAccessSideEffects : Prop :=
  ∀ (u : Port) (free : Half) (v : Byte) (e : RxEntry) (rest : List RxEntry),
    (u.regRead free .status).2 = u ∧
    (∀ i, (u.regRead free .status).1.getLsbD i = true ↔
      (i = 7 ∧ u.uart.rxFifo ≠ []) ∨ (i = 6 ∧ u.uart.txcif = true) ∨ (i = 5 ∧ u.uart.txHold = none)) ∧
    u.regWrite (.status v) =
      { u with uart := { u.uart with txcif := if v.getLsbD 6 then false else u.uart.txcif } } ∧
    (u.uart.rxFifo = e :: rest →
      (u.regRead free .rxdata).2 = { u with uart := { u.uart with rxFifo := rest } } ∧
      (∀ i, (u.regRead free .rxdata).1.getLsbD i = true ↔
        (i < 8 ∧ e.byte.getLsbD i = true) ∨ (i = 9 ∧ e.perr = true) ∨ (i = 10 ∧ e.ferr = true)))

/-- 40_ring_buffer.md R141: a full buffer refuses and keeps everything; otherwise the byte is stored at `head` and `head`
advances modulo the capacity. -/
def Obligations.TryPushStoresAtHead : Prop :=
  ∀ (cap : Nat) (b : Machine.Ring) (v : Byte), LegalCap cap → b.Wf cap →
    ((b.head + 1) % cap = b.tail → b.tryPush cap v = none) ∧
    ((b.head + 1) % cap ≠ b.tail → ∃ r, b.tryPush cap v = some r ∧ r.Wf cap ∧
      r.head = (b.head + 1) % cap ∧ r.tail = b.tail ∧ Memory.read r.data b.head = v ∧
      ∀ i, i ≠ b.head → Memory.read r.data i = Memory.read b.data i)

/-- R142: an empty buffer answers none; otherwise the byte at `tail` comes out, `tail` advances modulo the capacity, and
every slot keeps its byte. -/
def Obligations.TryPopAdvancesTail : Prop :=
  ∀ (cap : Nat) (b : Machine.Ring), LegalCap cap → b.Wf cap →
    (b.head = b.tail → b.tryPop cap = none) ∧
    (b.head ≠ b.tail → ∃ r, b.tryPop cap = some (Memory.read b.data b.tail, r) ∧ r.Wf cap ∧
      r.tail = (b.tail + 1) % cap ∧ r.head = b.head ∧ r.data = b.data)

/-- R143, R144, R146: `available` is the number of bytes held, 0 to cap - 1; the two counts add up to cap - 1; and
`availableForWrite` is 0 exactly when `tryPush` refuses. -/
def Obligations.AvailableCountsHeldBytes : Prop :=
  ∀ (cap : Nat) (b : Machine.Ring), LegalCap cap → b.Wf cap →
    b.available cap = (if b.tail ≤ b.head then b.head - b.tail else cap - b.tail + b.head) ∧
    b.available cap = (b.held cap).length ∧ b.available cap ≤ cap - 1 ∧
    b.available cap + b.availableForWrite cap = cap - 1 ∧
    (b.availableForWrite cap = 0 ↔ ∀ v, b.tryPush cap v = none)

/-- 10_state.md R25, 40_ring_buffer.md R145: the bytes held, oldest first, gain a pushed byte at the end and lose a popped
byte at the front, and `front` shows that byte. Basis: `front` is decision D22. -/
def Obligations.PushAppendsPopRemovesOldest : Prop :=
  ∀ (cap : Nat) (b r : Machine.Ring) (v : Byte), LegalCap cap → b.Wf cap →
    (b.tryPush cap v = some r → r.held cap = b.held cap ++ [v]) ∧
    (b.tryPop cap = some (v, r) → b.held cap = v :: r.held cap) ∧
    b.front = (b.held cap).head?

/-- R147: pushing at most cap - 1 bytes onto an empty buffer and popping as many gives them back in order; and whatever the
sequence of pushes and pops, the successful pushes since empty minus the pops never exceed cap - 1, and are the bytes held. -/
def Obligations.RingBufferIsFifo : Prop :=
  ∀ (cap : Nat) (b : Machine.Ring), LegalCap cap → b.Wf cap → b.head = b.tail →
    (∀ bytes : List Byte, bytes.length ≤ cap - 1 →
      ∃ full left, b.pushAll cap bytes = some full ∧ full.popAll cap bytes.length = some (bytes, left) ∧
        left.head = left.tail) ∧
    (∀ uses : List RingUse,
      (b.useAll cap 0 uses).2 = ((b.useAll cap 0 uses).1.available cap : Int) ∧
      (b.useAll cap 0 uses).2 ≤ (cap : Int) - 1) ∧
    b.tryPop cap = none

/-- 40_ring_buffer.md R148, R149: AVAIL answers the received bytes waiting, AVAILW the bytes WRITE takes without blocking;
both write nothing. Basis: the command words are decision D2. -/
def Obligations.AvailAndAvailwAnswerCounts : Prop :=
  ∀ (s : State) (p : Byte) (c : PortParams) (u : Port), s.lookup p.toNat = some (c, u) →
    (LegalCap s.params.rxCap → u.rxb.Wf s.params.rxCap →
      Encodes (commandWord 0x03#8 p 0#16 0#32) (.avail p) ∧
      exec (.avail p) s = .next { s with response := some ⟨.ok, BitVec.ofNat 16
        (if u.rxb.tail ≤ u.rxb.head then u.rxb.head - u.rxb.tail
         else s.params.rxCap - u.rxb.tail + u.rxb.head)⟩ }) ∧
    (LegalCap s.params.txCap → u.txb.Wf s.params.txCap →
      Encodes (commandWord 0x04#8 p 0#16 0#32) (.availw p) ∧
      exec (.availw p) s = .next { s with response := some ⟨.ok, BitVec.ofNat 16
        (s.params.txCap - 1 -
          (if u.txb.tail ≤ u.txb.head then u.txb.head - u.txb.tail
           else s.params.txCap - u.txb.tail + u.txb.head))⟩ })

/-- R150: PEEK answers the oldest unread byte, or EMPTY16, and writes nothing. Basis: PEEK's contract is decision D22. -/
def Obligations.PeekAnswersOldest : Prop :=
  ∀ (s : State) (p : Byte) (c : PortParams) (u : Port), s.lookup p.toNat = some (c, u) →
    LegalCap s.params.rxCap → u.rxb.Wf s.params.rxCap →
    Encodes (commandWord 0x05#8 p 0#16 0#32) (.peek p) ∧
    (u.rxb.held s.params.rxCap = [] → exec (.peek p) s = .next { s with response := some ⟨.ok, 0xFFFF#16⟩ }) ∧
    (∀ v rest, u.rxb.held s.params.rxCap = v :: rest →
      exec (.peek p) s = .next { s with response := some ⟨.ok, v.setWidth 16⟩ })

/-- R151: READ consumes the oldest unread byte by moving the read cursor alone, or answers EMPTY16 and changes nothing.
Basis: the answer on an empty buffer is decision D22. -/
def Obligations.ReadConsumesOldest : Prop :=
  ∀ (s : State) (p : Byte) (c : PortParams) (u : Port), s.lookup p.toNat = some (c, u) →
    LegalCap s.params.rxCap → u.rxb.Wf s.params.rxCap →
    Encodes (commandWord 0x06#8 p 0#16 0#32) (.read p) ∧
    (u.rxb.held s.params.rxCap = [] → exec (.read p) s = .next { s with response := some ⟨.ok, 0xFFFF#16⟩ }) ∧
    (∀ v rest, u.rxb.held s.params.rxCap = v :: rest →
      exec (.read p) s = .next { s with
        ports := s.ports.set p.toNat
          { u with rxb := ⟨u.rxb.head, (u.rxb.tail + 1) % s.params.rxCap, u.rxb.data⟩ }
        response := some ⟨.ok, v.setWidth 16⟩ })

/-- 41_transfer_state_machine.md R179: USABLE answers `(OK, 1)` for every existing port and writes nothing. Basis:
decision D22. -/
def Obligations.UsableAnswersOne : Prop :=
  ∀ (s : State) (p : Byte) (c : PortParams) (u : Port), s.lookup p.toNat = some (c, u) →
    Encodes (commandWord 0x09#8 p 0#16 0#32) (.usable p) ∧
    exec (.usable p) s = .next { s with response := some ⟨.ok, 1#16⟩ }

/-- 44_system_ops.md R240 to R243: IRQSAVE answers the old GIE and clears it, IRQREST sets it, ISRENTER and ISREXIT set
and clear IEXEC without nesting; none changes anything else. Basis: ISRENTER and ISREXIT are decision D26, the command
words D2. -/
def Obligations.SystemCommandsChangeTheirBit : Prop :=
  ∀ s : State,
    (Encodes 0x1000000000000000#64 .irqsave ∧
      exec .irqsave s = .next { s with gie := false, response := some ⟨.ok, if s.gie then 1#16 else 0#16⟩ }) ∧
    (∀ on : Bool,
      Encodes (if on then 0x1100000100000000#64 else 0x1100000000000000#64) (.irqrest on) ∧
      exec (.irqrest on) s = .next { s with gie := on, response := some ⟨.ok, 0#16⟩ }) ∧
    Encodes 0x1200000000000000#64 .isrenter ∧ Encodes 0x1300000000000000#64 .isrexit ∧
    (s.iexec = false → exec .isrenter s = .next { s with iexec := true, response := some ⟨.ok, 0#16⟩ } ∧
      exec .isrexit s = .next { s with response := some ⟨.fail, 0#16⟩ }) ∧
    (s.iexec = true → exec .isrenter s = .next { s with response := some ⟨.fail, 0#16⟩ } ∧
      exec .isrexit s = .next { s with iexec := false, response := some ⟨.ok, 0#16⟩ })

/-- 42_pin_binding_resolver.md R208, R210, R211: PINS and SWAP write `pgi[p]` alone and answer the index; a pair that
resolves to nothing, or an index that names nothing, answers `(FAIL, 0)` and changes nothing. Basis: SWAP's failure is
decision D23, the sentinel codes D8. -/
def Obligations.BindingCommandsWritePinGroup : Prop :=
  ∀ (s : State) (p : Byte) (c : PortParams) (u : Port), s.lookup p.toNat = some (c, u) →
    (∀ tx rx : Byte,
      Encodes (commandWord 0x0A#8 p (tx ++ rx) 0#32) (.pins p tx rx) ∧
      (resolveMuxFromPins c tx rx = NOT_A_MUX →
        exec (.pins p tx rx) s = .next { s with response := some ⟨.fail, 0#16⟩ }) ∧
      (resolveMuxFromPins c tx rx ≠ NOT_A_MUX →
        exec (.pins p tx rx) s = .next { s with
          ports := s.ports.set p.toNat { u with pgi := resolveMuxFromPins c tx rx }
          response := some ⟨.ok, (resolveMuxFromPins c tx rx).setWidth 16⟩ })) ∧
    (∀ idx : Byte,
      Encodes (commandWord 0x0B#8 p (0#8 ++ idx) 0#32) (.swap p idx) ∧
      (idx.toNat < c.rows.length ∨ idx = 0x80#8 →
        exec (.swap p idx) s = .next { s with
          ports := s.ports.set p.toNat { u with pgi := idx }
          response := some ⟨.ok, idx.setWidth 16⟩ }) ∧
      (c.rows.length ≤ idx.toNat → idx ≠ 0x80#8 →
        exec (.swap p idx) s = .next { s with response := some ⟨.fail, 0#16⟩ }))

/-- 41_transfer_state_machine.md R163: BEGIN on a port that is not begun, with a rate the divisor represents, writes the
registers, the binding and the instance bits of `Configure`, and nothing else. Basis: the write order is decision D17, the
register layout D13. -/
def Obligations.BeginConfiguresPort : Prop :=
  ∀ (s : State) (p : Byte) (baud : Long) (cfg : Half) (c : PortParams) (u : Port) (d : BaudSetting),
    s.lookup p.toNat = some (c, u) → u.begun = false → baudDivisor s.params baud.toNat = some d →
    (u.pgi = 0x80#8 →
      exec (.beginPort p baud cfg) s = .next { s with
        ports := s.ports.set p.toNat { u with
          uart := { u.uart with
            baud := d.reg
            ctrlc := (decodeConfig cfg).frameFormat
            ctrla := (decodeConfig cfg).ctrlA
            ctrlb := (decodeConfig cfg).ctrlB ||| (if d.clk2x then 0x02#8 else 0x00#8) }
          written := false
          hd := (decodeConfig cfg).isHD
          begun := true }
        route := maskedRoute s.params.routeWidth s.route c.groupMask c.muxNoneCode
        response := some ⟨.ok, 0#16⟩ }) ∧
    (∀ r : Row, u.pgi ≠ 0x80#8 → c.rows[u.pgi.toNat]? = some r →
      exec (.beginPort p baud cfg) s = .next { s.applyPinConfiguration c r (enableMask cfg) with
        ports := s.ports.set p.toNat { u with
          uart := { u.uart with
            baud := d.reg
            ctrlc := (decodeConfig cfg).frameFormat
            ctrla := (decodeConfig cfg).ctrlA
            ctrlb := (decodeConfig cfg).ctrlB ||| (if d.clk2x then 0x02#8 else 0x00#8) }
          written := false
          hd := (decodeConfig cfg).isHD
          begun := true }
        response := some ⟨.ok, 0#16⟩ })

/-- R164: BEGIN with a rate the divisor does not represent answers `(FAIL, 0)`; on a port that is not begun nothing
changes, on a begun port whose flush is done the implicit `end()` has run and the port is left Disabled with its binding.
Basis: decision D17. -/
def Obligations.BeginFailsOnInvalidBaud : Prop :=
  ∀ (s : State) (p : Byte) (baud : Long) (cfg : Half) (c : PortParams) (u : Port),
    s.lookup p.toNat = some (c, u) → baudDivisor s.params baud.toNat = none →
    (u.begun = false → exec (.beginPort p baud cfg) s = .next { s with response := some ⟨.fail, 0#16⟩ }) ∧
    (u.begun = true → (u.written = false ∨ (u.uart.ctrla.getLsbD 5 = false ∧ u.uart.txcif = true)) →
      exec (.beginPort p baud cfg) s = .next { s with
        ports := s.ports.set p.toNat { u with
          uart := { u.uart with ctrla := 0x00#8, ctrlb := 0x00#8, txcif := false, rxFifo := [] }
          rxb := { u.rxb with tail := u.rxb.head }
          written := false
          hd := false
          begun := false }
        response := some ⟨.fail, 0#16⟩ })

/-- R165: BEGIN on a begun port behaves as END followed by BEGIN: it blocks exactly when END blocks, each spin that does not
complete does what END's does, and when the flush is done, at once or in a spin, it does what BEGIN does after that END. -/
def Obligations.BeginRestartsLikeEndThenBegin : Prop :=
  ∀ (s : State) (p : Byte) (baud : Long) (cfg : Half) (c : PortParams) (u : Port),
    s.lookup p.toNat = some (c, u) → u.begun = true →
    ((u.written = false ∨ (u.uart.ctrla.getLsbD 5 = false ∧ u.uart.txcif = true)) →
      ∃ t, exec (.endPort p) s = .next t ∧ exec (.beginPort p baud cfg) s = exec (.beginPort p baud cfg) t) ∧
    (u.written = true → ¬ (u.uart.ctrla.getLsbD 5 = false ∧ u.uart.txcif = true) →
      exec (.endPort p) s = .next { s with seq := .flushWait p.toNat .thenEnd, response := none } ∧
      exec (.beginPort p baud cfg) s =
        .next { s with seq := .flushWait p.toNat (.thenEndBegin baud cfg), response := none }) ∧
    (u.uart.ctrla.getLsbD 5 = false → u.uart.txcif = true →
      ∃ t, spin { s with seq := .flushWait p.toNat .thenEnd } = .next t ∧
        spin { s with seq := .flushWait p.toNat (.thenEndBegin baud cfg) } = exec (.beginPort p baud cfg) t) ∧
    (¬ (u.uart.ctrla.getLsbD 5 = false ∧ u.uart.txcif = true) →
      ∃ t, spin { s with seq := .flushWait p.toNat .thenEnd } = .next t ∧ t.seq = .flushWait p.toNat .thenEnd ∧
        spin { s with seq := .flushWait p.toNat (.thenEndBegin baud cfg) } =
          .next { t with seq := .flushWait p.toNat (.thenEndBegin baud cfg) })

/-- R166, fast path: with the transmit buffer and the data register empty, WRITE arms half duplex, clears TXCIF, loads the
byte `v[7:0]` and answers `(OK, 1)`; the buffer is untouched. Basis: TXCIF and the arming on the fast path are decision
D19, the answer 1 is D22. -/
def Obligations.WriteFastPath : Prop :=
  ∀ (s : State) (p : Byte) (v : Long) (c : PortParams) (u : Port),
    s.lookup p.toNat = some (c, u) → u.begun = true → u.uart.ctrlb.getLsbD 6 = true →
    u.uart.ctrla &&& 0x14#8 = 0#8 → u.txb.head = u.txb.tail → u.uart.txHold = none →
    Encodes (commandWord 0x07#8 p 0#16 v) (.write p v) ∧
    exec (.write p v) s = .next { s with
      ports := s.ports.set p.toNat { u with
        written := true
        uart := { u.uart with
          ctrla := if u.hd then (u.uart.ctrla &&& 0x7F#8) ||| 0x40#8 else u.uart.ctrla
          txcif := false
          txHold := some (v.setWidth 8) }
        txLog := u.txLog ++ [v.setWidth 8] }
      response := some ⟨.ok, 1#16⟩ }

/-- R166, R167, slow path: with bytes buffered or the data register full, and a slot free, WRITE pushes the byte, arms
half duplex, enables DRE and answers `(OK, 1)`. Basis: the order of arming is decision D35, the answer 1 is D22. -/
def Obligations.WritePushesOntoBuffer : Prop :=
  ∀ (s : State) (p : Byte) (v : Long) (c : PortParams) (u : Port),
    s.lookup p.toNat = some (c, u) → u.begun = true → u.uart.ctrlb.getLsbD 6 = true →
    u.uart.ctrla &&& 0x14#8 = 0#8 → LegalCap s.params.txCap → u.txb.Wf s.params.txCap →
    ¬ (u.txb.head = u.txb.tail ∧ u.uart.txHold = none) → (u.txb.head + 1) % s.params.txCap ≠ u.txb.tail →
    exec (.write p v) s = .next { s with
      ports := s.ports.set p.toNat { u with
        written := true
        txb := ⟨(u.txb.head + 1) % s.params.txCap, u.txb.tail, Memory.write u.txb.data u.txb.head (v.setWidth 8)⟩
        uart := { u.uart with
          ctrla := (if u.hd then (u.uart.ctrla &&& 0x7F#8) ||| 0x40#8 else u.uart.ctrla) ||| 0x20#8 } }
      seq := .ready
      response := some ⟨.ok, 1#16⟩ }

/-- R167, R170: on a full buffer WRITE blocks, and when it must poll and DREIF is 1 it drains one byte itself; a blocked
WRITE spins the same way, and pushes its byte in the first iteration that finds a free slot. Basis: the steps of a spin
are decision D3, what a poll tests is D21. -/
def Obligations.FullBufferBlocksWrite : Prop :=
  (∀ (s : State) (p : Byte) (v : Long) (c : PortParams) (u : Port),
    s.lookup p.toNat = some (c, u) → u.begun = true → u.uart.ctrlb.getLsbD 6 = true →
    LegalCap s.params.txCap → u.txb.Wf s.params.txCap → (u.txb.head + 1) % s.params.txCap = u.txb.tail →
    exec (.write p v) s = .next { s with
      ports := s.ports.set p.toNat
        (if (s.gie = false ∨ s.iexec = true) ∧ u.uart.txHold = none then
          { u with
            written := true
            txb := ⟨u.txb.head, (u.txb.tail + 1) % s.params.txCap, u.txb.data⟩
            uart := { u.uart with txcif := false, txHold := some (Memory.read u.txb.data u.txb.tail) }
            txLog := u.txLog ++ [Memory.read u.txb.data u.txb.tail] }
         else { u with written := true })
      seq := .writeWait p.toNat (v.setWidth 8)
      response := none }) ∧
  (∀ (s : State) (p : Nat) (b : Byte) (c : PortParams) (u : Port),
    s.seq = .writeWait p b → s.lookup p = some (c, u) → u.uart.ctrla &&& 0x14#8 = 0#8 →
    LegalCap s.params.txCap → u.txb.Wf s.params.txCap →
    ((u.txb.head + 1) % s.params.txCap = u.txb.tail →
      spin s = .next { s with
        ports := s.ports.set p
          (if (s.gie = false ∨ s.iexec = true) ∧ u.uart.txHold = none then
            { u with
              txb := ⟨u.txb.head, (u.txb.tail + 1) % s.params.txCap, u.txb.data⟩
              uart := { u.uart with txcif := false, txHold := some (Memory.read u.txb.data u.txb.tail) }
              txLog := u.txLog ++ [Memory.read u.txb.data u.txb.tail] }
           else u)
        response := none }) ∧
    ((u.txb.head + 1) % s.params.txCap ≠ u.txb.tail →
      spin s = .next { s with
        ports := s.ports.set p { u with
          txb := ⟨(u.txb.head + 1) % s.params.txCap, u.txb.tail, Memory.write u.txb.data u.txb.head b⟩
          uart := { u.uart with
            ctrla := (if u.hd then (u.uart.ctrla &&& 0x7F#8) ||| 0x40#8 else u.uart.ctrla) ||| 0x20#8 } }
        seq := .ready
        response := some ⟨.ok, 1#16⟩ }))

/-- 93_implementation_defined.md U1, U2: a WRITE that R166 does not define is refused, or, in the total machine, answers
`(FAIL, 0)` with no change on a port that is not begun, and runs R166's rule when the transmitter is off: the byte goes to
TXHOLD, or onto the buffer, or the command blocks. While the transmitter is off and TXSHIFT is empty, LineLoad and
LineShiftDone change nothing and LineRx leaves TXHOLD as it is. Basis: the two machines are the spec's treatments of what
the source calls undefined, and which one a machine has is log 9; that a line turn which is not enabled, or not of the
machine's view, changes nothing is logs 3 and 13. -/
def Obligations.MisusedWriteRefusedOrTotal : Prop :=
  (∀ (s : State) (p : Byte) (v : Long) (c : PortParams) (u : Port), s.lookup p.toNat = some (c, u) →
    (u.begun = false → s.params.misuse = .refuse → exec (.write p v) s = .refused .writeNotBegun) ∧
    (u.begun = false → s.params.misuse = .total →
      exec (.write p v) s = .next { s with response := some ⟨.fail, 0#16⟩ }) ∧
    (u.begun = true → u.uart.ctrlb.getLsbD 6 = false → s.params.misuse = .refuse →
      exec (.write p v) s = .refused .writeTransmitterOff) ∧
    (u.begun = true → u.uart.ctrlb.getLsbD 6 = false → s.params.misuse = .total →
      u.uart.ctrla &&& 0x14#8 = 0#8 → LegalCap s.params.txCap → u.txb.Wf s.params.txCap →
      (u.txb.head = u.txb.tail → u.uart.txHold = none →
        exec (.write p v) s = .next { s with
          ports := s.ports.set p.toNat { u with
            written := true
            uart := { u.uart with
              ctrla := if u.hd then (u.uart.ctrla &&& 0x7F#8) ||| 0x40#8 else u.uart.ctrla
              txcif := false
              txHold := some (v.setWidth 8) }
            txLog := u.txLog ++ [v.setWidth 8] }
          response := some ⟨.ok, 1#16⟩ }) ∧
      (¬ (u.txb.head = u.txb.tail ∧ u.uart.txHold = none) → (u.txb.head + 1) % s.params.txCap ≠ u.txb.tail →
        exec (.write p v) s = .next { s with
          ports := s.ports.set p.toNat { u with
            written := true
            txb := ⟨(u.txb.head + 1) % s.params.txCap, u.txb.tail,
              Memory.write u.txb.data u.txb.head (v.setWidth 8)⟩
            uart := { u.uart with
              ctrla := (if u.hd then (u.uart.ctrla &&& 0x7F#8) ||| 0x40#8 else u.uart.ctrla) ||| 0x20#8 } }
          seq := .ready
          response := some ⟨.ok, 1#16⟩ }) ∧
      ((u.txb.head + 1) % s.params.txCap = u.txb.tail →
        exec (.write p v) s = .next { s with
          ports := s.ports.set p.toNat
            (if (s.gie = false ∨ s.iexec = true) ∧ u.uart.txHold = none then
              { u with
                written := true
                txb := ⟨u.txb.head, (u.txb.tail + 1) % s.params.txCap, u.txb.data⟩
                uart := { u.uart with txcif := false, txHold := some (Memory.read u.txb.data u.txb.tail) }
                txLog := u.txLog ++ [Memory.read u.txb.data u.txb.tail] }
             else { u with written := true })
          seq := .writeWait p.toNat (v.setWidth 8)
          response := none }))) ∧
  (∀ (s : State) (p : Nat) (c : PortParams) (u : Port), s.lookup p = some (c, u) →
    u.uart.ctrlb.getLsbD 6 = false → u.uart.txShift = none →
    runEvent (.lineLoad p) s = .next s ∧ runEvent (.lineShiftDone p) s = .next s ∧
    (∀ (b : Byte) (perr ferr : Bool), ∃ t u', runEvent (.lineRx p b perr ferr) s = .next t ∧
      t.lookup p = some (c, u') ∧ u'.uart.txHold = u.uart.txHold))

/-- R172: FLUSH answers at once when nothing was written or `FlushDone` holds, and otherwise blocks; it writes nothing
itself. Basis: "nothing has ever been written" is read by 90_conflicts.md C8. -/
def Obligations.FlushCompletesOrWaits : Prop :=
  ∀ (s : State) (p : Byte) (c : PortParams) (u : Port), s.lookup p.toNat = some (c, u) →
    Encodes (commandWord 0x08#8 p 0#16 0#32) (.flush p) ∧
    ((u.written = false ∨ (u.uart.ctrla.getLsbD 5 = false ∧ u.uart.txcif = true)) →
      exec (.flush p) s = .next { s with response := some ⟨.ok, 0#16⟩ }) ∧
    (u.written = true → ¬ (u.uart.ctrla.getLsbD 5 = false ∧ u.uart.txcif = true) →
      exec (.flush p) s = .next { s with seq := .flushWait p.toNat .done, response := none })

/-- R176, R177: END blocks exactly when FLUSH would, and otherwise runs `Shutdown`: control registers, TXCIF, RXFIFO and
instance bits cleared, unread bytes discarded by moving the read cursor, everything else kept. Basis: what Shutdown writes
beyond the source's list is decisions D5 and D18. -/
def Obligations.EndShutsDownPort : Prop :=
  ∀ (s : State) (p : Byte) (c : PortParams) (u : Port), s.lookup p.toNat = some (c, u) →
    Encodes (commandWord 0x02#8 p 0#16 0#32) (.endPort p) ∧
    ((u.written = false ∨ (u.uart.ctrla.getLsbD 5 = false ∧ u.uart.txcif = true)) →
      exec (.endPort p) s = .next { s with
        ports := s.ports.set p.toNat { u with
          uart := { u.uart with ctrla := 0x00#8, ctrlb := 0x00#8, txcif := false, rxFifo := [] }
          rxb := { u.rxb with tail := u.rxb.head }
          written := false
          hd := false
          begun := false }
        response := some ⟨.ok, 0#16⟩ }) ∧
    (u.written = true → ¬ (u.uart.ctrla.getLsbD 5 = false ∧ u.uart.txcif = true) →
      exec (.endPort p) s = .next { s with seq := .flushWait p.toNat .thenEnd, response := none })

/-- R178: a second END leaves the state as the first did, whether that one completed at once or at the end of a spin; and
after a successful BEGIN on an ended port and an END, AVAIL answers 0 and AVAILW capacity - 1. -/
def Obligations.EndIsIdempotent : Prop :=
  (∀ (s t : State) (p : Byte) (c : PortParams) (u : Port), s.lookup p.toNat = some (c, u) →
    (u.written = false ∨ (u.uart.ctrla.getLsbD 5 = false ∧ u.uart.txcif = true)) →
    exec (.endPort p) s = .next t → exec (.endPort p) t = .next t) ∧
  (∀ (s t : State) (p : Byte), s.seq = .flushWait p.toNat .thenEnd → spin s = .next t → t.seq = .ready →
    exec (.endPort p) t = .next t) ∧
  (∀ (s t : State) (p : Byte) (baud : Long) (cfg : Half) (c : PortParams) (u : Port),
    s.lookup p.toNat = some (c, u) → u.begun = false → LegalCap s.params.rxCap → LegalCap s.params.txCap →
    u.rxb.Wf s.params.rxCap → u.txb.Wf s.params.txCap → u.txb.head = u.txb.tail →
    exec (.beginPort p baud cfg) s = .next t → t.response = some ⟨.ok, 0#16⟩ →
    ∃ t', exec (.endPort p) t = .next t' ∧ t'.response = some ⟨.ok, 0#16⟩ ∧
      exec (.avail p) t' = .next { t' with response := some ⟨.ok, 0#16⟩ } ∧
      exec (.availw p) t' = .next { t' with response := some ⟨.ok, BitVec.ofNat 16 (s.params.txCap - 1)⟩ })

/-- R172, R173: one iteration of a blocked flush: it continues when `FlushDone` holds; otherwise it only polls, one
`DreStep`, when it must and DREIF is 1. Basis: what a poll tests is decision D21. -/
def Obligations.FlushSpinIteration : Prop :=
  ∀ (s : State) (p : Nat) (k : Machine.Cont) (c : PortParams) (u : Port),
    s.seq = .flushWait p k → s.lookup p = some (c, u) →
    (u.uart.ctrla.getLsbD 5 = false → u.uart.txcif = true →
      spin s = match k with
        | .done => .next { s with seq := .ready, response := some ⟨.ok, 0#16⟩ }
        | .thenEnd => .next { s with
            ports := s.ports.set p u.shutdown, seq := .ready, response := some ⟨.ok, 0#16⟩ }
        | .thenEndBegin baud cfg => configure { s with seq := .ready } p baud cfg c u.shutdown) ∧
    (¬ (u.uart.ctrla.getLsbD 5 = false ∧ u.uart.txcif = true) →
      ¬ ((s.gie = false ∨ s.iexec = true) ∧ u.uart.txHold = none) → spin s = .next s) ∧
    (¬ (u.uart.ctrla.getLsbD 5 = false ∧ u.uart.txcif = true) →
      (s.gie = false ∨ s.iexec = true) → u.uart.txHold = none →
      u.uart.ctrla &&& 0x14#8 = 0#8 → LegalCap s.params.txCap → u.txb.Wf s.params.txCap →
      spin s = .next { s with
        ports := s.ports.set p
          (if u.txb.head = u.txb.tail then { u with uart := { u.uart with ctrla := u.uart.ctrla &&& 0xDF#8 } }
           else { u with
            txb := ⟨u.txb.head, (u.txb.tail + 1) % s.params.txCap, u.txb.data⟩
            uart := { u.uart with txcif := false, txHold := some (Memory.read u.txb.data u.txb.tail) }
            txLog := u.txLog ++ [Memory.read u.txb.data u.txb.tail] }) })

/-- 60_exceptions.md R264: an RXC activation reads one entry; a parity error or a full buffer drops the byte, otherwise it is
pushed; a framing error changes nothing. Basis: that the handler runs whenever it is dispatchable, whatever DRE or TXC is
pending, is R261 and R263, decision D25. -/
def Obligations.RxcHandlerStoresByte : Prop :=
  ∀ (s : State) (p : BitVec 6) (c : PortParams) (u : Port) (e : RxEntry) (rest : List RxEntry),
    s.lookup p.toNat = some (c, u) → s.gie = true → s.iexec = false →
    u.uart.ctrla.getLsbD 7 = true → u.uart.rxFifo = e :: rest → LegalCap s.params.rxCap →
    (e.perr = true ∨ (u.rxb.head + 1) % s.params.rxCap = u.rxb.tail →
      exec (.rxc p) s = .next { s with
        ports := s.ports.set p.toNat { u with uart := { u.uart with rxFifo := rest } } }) ∧
    (e.perr = false → (u.rxb.head + 1) % s.params.rxCap ≠ u.rxb.tail →
      exec (.rxc p) s = .next { s with
        ports := s.ports.set p.toNat { u with
          uart := { u.uart with rxFifo := rest }
          rxb := ⟨(u.rxb.head + 1) % s.params.rxCap, u.rxb.tail, Memory.write u.rxb.data u.rxb.head e.byte⟩ } })

/-- R265, 41_transfer_state_machine.md R169: a DRE activation moves one byte to TXDATA with TXCIF cleared, DREIE kept; one
that finds the buffer empty clears DREIE. Basis: the dispatch condition is decision D25. -/
def Obligations.DreHandlerDrainsOneByte : Prop :=
  ∀ (s : State) (p : BitVec 6) (c : PortParams) (u : Port),
    s.lookup p.toNat = some (c, u) → s.gie = true → s.iexec = false →
    u.uart.ctrla.getLsbD 5 = true → u.uart.txHold = none →
    ¬ (u.uart.ctrla.getLsbD 7 = true ∧ u.uart.rxFifo ≠ []) →
    u.uart.ctrla &&& 0x14#8 = 0#8 → LegalCap s.params.txCap →
    (u.txb.head = u.txb.tail →
      exec (.dre p) s = .next { s with
        ports := s.ports.set p.toNat { u with uart := { u.uart with ctrla := u.uart.ctrla &&& 0xDF#8 } } }) ∧
    (u.txb.head ≠ u.txb.tail →
      exec (.dre p) s = .next { s with
        ports := s.ports.set p.toNat { u with
          txb := ⟨u.txb.head, (u.txb.tail + 1) % s.params.txCap, u.txb.data⟩
          uart := { u.uart with txcif := false, txHold := some (Memory.read u.txb.data u.txb.tail) }
          txLog := u.txLog ++ [Memory.read u.txb.data u.txb.tail] } })

/-- R266: a TXC activation discards every waiting entry, sets RXCIE, clears TXCIE, and leaves TXCIF and the receive buffer
as they are. Basis: decisions D20 and D25. -/
def Obligations.TxcHandlerReturnsToReceive : Prop :=
  ∀ (s : State) (p : BitVec 6) (c : PortParams) (u : Port),
    s.lookup p.toNat = some (c, u) → s.gie = true → s.iexec = false →
    u.uart.ctrla.getLsbD 6 = true → u.uart.txcif = true →
    ¬ (u.uart.ctrla.getLsbD 7 = true ∧ u.uart.rxFifo ≠ []) →
    ¬ (u.uart.ctrla.getLsbD 5 = true ∧ u.uart.txHold = none) → u.uart.ctrla &&& 0x14#8 = 0#8 →
    exec (.txc p) s = .next { s with
      ports := s.ports.set p.toNat { u with
        uart := { u.uart with ctrla := (u.uart.ctrla ||| 0x80#8) &&& 0xBF#8, rxFifo := [] } } }

/-- R261, R263, with the model's convention for a turn that is not enabled (log 3): without GIE, inside an interrupt
context, when its source is not pending, or when a higher source of the port is, a handler does not run and nothing
changes. Basis: decision D25. -/
def Obligations.HandlersRunOnlyWhenDispatchable : Prop :=
  ∀ (s : State) (p : BitVec 6) (c : PortParams) (u : Port), s.lookup p.toNat = some (c, u) →
    let rxc := u.uart.ctrla.getLsbD 7 = true ∧ u.uart.rxFifo ≠ []
    let dre := u.uart.ctrla.getLsbD 5 = true ∧ u.uart.txHold = none
    let txc := u.uart.ctrla.getLsbD 6 = true ∧ u.uart.txcif = true
    (¬ (s.gie = true ∧ s.iexec = false ∧ rxc) → exec (.rxc p) s = .next s) ∧
    (¬ (s.gie = true ∧ s.iexec = false ∧ dre ∧ ¬ rxc) → exec (.dre p) s = .next s) ∧
    (¬ (s.gie = true ∧ s.iexec = false ∧ txc ∧ ¬ rxc ∧ ¬ dre) → exec (.txc p) s = .next s)

/-- 42_pin_binding_resolver.md R201: both sentinels give the "none" index; otherwise the first row, in ascending order, whose
transmit pin is `tx` and whose derived receive pin is `rx` or does not matter; NOT_A_MUX when no row matches. -/
def Obligations.ResolverFindsFirstRow : Prop :=
  ∀ (c : PortParams) (tx rx : Byte), c.rows.length ≤ 127 →
    let hit : Row → Prop := fun r =>
      r.txPin ≠ 0xFF#8 ∧ r.txPin = tx ∧ (rx = 0xFF#8 ∨ r.txPin.toNat + 1 = rx.toNat)
    (tx = 0xFF#8 ∧ rx = 0xFF#8 → resolveMuxFromPins c tx rx = 0x80#8) ∧
    (¬ (tx = 0xFF#8 ∧ rx = 0xFF#8) →
      (∀ (i : Nat) (r : Row), c.rows[i]? = some r → hit r →
        (∀ (j : Nat) (r' : Row), j < i → c.rows[j]? = some r' → ¬ hit r') →
        (resolveMuxFromPins c tx rx).toNat = i) ∧
      ((∀ r ∈ c.rows, ¬ hit r) → resolveMuxFromPins c tx rx = 0xFF#8))

/-- R202: the two sentinels give the "none" index whatever the table; the pair (tx, tx + 1) gives the lowest row with that
transmit pin (in a table of legal length, so that the row's index fits), and NotFound when no row has it. -/
def Obligations.ResolverAdjacentPair : Prop :=
  ∀ (c : PortParams) (tx : Byte),
    resolveMuxFromPins c 0xFF#8 0xFF#8 = 0x80#8 ∧
    (c.rows.length ≤ 127 → tx ≠ 0xFF#8 → ∀ (i : Nat) (r : Row), c.rows[i]? = some r → r.txPin = tx →
      (∀ (j : Nat) (r' : Row), j < i → c.rows[j]? = some r' → r'.txPin ≠ tx) →
      (resolveMuxFromPins c tx (tx + 1#8)).toNat = i) ∧
    ((∀ r ∈ c.rows, r.txPin ≠ tx) → resolveMuxFromPins c tx (tx + 1#8) = 0xFF#8)

/-- R207, 70_reset_and_hazards.md R322: the gated write changes only the bits of the group mask, to those of the code, and
two writes under disjoint masks commute. Basis: the register is decision D32; that the writes commute is marked as derived
from R207. -/
def Obligations.RouteWriteIsGated : Prop :=
  ∀ width old mask code : Nat,
    maskedRoute width old mask code < 2 ^ width ∧
    (∀ j, j < width → (maskedRoute width old mask code).testBit j =
      if mask.testBit j then code.testBit j else old.testBit j) ∧
    (∀ mask' code', mask &&& mask' = 0 →
      maskedRoute width (maskedRoute width old mask code) mask' code' =
        maskedRoute width (maskedRoute width old mask' code') mask code)

/-- R206: `applyPinConfiguration` writes the row's code under the group mask and configures the row's pins by the truth
table, the later write winning where two pins coincide; a row with no pins touches no pin; nothing but ROUTE and PIN
changes. Basis: decisions D9, D11 and D12. -/
def Obligations.PinConfigurationTable : Prop :=
  ∀ (s : State) (c : PortParams) (r : Row) (m : Byte) (id : Nat),
    sparseWf PinCfg.unlisted s.pins = true →
    (r.txPin ≠ 0xFF#8 → r.txPin.toNat + s.params.xdirOffset ≤ 254 ∧ r.txPin.toNat + 1 ≤ 254) →
    s.applyPinConfiguration c r m = { s with
      route := maskedRoute s.params.routeWidth s.route c.groupMask r.muxCode
      pins := (s.applyPinConfiguration c r m).pins } ∧
    (s.applyPinConfiguration c r m).pin id =
      (if r.txPin = 0xFF#8 then s.pin id
       else if m.getLsbD 4 = true ∧ id = r.txPin.toNat + s.params.xdirOffset then ⟨.output, .off⟩
       else if m.getLsbD 1 = true ∧ m.getLsbD 2 = false ∧ id = r.txPin.toNat + 1 then ⟨.input, .on⟩
       else if id = r.txPin.toNat then
        (if m.getLsbD 0 = true ∧ m.getLsbD 3 = false then ⟨.output, .off⟩ else ⟨.input, .on⟩)
       else s.pin id)

/-- 43_configuration_decoder.md R221, R222, R224, R226, R227: every bit of every output of `decode`. Basis: decisions D13
and D14. -/
def Obligations.ConfigDecoderBits : Prop :=
  ∀ (cfg : Half) (i : Nat),
    ((decodeConfig cfg).frameFormat.getLsbD i = true ↔ i < 8 ∧ i ≠ 2 ∧ cfg.getLsbD i = true) ∧
    ((decodeConfig cfg).ctrlA.getLsbD i = true ↔
      (i = 7 ∧ cfg.getLsbD 11 = false) ∨ (i = 3 ∧ cfg.getLsbD 8 = true) ∨
      (i = 1 ∧ cfg.getLsbD 15 = true) ∨ (i = 0 ∧ cfg.getLsbD 14 = true)) ∧
    ((decodeConfig cfg).ctrlB.getLsbD i = true ↔
      (i = 7 ∧ cfg.getLsbD 11 = false) ∨ (i = 6 ∧ cfg.getLsbD 10 = false) ∨ (i = 3 ∧ cfg.getLsbD 9 = true)) ∧
    (decodeConfig cfg).wantsRx = !cfg.getLsbD 11 ∧
    (decodeConfig cfg).isHD = (cfg.getLsbD 8 && cfg.getLsbD 9)

/-- R229: the enable mask agrees with `decode`, its RS485 bit says whether the selector is not 0, and its bits 7:5 are 0.
Basis: R229 is marked as derived from R120 and R221. -/
def Obligations.EnableMaskAgreesWithDecode : Prop :=
  ∀ cfg : Half,
    (enableMask cfg).getLsbD 0 = (decodeConfig cfg).ctrlB.getLsbD 6 ∧
    (enableMask cfg).getLsbD 1 = (decodeConfig cfg).ctrlB.getLsbD 7 ∧
    (enableMask cfg).getLsbD 2 = (decodeConfig cfg).ctrlA.getLsbD 3 ∧
    (enableMask cfg).getLsbD 3 = (decodeConfig cfg).ctrlB.getLsbD 3 ∧
    (enableMask cfg).getLsbD 4 = (cfg.getLsbD 15 || cfg.getLsbD 14) ∧
    ∀ i, 5 ≤ i → (enableMask cfg).getLsbD i = false

/-- R231 (b): every choice of `BaudDivisor` has a bound, a function of the clock alone, above which a valid rate uses 2x
mode and up to which it does not. Basis: decision D16; the free divisor is log 10. -/
def Obligations.DoubleSpeedAboveBound : Prop :=
  ∀ k : Divisor, ∃ bound : Nat → Nat, ∀ (c : Params) (baud : Nat) (d : BaudSetting),
    c.divisor = k → baudDivisor c baud = some d → (d.clk2x = true ↔ bound c.fClk < baud)

/-- R232: a valid default divisor is at least 64 and is 4 f / baud at normal speed, 8 f / baud at double speed, rounded to
nearest without wrapping; double speed is used only where the normal-speed value is below 64; and a rate is invalid exactly
when it is 0, when its normal-speed value exceeds 65535, or when both values are below 64. Basis: R232 is general
knowledge, not in source (G3). -/
def Obligations.DefaultDivisorRoundsToNearest : Prop :=
  ∀ f baud : Nat,
    (∀ d : BaudSetting, standardDivisor f baud = some d →
      64 ≤ d.reg.toNat ∧
      d.reg.toNat * baud ≤ (if d.clk2x then 8 * f else 4 * f) + baud / 2 ∧
      (if d.clk2x then 8 * f else 4 * f) + baud / 2 < (d.reg.toNat + 1) * baud ∧
      (d.clk2x = true → 4 * f + baud / 2 < 64 * baud)) ∧
    (standardDivisor f baud = none ↔
      baud = 0 ∨ 65535 < (4 * f + baud / 2) / baud ∨
      ((4 * f + baud / 2) / baud < 64 ∧ (8 * f + baud / 2) / baud < 64))

/-- 60_exceptions.md R281 to R284: what the line steps of the reference peripheral do, and that a step that is not enabled
changes nothing (log 3). Basis: decision D27; log 3 is the model's choice. -/
def Obligations.LineStepsOfReferencePeripheral : Prop :=
  ∀ (s : State) (p : Nat) (c : PortParams) (u : Port),
    s.params.line = .reference → s.lookup p = some (c, u) →
    (∀ b, u.uart.ctrlb.getLsbD 6 = true → u.uart.txShift = none → u.uart.txHold = some b →
      runEvent (.lineLoad p) s = .next { s with
        ports := s.ports.set p { u with uart := { u.uart with txShift := some b, txHold := none } } }) ∧
    (¬ (u.uart.ctrlb.getLsbD 6 = true ∧ u.uart.txShift = none ∧ u.uart.txHold ≠ none) →
      runEvent (.lineLoad p) s = .next s) ∧
    (∀ b, u.uart.txShift = some b →
      runEvent (.lineShiftDone p) s = .next { s with
        ports := s.ports.set p { u with
          lineOut := u.lineOut ++ [b]
          uart := { u.uart with
            rxFifo :=
              if (u.uart.ctrla.getLsbD 3 = true ∧ u.uart.ctrlb.getLsbD 7 = true) ∧
                  u.uart.rxFifo.length < s.params.rxFifoDepth then u.uart.rxFifo ++ [⟨b, false, false⟩]
              else u.uart.rxFifo
            txShift := u.uart.txHold
            txHold := none
            txcif := if u.uart.txHold = none then true else u.uart.txcif } } }) ∧
    (u.uart.txShift = none → runEvent (.lineShiftDone p) s = .next s) ∧
    (∀ (b : Byte) (perr ferr : Bool),
      runEvent (.lineRx p b perr ferr) s =
        if u.uart.ctrlb.getLsbD 7 = true ∧ u.uart.rxFifo.length < s.params.rxFifoDepth then
          .next { s with
            ports := s.ports.set p { u with uart := { u.uart with rxFifo := u.uart.rxFifo ++ [⟨b, perr, ferr⟩] } } }
        else .next s)

/-- R286: in the boundary view the environment may, at any step, set DREIF, set TXCIF, or append an entry to RXFIFO, however
many it holds; the line steps of the reference model do nothing there, and the environment's steps do nothing in the
reference view. Basis: decision D27; that each view has its own steps only is log 13. -/
def Obligations.BoundaryEnvironmentSteps : Prop :=
  (∀ (s : State) (p : Nat) (c : PortParams) (u : Port),
    s.params.line = .boundary → s.lookup p = some (c, u) →
    runEvent (.envDataEmpty p) s = .next { s with
      ports := s.ports.set p { u with uart := { u.uart with txHold := none } } } ∧
    runEvent (.envTransmitComplete p) s = .next { s with
      ports := s.ports.set p { u with uart := { u.uart with txcif := true } } } ∧
    (∀ (b : Byte) (perr ferr : Bool),
      runEvent (.envReceive p b perr ferr) s = .next { s with
        ports := s.ports.set p { u with uart := { u.uart with rxFifo := u.uart.rxFifo ++ [⟨b, perr, ferr⟩] } } })) ∧
  (∀ (s : State) (p : Nat), s.params.line = .boundary →
    runEvent (.lineLoad p) s = .next s ∧ runEvent (.lineShiftDone p) s = .next s ∧
    ∀ (b : Byte) (perr ferr : Bool), runEvent (.lineRx p b perr ferr) s = .next s) ∧
  (∀ (s : State) (p : Nat), s.params.line = .reference →
    runEvent (.envDataEmpty p) s = .next s ∧ runEvent (.envTransmitComplete p) s = .next s ∧
    ∀ (b : Byte) (perr ferr : Bool), runEvent (.envReceive p b perr ferr) s = .next s)

/-- 10_state.md R50, 70_reset_and_hazards.md R301: what reset leaves, in every configuration and in the machine's own, for
every value the spec gives; that the machine's own configuration has two ports is the model's choice of CFG-T, log 1.
Basis: decisions D24, D26 and D28, and log 1. -/
def Obligations.ResetValues : Prop :=
  (∀ c : Params, (State.resetWith c).IsReset ∧ (State.resetWith c).params = c ∧
    ∀ u ∈ (State.resetWith c).ports, u.xferState = .disabled) ∧
  State.reset.IsReset ∧ State.reset.params.nports = 2

/-- The invariants below hold after reset in every legal configuration, and in the machine's own. Basis: R51 is marked as
derived; the invariant is the model's, the reset values it names are logs 1 and 5 to 9. -/
def Obligations.ResetMeetsInvariants : Prop :=
  (∀ c : Params, c.Wf →
    (State.resetWith c).Inv ∧ (State.resetWith c).LineInv ∧ (State.resetWith c).memoryWf = true) ∧
  State.reset.Inv ∧ State.reset.LineInv ∧ State.reset.memoryWf = true

/-- 10_state.md R51 items 1 to 5, R21, R25, R31 to R33, R43: every step keeps the invariant `State.Inv`. Basis: R51 is
marked as derived; fields `armed`, `fifo` and `reserved` of the invariant are the model's. -/
def Obligations.StepKeepsStateInvariant : Prop :=
  ∀ s t : State, s.Inv → step s = .next t → t.Inv

/-- R51 item 8, R44, 41_transfer_state_machine.md R174, 70_reset_and_hazards.md R339: with the reference peripheral every
step keeps the invariant `State.LineInv`. Basis: R51, R174 and R339 are marked as derived, the peripheral is decision D27.
-/
def Obligations.StepKeepsLineInvariant : Prop :=
  ∀ s t : State, s.Inv → s.LineInv → s.params.line = .reference → step s = .next t → t.LineInv

/-- Every step keeps every byte array and PIN in canonical form, so that equal contents are equal data. Basis: the
canonical form is the model's, logs 7 and 8. -/
def Obligations.StepKeepsCanonicalMemory : Prop :=
  ∀ s t : State, s.memoryWf = true → step s = .next t → t.memoryWf = true

/-- 60_exceptions.md R250, 20_memory.md R74: no step from a state of the invariant faults; a refusal is only a WRITE issued,
in the refusing machine, on a port that is not begun or whose transmitter is off; and the total machine always has a next
state. Basis: the faults are the model's, log 14, the treatment of a misused WRITE log 9, and that a turn which is not
enabled answers a next state is log 3. -/
def Obligations.StepNeverFaults : Prop :=
  ∀ s : State, s.Inv →
    (∀ f, step s ≠ .fault f) ∧
    (s.params.misuse = .total → ∃ t, step s = .next t) ∧
    (∀ r, step s = .refused r → s.params.misuse = .refuse ∧
      ∃ p v c u, s.issues (.write p v) ∧ s.lookup p.toNat = some (c, u) ∧
        (u.begun = false ∨ u.uart.ctrlb.getLsbD 6 = false))

/-- 20_memory.md R91, 41_transfer_state_machine.md R171: the bytes of a port that are sent or buffered only ever grow, by
the byte of the WRITE on that port that the step issues or unblocks. Basis: R171 is marked as derived from R166, R167 and
R169. -/
def Obligations.TransmitOrderIsWriteOrder : Prop :=
  ∀ s t : State, s.Inv → step s = .next t → ∀ (p : Nat) (u u' : Port),
    s.ports[p]? = some u → t.ports[p]? = some u' →
    u'.accepted s.params.txCap = u.accepted s.params.txCap ∨
    ∃ b, u'.accepted s.params.txCap = u.accepted s.params.txCap ++ [b] ∧ s.nextEvent = .host ∧
      (s.seq = .writeWait p b ∨ ∃ q v, s.issues (.write q v) ∧ q.toNat = p ∧ v.setWidth 8 = b)

/-- 41_transfer_state_machine.md R182: on a half-duplex port a byte leaves the wire only while RXCIE is 0; a step that
sets RXCIE leaves RXFIFO empty; and no byte enters the receive buffer while RXCIE is 0. Basis: R182 is marked as derived,
with decisions D25 and D27. -/
def Obligations.EchoNeverReachesReceiveBuffer : Prop :=
  ∀ s t : State, s.Inv → s.LineInv → s.params.line = .reference → step s = .next t →
    ∀ (p : Nat) (u u' : Port), s.ports[p]? = some u → t.ports[p]? = some u' →
      (u.hd = true → u'.lineOut ≠ u.lineOut →
        u.uart.ctrla.getLsbD 7 = false ∧ u'.uart.ctrla.getLsbD 7 = false) ∧
      (u.uart.ctrla.getLsbD 7 = false → u'.uart.ctrla.getLsbD 7 = true → u'.uart.rxFifo = []) ∧
      (u.uart.ctrla.getLsbD 7 = false → u'.rxb.head = u.rxb.head ∧ u'.rxb.data = u.rxb.data)

/-- R174: at the step in which a blocked flush completes, the transmit buffer is empty, DREIE = 0, TXCIF = 1, the
peripheral is empty and every byte sent has left the pin. Basis: R174 is marked as derived, the peripheral is decision
D27. -/
def Obligations.CompletedFlushHasDrained : Prop :=
  ∀ (s t : State) (p : Nat) (k : Machine.Cont), s.Inv → s.LineInv → s.params.line = .reference →
    s.seq = .flushWait p k → step s = .next t → t.seq ≠ s.seq →
    ∃ c u, s.lookup p = some (c, u) ∧ u.txb.head = u.txb.tail ∧ u.uart.ctrla.getLsbD 5 = false ∧
      u.uart.txcif = true ∧ u.uart.txHold = none ∧ u.uart.txShift = none ∧ u.lineOut = u.txLog

/-- 70_reset_and_hazards.md R338, for a polling Host and a line that drains: a blocked FLUSH on a port with `n` bytes
buffered completes within `n + 2` rounds of the line's transmit steps and a spin, with every byte on the wire; a blocked
WRITE completes within two such rounds. Basis: decision D37 gives no bound; the schedule and the bound are the model's. -/
def Obligations.PolledWaitsTerminate : Prop :=
  ∀ (s : State) (p : Nat) (c : PortParams) (u : Port),
    s.Inv → s.LineInv → s.params.line = .reference → (s.gie = false ∨ s.iexec = true) →
    s.lookup p = some (c, u) → u.uart.ctrlb.getLsbD 6 = true →
    (∀ rest, s.seq = .flushWait p .done →
      s.inputs = (List.replicate (u.txb.available s.params.txCap + 2) (drainRound p)).flatten ++ rest →
      ∃ n t u', n ≤ 3 * (u.txb.available s.params.txCap + 2) ∧ runSteps n s = .next t ∧
        t.seq = .ready ∧ t.response = some ⟨.ok, 0#16⟩ ∧ t.ports[p]? = some u' ∧
        u'.lineOut = u.accepted s.params.txCap) ∧
    (∀ b rest, s.seq = .writeWait p b → s.inputs = (List.replicate 2 (drainRound p)).flatten ++ rest →
      ∃ n t, n ≤ 6 ∧ runSteps n s = .next t ∧ t.seq = .ready ∧ t.response = some ⟨.ok, 1#16⟩)

/-- R337, 44_system_ops.md R245: while a command is blocked no step issues a command, changes GIE or IEXEC, or rebinds a
port. Basis: R337 and R245 are marked as derived from R180. -/
def Obligations.BlockedHostIssuesNothing : Prop :=
  ∀ s t : State, s.seq ≠ .ready → step s = .next t →
    t.program = s.program ∧ t.gie = s.gie ∧ t.iexec = s.iexec ∧
    ∀ (p : Nat) (u u' : Port), s.ports[p]? = some u → t.ports[p]? = some u' → u'.pgi = u.pgi

/-- 10_state.md R21, R40, R41: `pgi` is written only by PINS and SWAP, GIE only by IRQSAVE and IRQREST, and IEXEC, seen
from outside a handler, only by ISRENTER and ISREXIT. Basis: IEXEC is decision D26. -/
def Obligations.SystemStateHasItsOwners : Prop :=
  ∀ s t : State, step s = .next t →
    (t.gie ≠ s.gie → s.issues .irqsave ∨ ∃ on, s.issues (.irqrest on)) ∧
    (t.iexec ≠ s.iexec → s.issues .isrenter ∨ s.issues .isrexit) ∧
    (∀ (p : Nat) (u u' : Port), s.ports[p]? = some u → t.ports[p]? = some u' → u'.pgi ≠ u.pgi →
      ∃ q : Byte, q.toNat = p ∧
        ((∃ tx rx, s.issues (.pins q tx rx)) ∨ ∃ idx, s.issues (.swap q idx)))

/-- R26, R28: each cursor and array has its writer, and a step writes at most the slot at the old head of a buffer. Basis:
the slots are decision D28, the steps D3. -/
def Obligations.BuffersHaveTheirOwners : Prop :=
  ∀ s t : State, s.memoryWf = true → step s = .next t → ∀ (p : Nat) (u u' : Port),
    s.ports[p]? = some u → t.ports[p]? = some u' →
    (u'.rxb.head ≠ u.rxb.head ∨ u'.rxb.data ≠ u.rxb.data →
      ∃ v, s.nextEvent = .irq v ∧ vectorSource v = some (p, .rxc)) ∧
    (∀ i, i ≠ u.rxb.head → Memory.read u'.rxb.data i = Memory.read u.rxb.data i) ∧
    (u'.rxb.tail ≠ u.rxb.tail → s.nextEvent = .host) ∧
    (u'.txb.head ≠ u.txb.head ∨ u'.txb.data ≠ u.txb.data → s.nextEvent = .host) ∧
    (∀ i, i ≠ u.txb.head → Memory.read u'.txb.data i = Memory.read u.txb.data i) ∧
    (u'.txb.tail ≠ u.txb.tail →
      (s.nextEvent = .host ∧ (s.gie = false ∨ s.iexec = true)) ∨
      ∃ v, s.nextEvent = .irq v ∧ vectorSource v = some (p, .dre))

/-- R51 items 6 and 7, 20_memory.md R90: a step writes TXDATA at most once, only when DREIF is 1, and leaves TXCIF clear.
Basis: R51 is marked as derived. -/
def Obligations.TxdataWriteClearsCompletion : Prop :=
  ∀ s t : State, step s = .next t → ∀ (p : Nat) (u u' : Port),
    s.ports[p]? = some u → t.ports[p]? = some u' → u'.txLog ≠ u.txLog →
    u.uart.txHold = none ∧ u'.uart.txcif = false ∧
    ∃ b, u'.txLog = u.txLog ++ [b] ∧ u'.uart.txHold = some b

/-- R38, R39, R52: ROUTE and PIN change only in a BEGIN that configures an existing port, issued or at the end of its
wait, and of ROUTE only the bits of that port's group mask. Basis: ROUTE is decision D32. -/
def Obligations.RoutingChangesOnlyInBegin : Prop :=
  ∀ s t : State, s.route < 2 ^ s.params.routeWidth → step s = .next t →
    t.route ≠ s.route ∨ t.pins ≠ s.pins →
    ∃ p c u, s.lookup p = some (c, u) ∧ s.nextEvent = .host ∧
      ((∃ q baud cfg, s.issues (.beginPort q baud cfg) ∧ q.toNat = p) ∨
        ∃ baud cfg, s.seq = .flushWait p (.thenEndBegin baud cfg)) ∧
      ∀ j, t.route.testBit j ≠ s.route.testBit j → c.groupMask.testBit j = true

/-- R46, R52, 60_exceptions.md R273: a step changes no parameter, and of the ports only the one its turn is about: the port
of the issued command, of the blocked command in a spin, of the handler's vector id, or of the line or environment step; a
turn that names no port changes none. A step of the line or of the environment changes only its own port, and there none of
the control registers, the buffers or the instance bits, and nothing of the shared state. Basis: the agents are decisions
D1 and D27. -/
def Obligations.StepTouchesOnePort : Prop :=
  (∀ s t : State, step s = .next t →
    t.params = s.params ∧ t.ports.length = s.ports.length ∧
    (∀ q : Nat, s.turnPort ≠ some q → t.ports[q]? = s.ports[q]?) ∧
    (s.turnPort = none → t.ports = s.ports)) ∧
  (∀ (s t : State) (e : Event), e ≠ .host → (∀ v, e ≠ .irq v) → runEvent e s = .next t →
    t = { s with ports := t.ports } ∧ t.ports.length = s.ports.length ∧
    (∀ q : Nat, e.linePort? ≠ some q → t.ports[q]? = s.ports[q]?) ∧
    ∀ (p : Nat) (u u' : Port), s.ports[p]? = some u → t.ports[p]? = some u' →
      u' = { u with
        lineOut := u'.lineOut
        uart := { u.uart with
          txHold := u'.uart.txHold, txShift := u'.uart.txShift, rxFifo := u'.uart.rxFifo, txcif := u'.uart.txcif } })
end

