-- ==== Sys2Proof/Laws/Encoding.lean ====
section
/-! SUPPORT. The fields of a command word and of a vector id, taken apart and put together (30_encoding.md R101, R125). -/

namespace Sys2Proof

theorem commandWord_getLsbD (op p : Byte) (a : Half) (l : Long) (j : Nat) :
    (commandWord op p a l).getLsbD j =
      if j < 32 then l.getLsbD j
      else if j < 48 then a.getLsbD (j - 32)
      else if j < 56 then p.getLsbD (j - 48)
      else op.getLsbD (j - 56) := by
  have e : (commandWord op p a l).getLsbD j = BitVec.getLsbD (w := 8 + 8 + 16 + 32) (op ++ p ++ a ++ l) j := rfl
  rw [e]
  simp only [BitVec.getLsbD_append]
  split
  · rfl
  · have h1 : (j - 32 < 16) = (j < 48) := by simp only [eq_iff_iff]; omega
    have h2 : (j - 32 - 16 < 8) = (j < 56) := by simp only [eq_iff_iff]; omega
    have h3 : j - 32 - 16 - 8 = j - 56 := by omega
    have h4 : j - 32 - 16 = j - 48 := by omega
    simp only [h1, h2, h3]
    simp only [h4]

@[simp] theorem opField_commandWord (op p : Byte) (a : Half) (l : Long) : opField (commandWord op p a l) = op := by
  apply BitVec.eq_of_getLsbD_eq
  intro i hi
  simp only [opField, BitVec.getLsbD_extractLsb', commandWord_getLsbD]
  simp [hi, show ¬ 56 + i < 32 by omega, show ¬ 56 + i < 48 by omega]

@[simp] theorem portField_commandWord (op p : Byte) (a : Half) (l : Long) : portField (commandWord op p a l) = p := by
  apply BitVec.eq_of_getLsbD_eq
  intro i hi
  simp only [portField, BitVec.getLsbD_extractLsb', commandWord_getLsbD]
  simp [hi, show ¬ 48 + i < 32 by omega, show 48 + i < 56 by omega]

@[simp] theorem a16Field_commandWord (op p : Byte) (a : Half) (l : Long) : a16Field (commandWord op p a l) = a := by
  apply BitVec.eq_of_getLsbD_eq
  intro i hi
  simp only [a16Field, BitVec.getLsbD_extractLsb', commandWord_getLsbD]
  simp [hi, show 32 + i < 48 by omega]

@[simp] theorem a32Field_commandWord (op p : Byte) (a : Half) (l : Long) : a32Field (commandWord op p a l) = l := by
  apply BitVec.eq_of_getLsbD_eq
  intro i hi
  simp only [a32Field, BitVec.getLsbD_extractLsb', commandWord_getLsbD]
  simp [hi]

/-- A word is its four fields. -/
theorem commandWord_fields (w : CommandWord) :
    commandWord (opField w) (portField w) (a16Field w) (a32Field w) = w := by
  apply BitVec.eq_of_getLsbD_eq
  intro i hi
  simp only [commandWord_getLsbD, opField, portField, a16Field, a32Field, BitVec.getLsbD_extractLsb']
  split
  · next h => simp [h]
  · split
    · next h => simp [show i - 32 < 16 by omega, show 32 + (i - 32) = i by omega]
    · split
      · next h => simp [show i - 48 < 8 by omega, show 48 + (i - 48) = i by omega]
      · next h => simp [show i - 56 < 8 by omega, show 56 + (i - 56) = i by omega]

theorem vectorId_getLsbD (p : BitVec 6) (k : BitVec 2) (j : Nat) :
    (vectorId p k).getLsbD j = if j < 2 then k.getLsbD j else p.getLsbD (j - 2) := by
  have e : (vectorId p k).getLsbD j = BitVec.getLsbD (w := 6 + 2) (p ++ k) j := rfl
  rw [e]
  simp only [BitVec.getLsbD_append]

@[simp] theorem vectorId_port (p : BitVec 6) (k : BitVec 2) : (vectorId p k).extractLsb' 2 6 = p := by
  apply BitVec.eq_of_getLsbD_eq
  intro i hi
  simp only [BitVec.getLsbD_extractLsb', vectorId_getLsbD]
  simp [hi, show ¬ 2 + i < 2 by omega]

@[simp] theorem vectorId_source (p : BitVec 6) (k : BitVec 2) : (vectorId p k).extractLsb' 0 2 = k := by
  apply BitVec.eq_of_getLsbD_eq
  intro i hi
  simp only [BitVec.getLsbD_extractLsb', vectorId_getLsbD]
  simp [hi]

end Sys2Proof
end

