-- ==== Sys2Proof/Laws/PerInstr.lean ====
section
/-! SUPPORT. The per-instruction family `OpcodeField`: which opcode, or which `k` of a vector id, an instruction's encoding
carries (30_encoding.md R104, R125). -/

namespace Sys2Proof.Laws.OpcodeField

open Sys2Proof

/-- The opcode of R104, or the `k` field of R125, of each instruction. -/
def code : Instr → Byte ⊕ BitVec 2
  | .beginPort _ _ _ => .inl 0x01#8
  | .endPort _ => .inl 0x02#8
  | .avail _ => .inl 0x03#8
  | .availw _ => .inl 0x04#8
  | .peek _ => .inl 0x05#8
  | .read _ => .inl 0x06#8
  | .write _ _ => .inl 0x07#8
  | .flush _ => .inl 0x08#8
  | .usable _ => .inl 0x09#8
  | .pins _ _ _ => .inl 0x0A#8
  | .swap _ _ => .inl 0x0B#8
  | .irqsave => .inl 0x10#8
  | .irqrest _ => .inl 0x11#8
  | .isrenter => .inl 0x12#8
  | .isrexit => .inl 0x13#8
  | .rxc _ => .inr 0#2
  | .dre _ => .inr 1#2
  | .txc _ => .inr 2#2

/-- The encoding of an instruction carries its code. -/
def Statement (i : Instr) : Prop :=
  match encode i with
  | .command w => code i = .inl (opField w)
  | .vector v => code i = .inr (v.extractLsb' 0 2)

theorem beginPort (p : Byte) (baud : Long) (cfg : Half) : Statement (.beginPort p baud cfg) := by simp [Statement, encode, code]
theorem endPort (p : Byte) : Statement (.endPort p) := by simp [Statement, encode, code]
theorem avail (p : Byte) : Statement (.avail p) := by simp [Statement, encode, code]
theorem availw (p : Byte) : Statement (.availw p) := by simp [Statement, encode, code]
theorem peek (p : Byte) : Statement (.peek p) := by simp [Statement, encode, code]
theorem read (p : Byte) : Statement (.read p) := by simp [Statement, encode, code]
theorem write (p : Byte) (v : Long) : Statement (.write p v) := by simp [Statement, encode, code]
theorem flush (p : Byte) : Statement (.flush p) := by simp [Statement, encode, code]
theorem usable (p : Byte) : Statement (.usable p) := by simp [Statement, encode, code]
theorem pins (p tx rx : Byte) : Statement (.pins p tx rx) := by simp [Statement, encode, code]
theorem swap (p idx : Byte) : Statement (.swap p idx) := by simp [Statement, encode, code]
theorem irqsave : Statement .irqsave := by simp [Statement, encode, code]
theorem irqrest (on : Bool) : Statement (.irqrest on) := by simp [Statement, encode, code]
theorem isrenter : Statement .isrenter := by simp [Statement, encode, code]
theorem isrexit : Statement .isrexit := by simp [Statement, encode, code]
theorem rxc (p : BitVec 6) : Statement (.rxc p) := by simp [Statement, encode, code]
theorem dre (p : BitVec 6) : Statement (.dre p) := by simp [Statement, encode, code]
theorem txc (p : BitVec 6) : Statement (.txc p) := by simp [Statement, encode, code]

end Sys2Proof.Laws.OpcodeField
end

