-- ==== Sys2Proof/Laws/Sparse.lean ====
section
/-! SUPPORT. Sparse arrays: read after write, and every write keeps the canonical form. -/

namespace Sys2Proof.Machine

variable {α : Type} [DecidableEq α] {d : α}

/-- A canonical array reads as unlisted below its first address. -/
theorem sparseRead_below {b : Nat} {l : List (Nat × α)} (h : sparseAbove d b l = true) {a : Nat} (ha : a < b) :
    sparseRead d l a = d := by
  induction l generalizing b with
  | nil => rfl
  | cons c l ih =>
    obtain ⟨k, x⟩ := c
    simp only [sparseAbove, Bool.and_eq_true, decide_eq_true_eq] at h
    have hne : a ≠ k := by omega
    simp only [sparseRead, hne, if_false]
    exact ih h.2 (by omega)

theorem sparseAbove_mono {b c : Nat} {l : List (Nat × α)} (h : sparseAbove d c l = true) (hbc : b ≤ c) :
    sparseAbove d b l = true := by
  cases l with
  | nil => rfl
  | cons e l =>
    obtain ⟨k, x⟩ := e
    simp only [sparseAbove, Bool.and_eq_true, decide_eq_true_eq] at h ⊢
    exact ⟨⟨by omega, h.1.2⟩, h.2⟩

theorem sparseAbove_write {b : Nat} {l : List (Nat × α)} (h : sparseAbove d b l = true) {a : Nat} (v : α) (ha : b ≤ a) :
    sparseAbove d b (sparseWrite d l a v) = true := by
  induction l generalizing b with
  | nil =>
    unfold sparseWrite
    split <;> simp_all [sparseAbove]
  | cons c l ih =>
    obtain ⟨k, x⟩ := c
    simp only [sparseAbove, Bool.and_eq_true, decide_eq_true_eq] at h
    obtain ⟨⟨hbk, hx⟩, hl⟩ := h
    unfold sparseWrite
    split
    · split
      · simp [sparseAbove, hbk, hx, hl]
      · next hlt hv =>
        have : a + 1 ≤ k := hlt
        simp [sparseAbove, ha, hv, this, hx, hl]
    · split
      · next heq =>
        subst heq
        split
        · exact sparseAbove_mono hl (by omega)
        · next hv => simp [sparseAbove, ha, hv, hl]
      · have hk : k + 1 ≤ a := by omega
        simp [sparseAbove, hbk, hx, ih hl hk]

/-- A write keeps the canonical form. -/
theorem sparseWf_write {l : List (Nat × α)} (h : sparseWf d l = true) (a : Nat) (v : α) :
    sparseWf d (sparseWrite d l a v) = true :=
  sparseAbove_write h v (Nat.zero_le a)

/-- Reading the address just written gives the value written; every other address reads as before. -/
theorem sparseRead_write {l : List (Nat × α)} (h : sparseWf d l = true) (a : Nat) (v : α) (i : Nat) :
    sparseRead d (sparseWrite d l a v) i = if i = a then v else sparseRead d l i := by
  suffices H : ∀ (b : Nat) (l : List (Nat × α)), sparseAbove d b l = true →
      sparseRead d (sparseWrite d l a v) i = if i = a then v else sparseRead d l i from H 0 l h
  clear h l
  intro b l h
  induction l generalizing b with
  | nil => unfold sparseWrite; split <;> simp_all [sparseRead]
  | cons c l ih =>
    obtain ⟨k, x⟩ := c
    have hall := h
    simp only [sparseAbove, Bool.and_eq_true, decide_eq_true_eq] at h
    obtain ⟨⟨hbk, hx⟩, hl⟩ := h
    unfold sparseWrite
    split
    · next hlt =>
      split
      · next hv =>
        split
        · next hi =>
          subst hi
          have hne : i ≠ k := by omega
          simp only [sparseRead, hne, if_false, hv]
          exact sparseRead_below hl (by omega)
        · rfl
      · simp only [sparseRead]
    · split
      · next heq =>
        subst heq
        split
        · next hv =>
          split
          · next hi => subst hi; rw [hv]; exact sparseRead_below hl (by omega)
          · next hi => simp [sparseRead, hi]
        · simp only [sparseRead]; split <;> rfl
      · simp only [sparseRead, ih _ hl]
        split
        · next hik =>
          have : i ≠ a := by omega
          simp [this]
        · rfl

/-- Two canonical arrays that read the same everywhere are equal: equal contents are equal data. -/
theorem sparse_ext {l l' : List (Nat × α)} (h : sparseWf d l = true) (h' : sparseWf d l' = true)
    (heq : ∀ i, sparseRead d l i = sparseRead d l' i) : l = l' := by
  suffices H : ∀ (b b' : Nat) (l l' : List (Nat × α)), sparseAbove d b l = true → sparseAbove d b' l' = true →
      (∀ i, sparseRead d l i = sparseRead d l' i) → l = l' from H 0 0 l l' h h' heq
  clear h h' heq l l'
  intro b b' l
  induction l generalizing b b' with
  | nil =>
    intro l' _ h' heq
    cases l' with
    | nil => rfl
    | cons c l' =>
      obtain ⟨k, x⟩ := c
      simp only [sparseAbove, Bool.and_eq_true, decide_eq_true_eq] at h'
      exact absurd (by simpa [sparseRead] using heq k) (Ne.symm h'.1.2)
  | cons c l ih =>
    intro l' h h' heq
    obtain ⟨k, x⟩ := c
    simp only [sparseAbove, Bool.and_eq_true, decide_eq_true_eq] at h
    cases l' with
    | nil => exact absurd (by simpa [sparseRead] using heq k) h.1.2
    | cons c' l' =>
      obtain ⟨k', x'⟩ := c'
      simp only [sparseAbove, Bool.and_eq_true, decide_eq_true_eq] at h'
      have hk : k = k' := by
        rcases Nat.lt_trichotomy k k' with hlt | heq' | hgt
        · have := heq k
          have hne : k ≠ k' := by omega
          simp only [sparseRead, if_true, hne, if_false] at this
          rw [sparseRead_below h'.2 (by omega)] at this
          exact absurd this h.1.2
        · exact heq'
        · have := heq k'
          have hne : k' ≠ k := by omega
          simp only [sparseRead, if_true, hne, if_false] at this
          rw [sparseRead_below h.2 (by omega)] at this
          exact absurd this.symm h'.1.2
      subst hk
      have hx : x = x' := by simpa [sparseRead] using heq k
      subst hx
      congr 1
      refine ih (k + 1) (k + 1) l' h.2 h'.2 fun i => ?_
      by_cases hi : i = k
      · subst hi; rw [sparseRead_below h.2 (by omega), sparseRead_below h'.2 (by omega)]
      · simpa [sparseRead, hi] using heq i

/-- Every entry of a written array is an old entry or the one written. -/
theorem mem_sparseWrite {l : List (Nat × α)} {a : Nat} {v : α} {e : Nat × α} (h : e ∈ sparseWrite d l a v) :
    e ∈ l ∨ e = (a, v) := by
  induction l with
  | nil => unfold sparseWrite at h; split at h <;> simp_all
  | cons c l ih =>
    obtain ⟨k, x⟩ := c
    unfold sparseWrite at h
    split at h
    · split at h <;> simp_all
      tauto
    · split at h
      · split at h <;> simp_all
        tauto
      · simp only [List.mem_cons] at h ⊢
        tauto

/-- `BufRead` after `BufWrite` (R73). -/
theorem Memory.read_write {m : Memory} (h : Memory.wf m = true) (a : Nat) (v : Byte) (i : Nat) :
    Memory.read (Memory.write m a v) i = if i = a then v else Memory.read m i :=
  sparseRead_write h a v i

/-- `BufWrite` keeps the canonical form. -/
theorem Memory.wf_write {m : Memory} (h : Memory.wf m = true) (a : Nat) (v : Byte) :
    Memory.wf (Memory.write m a v) = true :=
  sparseWf_write h a v

/-- `PinConfig` keeps the canonical form of PIN. -/
theorem pinConfig_wf {t : List (Nat × PinCfg)} (h : sparseWf PinCfg.unlisted t = true) (id : Nat) (dir : PinDir) (q : Pull) :
    sparseWf PinCfg.unlisted (pinConfig t id dir q) = true := by
  unfold pinConfig
  split
  · exact sparseWf_write h _ _
  · exact h

/-- What `PinConfig` does to every pin (R80). -/
theorem sparseRead_pinConfig {t : List (Nat × PinCfg)} (h : sparseWf PinCfg.unlisted t = true) (id : Nat) (dir : PinDir)
    (q : Pull) (i : Nat) :
    sparseRead PinCfg.unlisted (pinConfig t id dir q) i =
      if i = id ∧ id ≤ 254 then ⟨dir, q⟩ else sparseRead PinCfg.unlisted t i := by
  unfold pinConfig
  split
  · next hle => simp [sparseRead_write h, hle]
  · next hle => simp [hle]

/-- The reset machine's arrays are canonical. -/
theorem reset_arrays_wf (c : Params) :
    Memory.wf Ring.reset.data = true ∧ sparseWf PinCfg.unlisted (State.resetWith c).pins = true :=
  ⟨rfl, rfl⟩

end Sys2Proof.Machine
end

