-- ==== Sys2Proof/Laws/Ring.lean ====
section
/-! SUPPORT. Ring buffers under a legal capacity: masking is the remainder (40_ring_buffer.md R146), what each primitive
does, and that it keeps `Ring.Wf`. -/

namespace Sys2Proof

theorem LegalCap.two_le {cap : Nat} (h : LegalCap cap) : 2 ≤ cap := by
  obtain ⟨k, h1, -, rfl⟩ := h
  calc 2 = 2 ^ 1 := rfl
    _ ≤ 2 ^ k := Nat.pow_le_pow_right (by decide) h1

theorem LegalCap.le {cap : Nat} (h : LegalCap cap) : cap ≤ 32768 := by
  obtain ⟨k, -, h2, rfl⟩ := h
  calc 2 ^ k ≤ 2 ^ 15 := Nat.pow_le_pow_right (by decide) h2
    _ = 32768 := rfl

/-- Masking with `cap - 1` is the remainder modulo `cap` (R146). -/
theorem LegalCap.and_mask {cap : Nat} (h : LegalCap cap) (n : Nat) : n &&& (cap - 1) = n % cap := by
  obtain ⟨k, -, -, rfl⟩ := h
  exact Nat.and_two_pow_sub_one_eq_mod n k

end Sys2Proof

namespace Sys2Proof.Machine

open Sys2Proof

theorem cursorNext_eq {cap : Nat} (h : LegalCap cap) (i : Nat) : cursorNext cap i = (i + 1) % cap :=
  h.and_mask _

theorem cursorNext_lt {cap : Nat} (h : LegalCap cap) (i : Nat) : cursorNext cap i < cap := by
  rw [cursorNext_eq h]
  exact Nat.mod_lt _ (by have := h.two_le; omega)

/-- A cursor advances by one, or wraps to 0 at the end of the array. -/
theorem cursorNext_cases {cap i : Nat} (h : LegalCap cap) (hi : i < cap) :
    cursorNext cap i = if i + 1 = cap then 0 else i + 1 := by
  rw [cursorNext_eq h]
  split
  · next he => rw [he, Nat.mod_self]
  · next he => exact Nat.mod_eq_of_lt (by omega)

/-- `available` is the distance from tail to head around the array (R143). -/
theorem Ring.available_eq {cap : Nat} {b : Ring} (h : LegalCap cap) (hh : b.head < cap) (ht : b.tail < cap) :
    b.available cap = if b.tail ≤ b.head then b.head - b.tail else cap + b.head - b.tail := by
  unfold Ring.available
  rw [h.and_mask]
  split
  · next hle =>
    have : cap + b.head - b.tail = (b.head - b.tail) + cap := by omega
    rw [this, Nat.add_mod_right, Nat.mod_eq_of_lt (by omega)]
  · next hle => exact Nat.mod_eq_of_lt (by omega)

theorem Ring.available_lt {cap : Nat} (b : Ring) (h : LegalCap cap) : b.available cap < cap := by
  unfold Ring.available
  rw [h.and_mask]
  exact Nat.mod_lt _ (by have := h.two_le; omega)

theorem Ring.available_eq_zero {cap : Nat} {b : Ring} (h : LegalCap cap) (hh : b.head < cap) (ht : b.tail < cap) :
    b.available cap = 0 ↔ b.head = b.tail := by
  rw [Ring.available_eq h hh ht]
  split <;> omega

/-- `availableForWrite` is 0 exactly when `tryPush` refuses (R144). -/
theorem Ring.availableForWrite_eq_zero {cap : Nat} {b : Ring} (h : LegalCap cap) (hh : b.head < cap) (ht : b.tail < cap) :
    b.availableForWrite cap = 0 ↔ cursorNext cap b.head = b.tail := by
  have h2 := h.two_le
  unfold Ring.availableForWrite
  rw [Ring.available_eq h hh ht, cursorNext_cases h hh]
  split <;> split <;> omega

/-- Everything `tryPush` can do (R141). -/
theorem Ring.tryPush_cases (cap : Nat) (b : Ring) (v : Byte) :
    (cursorNext cap b.head = b.tail ∧ b.tryPush cap v = none) ∨
    (cursorNext cap b.head ≠ b.tail ∧
      b.tryPush cap v = some ⟨cursorNext cap b.head, b.tail, Memory.write b.data b.head v⟩) := by
  unfold Ring.tryPush
  split
  · next h => exact Or.inl ⟨h, rfl⟩
  · next h => exact Or.inr ⟨h, rfl⟩

/-- Everything `tryPop` can do (R142). -/
theorem Ring.tryPop_cases (cap : Nat) (b : Ring) :
    (b.head = b.tail ∧ b.tryPop cap = none) ∨
    (b.head ≠ b.tail ∧
      b.tryPop cap = some (Memory.read b.data b.tail, ⟨b.head, cursorNext cap b.tail, b.data⟩)) := by
  unfold Ring.tryPop
  split
  · next h => exact Or.inl ⟨h, rfl⟩
  · next h => exact Or.inr ⟨h, rfl⟩

theorem Ring.Wf.tryPush {cap : Nat} {b r : Ring} {v : Byte} (hc : LegalCap cap) (h : b.Wf cap)
    (hp : b.tryPush cap v = some r) : r.Wf cap := by
  rcases Ring.tryPush_cases cap b v with ⟨-, he⟩ | ⟨-, he⟩ <;> rw [he] at hp <;> simp at hp
  subst hp
  refine ⟨cursorNext_lt hc _, h.tail, Memory.wf_write h.data _ _, fun e he => ?_⟩
  rcases mem_sparseWrite he with hm | rfl
  · exact h.bound e hm
  · exact h.head

theorem Ring.Wf.tryPop {cap : Nat} {b r : Ring} {v : Byte} (hc : LegalCap cap) (h : b.Wf cap)
    (hp : b.tryPop cap = some (v, r)) : r.Wf cap := by
  rcases Ring.tryPop_cases cap b with ⟨-, he⟩ | ⟨-, he⟩ <;> rw [he] at hp <;> simp at hp
  obtain ⟨-, rfl⟩ := hp
  exact ⟨h.head, cursorNext_lt hc _, h.data, h.bound⟩

/-- Emptying a buffer by moving its read cursor (R177). -/
theorem Ring.Wf.discard {cap : Nat} {b : Ring} (h : b.Wf cap) : Ring.Wf cap { b with tail := b.head } :=
  ⟨h.head, h.head, h.data, h.bound⟩

end Sys2Proof.Machine
end

