-- ==== Sys2Proof/Laws/Periph.lean ====
section
/-! SUPPORT. What each shared operation on a port does to its flags, registers and buffers, said once. -/

namespace Sys2Proof.Machine

open Sys2Proof

/-- Everything `clearTxcif` does (R76). -/
theorem Port.clearTxcif_eq (u : Port) : u.clearTxcif = { u with uart := { u.uart with txcif := false } } := by
  simp [Port.clearTxcif, Port.regWrite]

/-- Everything `sendByte` does (20_memory.md R79, R90). -/
theorem Port.sendByte_eq (u : Port) (b : Byte) :
    u.sendByte b = { u with uart := { u.uart with txcif := false, txHold := some b }, txLog := u.txLog ++ [b] } := by
  simp [Port.sendByte, Port.clearTxcif_eq, Port.regWrite]

/-- Only CTRLA changes when it is written. -/
theorem Port.regWrite_ctrla_eq (u : Port) (v : Byte) :
    u.regWrite (.ctrla v) = { u with uart := { u.uart with ctrla := v &&& 0xEB#8 } } := rfl

/-- The CTRLA value after `DREIE <- 1`. -/
def dreOnValue (a : Byte) : Byte := (a ||| 0x20#8) &&& 0xEB#8
/-- The CTRLA value after `DREIE <- 0`. -/
def dreOffValue (a : Byte) : Byte := (a &&& ~~~0x20#8) &&& 0xEB#8
/-- The CTRLA value after `HdArm`. -/
def hdArmValue (a : Byte) : Byte := ((a &&& ~~~0x80#8) ||| 0x40#8) &&& 0xEB#8
/-- The CTRLA value after the TXC handler. -/
def txcValue (a : Byte) : Byte := ((a ||| 0x80#8) &&& ~~~0x40#8) &&& 0xEB#8

theorem Port.enableDre_eq (u : Port) :
    u.enableDre = { u with uart := { u.uart with ctrla := dreOnValue u.uart.ctrla } } := rfl

theorem Port.disableDre_eq (u : Port) :
    u.disableDre = { u with uart := { u.uart with ctrla := dreOffValue u.uart.ctrla } } := rfl

theorem Port.hdArm_eq (u : Port) :
    u.hdArm = { u with uart := { u.uart with ctrla := hdArmValue u.uart.ctrla } } := rfl

/-- The interrupt enables and LBME after each CTRLA update, and its reserved bits (R31, R168, R169, R266). -/
@[simp] theorem dreOnValue_bits (a : Byte) :
    (dreOnValue a).getLsbD 7 = a.getLsbD 7 ∧ (dreOnValue a).getLsbD 6 = a.getLsbD 6 ∧
    (dreOnValue a).getLsbD 5 = true ∧ (dreOnValue a).getLsbD 3 = a.getLsbD 3 ∧
    (dreOnValue a).getLsbD 1 = a.getLsbD 1 ∧ (dreOnValue a).getLsbD 0 = a.getLsbD 0 ∧
    dreOnValue a &&& 0x14#8 = 0#8 := by
  refine ⟨?_, ?_, ?_, ?_, ?_, ?_, ?_⟩ <;> simp [dreOnValue, BitVec.and_assoc]

@[simp] theorem dreOffValue_bits (a : Byte) :
    (dreOffValue a).getLsbD 7 = a.getLsbD 7 ∧ (dreOffValue a).getLsbD 6 = a.getLsbD 6 ∧
    (dreOffValue a).getLsbD 5 = false ∧ (dreOffValue a).getLsbD 3 = a.getLsbD 3 ∧
    (dreOffValue a).getLsbD 1 = a.getLsbD 1 ∧ (dreOffValue a).getLsbD 0 = a.getLsbD 0 ∧
    dreOffValue a &&& 0x14#8 = 0#8 := by
  refine ⟨?_, ?_, ?_, ?_, ?_, ?_, ?_⟩ <;> simp [dreOffValue, BitVec.and_assoc]

@[simp] theorem hdArmValue_bits (a : Byte) :
    (hdArmValue a).getLsbD 7 = false ∧ (hdArmValue a).getLsbD 6 = true ∧
    (hdArmValue a).getLsbD 5 = a.getLsbD 5 ∧ (hdArmValue a).getLsbD 3 = a.getLsbD 3 ∧
    (hdArmValue a).getLsbD 1 = a.getLsbD 1 ∧ (hdArmValue a).getLsbD 0 = a.getLsbD 0 ∧
    hdArmValue a &&& 0x14#8 = 0#8 := by
  refine ⟨?_, ?_, ?_, ?_, ?_, ?_, ?_⟩ <;> simp [hdArmValue, BitVec.and_assoc]

@[simp] theorem txcValue_bits (a : Byte) :
    (txcValue a).getLsbD 7 = true ∧ (txcValue a).getLsbD 6 = false ∧
    (txcValue a).getLsbD 5 = a.getLsbD 5 ∧ (txcValue a).getLsbD 3 = a.getLsbD 3 ∧
    (txcValue a).getLsbD 1 = a.getLsbD 1 ∧ (txcValue a).getLsbD 0 = a.getLsbD 0 ∧
    txcValue a &&& 0x14#8 = 0#8 := by
  refine ⟨?_, ?_, ?_, ?_, ?_, ?_, ?_⟩ <;> simp [txcValue, BitVec.and_assoc]

/-- Everything `armIfHalfDuplex` can do. -/
theorem Port.armIfHalfDuplex_eq (u : Port) :
    u.armIfHalfDuplex =
      { u with uart := { u.uart with ctrla := if u.hd then hdArmValue u.uart.ctrla else u.uart.ctrla } } := by
  unfold Port.armIfHalfDuplex
  by_cases h : u.hd = true
  · rw [if_pos h, if_pos h]; exact u.hdArm_eq
  · rw [if_neg h, if_neg h]

/-- Everything `DreStep` can do (R169). -/
theorem Port.dreStep_cases (cap : Nat) (u : Port) :
    (u.txb.head = u.txb.tail ∧
      u.dreStep cap = { u with uart := { u.uart with ctrla := dreOffValue u.uart.ctrla } }) ∨
    (u.txb.head ≠ u.txb.tail ∧
      u.dreStep cap =
        { u with
          txb := ⟨u.txb.head, cursorNext cap u.txb.tail, u.txb.data⟩
          uart := { u.uart with txcif := false, txHold := some (Memory.read u.txb.data u.txb.tail) }
          txLog := u.txLog ++ [Memory.read u.txb.data u.txb.tail] }) := by
  unfold Port.dreStep
  rcases Ring.tryPop_cases cap u.txb with ⟨he, hp⟩ | ⟨hne, hp⟩
  · left; rw [hp]; exact ⟨he, rfl⟩
  · right; rw [hp]; exact ⟨hne, Port.sendByte_eq _ _⟩

/-- The push of a WRITE whose buffer is not full (R167). -/
theorem Port.pushByte_eq {cap : Nat} {u : Port} (b : Byte) (h : cursorNext cap u.txb.head ≠ u.txb.tail) :
    u.pushByte cap b =
      { u with
        txb := ⟨cursorNext cap u.txb.head, u.txb.tail, Memory.write u.txb.data u.txb.head b⟩
        uart := { u.uart with
          ctrla := dreOnValue (if u.hd then hdArmValue u.uart.ctrla else u.uart.ctrla) } } := by
  have hp : u.txb.tryPush cap b =
      some ⟨cursorNext cap u.txb.head, u.txb.tail, Memory.write u.txb.data u.txb.head b⟩ := by
    rcases Ring.tryPush_cases cap u.txb b with ⟨he, -⟩ | ⟨-, hp⟩
    · exact absurd he h
    · exact hp
  simp [Port.pushByte, hp, Port.armIfHalfDuplex_eq, Port.enableDre_eq]

/-- The fast path of WRITE (R166). -/
theorem Port.fastWrite_eq (u : Port) (b : Byte) :
    u.fastWrite b =
      { u with
        uart := { u.uart with
          ctrla := if u.hd then hdArmValue u.uart.ctrla else u.uart.ctrla
          txcif := false
          txHold := some b }
        txLog := u.txLog ++ [b] } := by
  simp [Port.fastWrite, Port.armIfHalfDuplex_eq, Port.sendByte_eq]

/-- Everything `Shutdown` does (R177). -/
theorem Port.shutdown_eq (u : Port) :
    u.shutdown =
      { u with
        uart := { u.uart with ctrla := 0x00#8, ctrlb := 0x00#8, txcif := false, rxFifo := [] }
        rxb := { u.rxb with tail := u.rxb.head }
        written := false
        hd := false
        begun := false } := by
  simp [Port.shutdown, Port.clearTxcif_eq, Port.regWrite]

/-- The value CTRLB takes in `Configure` (R163, R225). -/
def ctrlBValue (d : BaudSetting) (cfg : Half) : Byte := (ctrlBOf cfg ||| byteBit d.clk2x 1) &&& 0xCE#8

/-- Everything the register part of `Configure` does (R163). -/
theorem Port.configureRegs_eq (u : Port) (d : BaudSetting) (cfg : Half) :
    u.configureRegs d cfg =
      { u with
        uart := { u.uart with
          ctrla := ctrlAOf cfg &&& 0xEB#8
          ctrlb := ctrlBValue d cfg
          ctrlc := frameFormatOf cfg &&& 0xFB#8
          baud := d.reg }
        written := false
        hd := isHalfDuplexOf cfg
        begun := true } := rfl

/-- `byteBit` has exactly one bit. -/
@[simp] theorem byteBit_getLsbD (b : Bool) (n i : Nat) (hn : n < 8) :
    (byteBit b n).getLsbD i = (b && decide (i = n)) := by
  unfold byteBit
  rw [BitVec.getLsbD_shiftLeft]
  rcases Nat.lt_trichotomy i n with h | h | h
  · simp [h, show i ≠ n by omega]
  · subst h; simp [hn]
  · have h1 : ¬ i < n := by omega
    have h2 : i ≠ n := by omega
    have h3 : i - n ≠ 0 := by omega
    simp [h1, h2, BitVec.getLsbD_setWidth, BitVec.getLsbD_ofBool, h3]

/-- `while RXCIF do RegRead(RXDATA)` empties RXFIFO and does nothing else (R266). -/
theorem Port.drainRx_eq (free : Half) (u : Port) :
    ∀ n, u.uart.rxFifo.length ≤ n → u.drainRx free n = { u with uart := { u.uart with rxFifo := [] } } := by
  intro n
  induction n generalizing u with
  | zero =>
    intro h
    have : u.uart.rxFifo = [] := List.length_eq_zero_iff.mp (by omega)
    unfold Port.drainRx
    rw [← this]
  | succ n ih =>
    intro h
    unfold Port.drainRx
    cases hf : u.uart.rxFifo with
    | nil =>
      have : u.uart.rxcif = false := by simp [Periph.rxcif, hf]
      simp only [this, Bool.false_eq_true, if_false]
      rw [← hf]
    | cons e rest =>
      have : u.uart.rxcif = true := by simp [Periph.rxcif, hf]
      simp only [this, if_true, Port.regRead, hf]
      rw [ih _ (by rw [hf] at h; simpa using h)]

/-- Everything the TXC handler does (R266). -/
theorem Port.txcBody_eq (free : Half) (u : Port) :
    u.txcBody free = { u with uart := { u.uart with ctrla := txcValue u.uart.ctrla, rxFifo := [] } } := by
  simp only [Port.txcBody, Port.drainRx_eq free u _ (Nat.le_refl _), Port.regWrite_ctrla_eq]
  rfl

theorem RxEntry.word_getLsbD (e : RxEntry) (i : Nat) :
    e.word.getLsbD i = BitVec.getLsbD (w := 5 + 1 + 1 + 1 + 8)
      (0#5 ++ BitVec.ofBool e.ferr ++ BitVec.ofBool e.perr ++ 0#1 ++ e.byte) i := rfl

/-- PERR is bit 9 of the RXDATA value (R35). -/
@[simp] theorem RxEntry.word_perr (e : RxEntry) : e.word.getLsbD 9 = e.perr := by
  rw [RxEntry.word_getLsbD]
  simp only [BitVec.getLsbD_append]
  simp

/-- The received byte is bits 7:0 of the RXDATA value (R35). -/
@[simp] theorem RxEntry.word_byte (e : RxEntry) : e.word.extractLsb' 0 8 = e.byte := by
  apply BitVec.eq_of_getLsbD_eq
  intro i hi
  rw [BitVec.getLsbD_extractLsb', RxEntry.word_getLsbD]
  simp only [BitVec.getLsbD_append]
  simp [hi]

/-- Everything the RXC handler can do when a byte waits (R264): drop it on a parity error or a full buffer, push it otherwise. -/
theorem Port.rxcBody_cases (cap : Nat) (free : Half) (u : Port) {e : RxEntry} {rest : List RxEntry}
    (h : u.uart.rxFifo = e :: rest) :
    ((e.perr = true ∨ cursorNext cap u.rxb.head = u.rxb.tail) ∧
      u.rxcBody cap free = { u with uart := { u.uart with rxFifo := rest } }) ∨
    (e.perr = false ∧ cursorNext cap u.rxb.head ≠ u.rxb.tail ∧
      u.rxcBody cap free =
        { u with
          uart := { u.uart with rxFifo := rest }
          rxb := ⟨cursorNext cap u.rxb.head, u.rxb.tail, Memory.write u.rxb.data u.rxb.head e.byte⟩ }) := by
  have hread : u.regRead free .rxdata = (e.word, { u with uart := { u.uart with rxFifo := rest } }) := by
    simp [Port.regRead, h]
  unfold Port.rxcBody
  simp only [hread, RxEntry.word_perr, RxEntry.word_byte]
  cases hp : e.perr with
  | true => exact Or.inl ⟨Or.inl rfl, by simp⟩
  | false =>
    rcases Ring.tryPush_cases cap u.rxb e.byte with ⟨he, ht⟩ | ⟨hne, ht⟩
    · exact Or.inl ⟨Or.inr he, by simp [ht]⟩
    · exact Or.inr ⟨rfl, hne, by simp [ht]⟩

/-- Everything `LineLoad` can do (R281). -/
theorem Periph.lineLoad_cases (u : Periph) :
    (∃ b, u.txen = true ∧ u.txShift = none ∧ u.txHold = some b ∧
      u.lineLoad = { u with txShift := some b, txHold := none }) ∨
    u.lineLoad = u := by
  unfold Periph.lineLoad
  split
  · next h =>
    left
    simp only [Periph.lineLoadEnabled, Bool.and_eq_true, Option.isNone_iff_eq_none, Option.isSome_iff_exists] at h
    obtain ⟨⟨ht, hs⟩, b, hb⟩ := h
    exact ⟨b, ht, hs, hb, by rw [hb]⟩
  · right; rfl

/-- A byte that arrives changes RXFIFO alone, and only by one entry at its end (R284). -/
theorem Periph.rxArrive_eq (depth : Nat) (u : Periph) (e : RxEntry) :
    u.rxArrive depth e = { u with rxFifo := if u.rxFifo.length < depth then u.rxFifo ++ [e] else u.rxFifo } := by
  unfold Periph.rxArrive
  split <;> rfl

/-- Everything `LineShiftDone` can do (R282). -/
theorem Port.lineShiftDone_cases (depth : Nat) (u : Port) :
    (u.uart.txShift = none ∧ u.lineShiftDone depth = u) ∨
    ∃ b, u.uart.txShift = some b ∧ u.lineShiftDone depth =
      { u with
        lineOut := u.lineOut ++ [b]
        uart := { u.uart with
          rxFifo := if (u.uart.lbme && u.uart.rxen) && decide (u.uart.rxFifo.length < depth)
            then u.uart.rxFifo ++ [⟨b, false, false⟩] else u.uart.rxFifo
          txShift := u.uart.txHold
          txHold := none
          txcif := u.uart.txcif || u.uart.txHold.isNone } } := by
  unfold Port.lineShiftDone
  cases hs : u.uart.txShift with
  | none => exact Or.inl ⟨rfl, rfl⟩
  | some b =>
    refine Or.inr ⟨b, rfl, ?_⟩
    simp only [Periph.echo, Periph.shiftNext, Periph.rxArrive]
    cases hl : u.uart.lbme && u.uart.rxen <;> by_cases hd : u.uart.rxFifo.length < depth <;>
      cases hh : u.uart.txHold <;> simp [hd, hh]

end Sys2Proof.Machine
end

