-- ==== Sys2Proof/Laws/State.lean ====
section
/-! SUPPORT. One lemma per field per update of the state, and the laws of `lookup`. -/

namespace Sys2Proof.Machine

open Sys2Proof

@[simp] theorem State.setPort_params (s : State) (p : Nat) (u : Port) : (s.setPort p u).params = s.params := rfl
@[simp] theorem State.setPort_ports (s : State) (p : Nat) (u : Port) : (s.setPort p u).ports = s.ports.set p u := rfl
@[simp] theorem State.setPort_route (s : State) (p : Nat) (u : Port) : (s.setPort p u).route = s.route := rfl
@[simp] theorem State.setPort_pins (s : State) (p : Nat) (u : Port) : (s.setPort p u).pins = s.pins := rfl
@[simp] theorem State.setPort_gie (s : State) (p : Nat) (u : Port) : (s.setPort p u).gie = s.gie := rfl
@[simp] theorem State.setPort_iexec (s : State) (p : Nat) (u : Port) : (s.setPort p u).iexec = s.iexec := rfl
@[simp] theorem State.setPort_seq (s : State) (p : Nat) (u : Port) : (s.setPort p u).seq = s.seq := rfl
@[simp] theorem State.setPort_response (s : State) (p : Nat) (u : Port) : (s.setPort p u).response = s.response := rfl
@[simp] theorem State.setPort_program (s : State) (p : Nat) (u : Port) : (s.setPort p u).program = s.program := rfl
@[simp] theorem State.setPort_inputs (s : State) (p : Nat) (u : Port) : (s.setPort p u).inputs = s.inputs := rfl
@[simp] theorem State.setPort_tick (s : State) (p : Nat) (u : Port) : (s.setPort p u).tick = s.tick := rfl

@[simp] theorem State.respond_params (s : State) (a : Status) (v : Half) : (s.respond a v).params = s.params := rfl
@[simp] theorem State.respond_ports (s : State) (a : Status) (v : Half) : (s.respond a v).ports = s.ports := rfl
@[simp] theorem State.respond_route (s : State) (a : Status) (v : Half) : (s.respond a v).route = s.route := rfl
@[simp] theorem State.respond_pins (s : State) (a : Status) (v : Half) : (s.respond a v).pins = s.pins := rfl
@[simp] theorem State.respond_gie (s : State) (a : Status) (v : Half) : (s.respond a v).gie = s.gie := rfl
@[simp] theorem State.respond_iexec (s : State) (a : Status) (v : Half) : (s.respond a v).iexec = s.iexec := rfl
@[simp] theorem State.respond_seq (s : State) (a : Status) (v : Half) : (s.respond a v).seq = s.seq := rfl
@[simp] theorem State.respond_response (s : State) (a : Status) (v : Half) : (s.respond a v).response = some ⟨a, v⟩ := rfl
@[simp] theorem State.respond_program (s : State) (a : Status) (v : Half) : (s.respond a v).program = s.program := rfl
@[simp] theorem State.respond_inputs (s : State) (a : Status) (v : Half) : (s.respond a v).inputs = s.inputs := rfl
@[simp] theorem State.respond_tick (s : State) (a : Status) (v : Half) : (s.respond a v).tick = s.tick := rfl

@[simp] theorem State.block_params (s : State) (q : Seq) : (s.block q).params = s.params := rfl
@[simp] theorem State.block_ports (s : State) (q : Seq) : (s.block q).ports = s.ports := rfl
@[simp] theorem State.block_route (s : State) (q : Seq) : (s.block q).route = s.route := rfl
@[simp] theorem State.block_pins (s : State) (q : Seq) : (s.block q).pins = s.pins := rfl
@[simp] theorem State.block_gie (s : State) (q : Seq) : (s.block q).gie = s.gie := rfl
@[simp] theorem State.block_iexec (s : State) (q : Seq) : (s.block q).iexec = s.iexec := rfl
@[simp] theorem State.block_seq (s : State) (q : Seq) : (s.block q).seq = q := rfl
@[simp] theorem State.block_response (s : State) (q : Seq) : (s.block q).response = none := rfl
@[simp] theorem State.block_program (s : State) (q : Seq) : (s.block q).program = s.program := rfl
@[simp] theorem State.block_inputs (s : State) (q : Seq) : (s.block q).inputs = s.inputs := rfl
@[simp] theorem State.block_tick (s : State) (q : Seq) : (s.block q).tick = s.tick := rfl

@[simp] theorem State.unblock_params (s : State) : (s.unblock).params = s.params := rfl
@[simp] theorem State.unblock_ports (s : State) : (s.unblock).ports = s.ports := rfl
@[simp] theorem State.unblock_route (s : State) : (s.unblock).route = s.route := rfl
@[simp] theorem State.unblock_pins (s : State) : (s.unblock).pins = s.pins := rfl
@[simp] theorem State.unblock_gie (s : State) : (s.unblock).gie = s.gie := rfl
@[simp] theorem State.unblock_iexec (s : State) : (s.unblock).iexec = s.iexec := rfl
@[simp] theorem State.unblock_seq (s : State) : (s.unblock).seq = .ready := rfl
@[simp] theorem State.unblock_response (s : State) : (s.unblock).response = s.response := rfl
@[simp] theorem State.unblock_program (s : State) : (s.unblock).program = s.program := rfl
@[simp] theorem State.unblock_inputs (s : State) : (s.unblock).inputs = s.inputs := rfl
@[simp] theorem State.unblock_tick (s : State) : (s.unblock).tick = s.tick := rfl

@[simp] theorem State.illegal_params (s : State) : (s.illegal).params = s.params := rfl
@[simp] theorem State.illegal_ports (s : State) : (s.illegal).ports = s.ports := rfl
@[simp] theorem State.illegal_route (s : State) : (s.illegal).route = s.route := rfl
@[simp] theorem State.illegal_pins (s : State) : (s.illegal).pins = s.pins := rfl
@[simp] theorem State.illegal_gie (s : State) : (s.illegal).gie = s.gie := rfl
@[simp] theorem State.illegal_iexec (s : State) : (s.illegal).iexec = s.iexec := rfl
@[simp] theorem State.illegal_seq (s : State) : (s.illegal).seq = s.seq := rfl
@[simp] theorem State.illegal_response (s : State) : (s.illegal).response = some ⟨.illegal, 0#16⟩ := rfl
@[simp] theorem State.illegal_program (s : State) : (s.illegal).program = s.program := rfl
@[simp] theorem State.illegal_inputs (s : State) : (s.illegal).inputs = s.inputs := rfl
@[simp] theorem State.illegal_tick (s : State) : (s.illegal).tick = s.tick := rfl

@[simp] theorem State.takeInterrupt_params (s : State) : (s.takeInterrupt).params = s.params := rfl
@[simp] theorem State.takeInterrupt_ports (s : State) : (s.takeInterrupt).ports = s.ports := rfl
@[simp] theorem State.takeInterrupt_route (s : State) : (s.takeInterrupt).route = s.route := rfl
@[simp] theorem State.takeInterrupt_pins (s : State) : (s.takeInterrupt).pins = s.pins := rfl
@[simp] theorem State.takeInterrupt_gie (s : State) : (s.takeInterrupt).gie = s.gie := rfl
@[simp] theorem State.takeInterrupt_iexec (s : State) : (s.takeInterrupt).iexec = true := rfl
@[simp] theorem State.takeInterrupt_seq (s : State) : (s.takeInterrupt).seq = s.seq := rfl
@[simp] theorem State.takeInterrupt_response (s : State) : (s.takeInterrupt).response = s.response := rfl
@[simp] theorem State.takeInterrupt_program (s : State) : (s.takeInterrupt).program = s.program := rfl
@[simp] theorem State.takeInterrupt_inputs (s : State) : (s.takeInterrupt).inputs = s.inputs := rfl
@[simp] theorem State.takeInterrupt_tick (s : State) : (s.takeInterrupt).tick = s.tick := rfl

@[simp] theorem State.returnFromInterrupt_params (s : State) : (s.returnFromInterrupt).params = s.params := rfl
@[simp] theorem State.returnFromInterrupt_ports (s : State) : (s.returnFromInterrupt).ports = s.ports := rfl
@[simp] theorem State.returnFromInterrupt_route (s : State) : (s.returnFromInterrupt).route = s.route := rfl
@[simp] theorem State.returnFromInterrupt_pins (s : State) : (s.returnFromInterrupt).pins = s.pins := rfl
@[simp] theorem State.returnFromInterrupt_gie (s : State) : (s.returnFromInterrupt).gie = s.gie := rfl
@[simp] theorem State.returnFromInterrupt_iexec (s : State) : (s.returnFromInterrupt).iexec = false := rfl
@[simp] theorem State.returnFromInterrupt_seq (s : State) : (s.returnFromInterrupt).seq = s.seq := rfl
@[simp] theorem State.returnFromInterrupt_response (s : State) : (s.returnFromInterrupt).response = s.response := rfl
@[simp] theorem State.returnFromInterrupt_program (s : State) : (s.returnFromInterrupt).program = s.program := rfl
@[simp] theorem State.returnFromInterrupt_inputs (s : State) : (s.returnFromInterrupt).inputs = s.inputs := rfl
@[simp] theorem State.returnFromInterrupt_tick (s : State) : (s.returnFromInterrupt).tick = s.tick := rfl

@[simp] theorem State.routeMasked_params (s : State) (c : PortParams) (m : Nat) : (s.routeMasked c m).params = s.params := rfl
@[simp] theorem State.routeMasked_ports (s : State) (c : PortParams) (m : Nat) : (s.routeMasked c m).ports = s.ports := rfl
@[simp] theorem State.routeMasked_route (s : State) (c : PortParams) (m : Nat) : (s.routeMasked c m).route = maskedRoute s.params.routeWidth s.route c.groupMask m := rfl
@[simp] theorem State.routeMasked_pins (s : State) (c : PortParams) (m : Nat) : (s.routeMasked c m).pins = s.pins := rfl
@[simp] theorem State.routeMasked_gie (s : State) (c : PortParams) (m : Nat) : (s.routeMasked c m).gie = s.gie := rfl
@[simp] theorem State.routeMasked_iexec (s : State) (c : PortParams) (m : Nat) : (s.routeMasked c m).iexec = s.iexec := rfl
@[simp] theorem State.routeMasked_seq (s : State) (c : PortParams) (m : Nat) : (s.routeMasked c m).seq = s.seq := rfl
@[simp] theorem State.routeMasked_response (s : State) (c : PortParams) (m : Nat) : (s.routeMasked c m).response = s.response := rfl
@[simp] theorem State.routeMasked_program (s : State) (c : PortParams) (m : Nat) : (s.routeMasked c m).program = s.program := rfl
@[simp] theorem State.routeMasked_inputs (s : State) (c : PortParams) (m : Nat) : (s.routeMasked c m).inputs = s.inputs := rfl
@[simp] theorem State.routeMasked_tick (s : State) (c : PortParams) (m : Nat) : (s.routeMasked c m).tick = s.tick := rfl

@[simp] theorem State.applyPinConfiguration_params (s : State) (c : PortParams) (r : Row) (m : Byte) :
    (s.applyPinConfiguration c r m).params = s.params := rfl
@[simp] theorem State.applyPinConfiguration_ports (s : State) (c : PortParams) (r : Row) (m : Byte) :
    (s.applyPinConfiguration c r m).ports = s.ports := rfl
@[simp] theorem State.applyPinConfiguration_route (s : State) (c : PortParams) (r : Row) (m : Byte) :
    (s.applyPinConfiguration c r m).route = maskedRoute s.params.routeWidth s.route c.groupMask r.muxCode := rfl
@[simp] theorem State.applyPinConfiguration_pins (s : State) (c : PortParams) (r : Row) (m : Byte) :
    (s.applyPinConfiguration c r m).pins = configureRowPins s.params r m s.pins := rfl
@[simp] theorem State.applyPinConfiguration_gie (s : State) (c : PortParams) (r : Row) (m : Byte) :
    (s.applyPinConfiguration c r m).gie = s.gie := rfl
@[simp] theorem State.applyPinConfiguration_iexec (s : State) (c : PortParams) (r : Row) (m : Byte) :
    (s.applyPinConfiguration c r m).iexec = s.iexec := rfl
@[simp] theorem State.applyPinConfiguration_seq (s : State) (c : PortParams) (r : Row) (m : Byte) :
    (s.applyPinConfiguration c r m).seq = s.seq := rfl
@[simp] theorem State.applyPinConfiguration_response (s : State) (c : PortParams) (r : Row) (m : Byte) :
    (s.applyPinConfiguration c r m).response = s.response := rfl
@[simp] theorem State.applyPinConfiguration_program (s : State) (c : PortParams) (r : Row) (m : Byte) :
    (s.applyPinConfiguration c r m).program = s.program := rfl
@[simp] theorem State.applyPinConfiguration_inputs (s : State) (c : PortParams) (r : Row) (m : Byte) :
    (s.applyPinConfiguration c r m).inputs = s.inputs := rfl
@[simp] theorem State.applyPinConfiguration_tick (s : State) (c : PortParams) (r : Row) (m : Byte) :
    (s.applyPinConfiguration c r m).tick = s.tick := rfl

@[simp] theorem State.afterDraw_params (s : State) : s.afterDraw.params = s.params := by
  unfold State.afterDraw; split <;> rfl
@[simp] theorem State.afterDraw_ports (s : State) : s.afterDraw.ports = s.ports := by
  unfold State.afterDraw; split <;> rfl
@[simp] theorem State.afterDraw_gie (s : State) : s.afterDraw.gie = s.gie := by
  unfold State.afterDraw; split <;> rfl
@[simp] theorem State.afterDraw_iexec (s : State) : s.afterDraw.iexec = s.iexec := by
  unfold State.afterDraw; split <;> rfl
@[simp] theorem State.afterDraw_seq (s : State) : s.afterDraw.seq = s.seq := by
  unfold State.afterDraw; split <;> rfl
@[simp] theorem State.afterDraw_response (s : State) : s.afterDraw.response = s.response := by
  unfold State.afterDraw; split <;> rfl
@[simp] theorem State.afterDraw_program (s : State) : s.afterDraw.program = s.program := by
  unfold State.afterDraw; split <;> rfl

theorem State.lookup_eq_some {s : State} {p : Nat} {t : PortParams} {u : Port} :
    s.lookup p = some (t, u) ↔ s.params.ports[p]? = some t ∧ s.ports[p]? = some u := by
  unfold State.lookup; split <;> simp_all

theorem State.lookup_congr {s s' : State} (hp : s'.params = s.params) (hq : s'.ports = s.ports) (p : Nat) :
    s'.lookup p = s.lookup p := by
  simp only [State.lookup, hp, hq]

@[simp] theorem State.lookup_respond (s : State) (a : Status) (v : Half) (p : Nat) :
    (s.respond a v).lookup p = s.lookup p := rfl

@[simp] theorem State.lookup_block (s : State) (q : Seq) (p : Nat) : (s.block q).lookup p = s.lookup p := rfl

@[simp] theorem State.lookup_unblock (s : State) (p : Nat) : s.unblock.lookup p = s.lookup p := rfl

@[simp] theorem State.lookup_afterDraw (s : State) (p : Nat) : s.afterDraw.lookup p = s.lookup p :=
  State.lookup_congr (by simp) (by simp) p

/-- The port just replaced is the one found. -/
theorem State.lookup_setPort_same {s : State} {p : Nat} {t : PortParams} {u : Port} (u' : Port)
    (h : s.lookup p = some (t, u)) : (s.setPort p u').lookup p = some (t, u') := by
  rw [State.lookup_eq_some] at h ⊢
  refine ⟨h.1, ?_⟩
  have hlt : p < s.ports.length := (List.getElem?_eq_some_iff.mp h.2).1
  simp [hlt]

/-- Another port is found as before. -/
theorem State.lookup_setPort_ne {s : State} {p q : Nat} (u' : Port) (h : p ≠ q) :
    (s.setPort p u').lookup q = s.lookup q := by
  simp [State.lookup, List.getElem?_set_ne h]

/-- Putting back the instance that is there changes nothing. -/
theorem State.setPort_self {s : State} {p : Nat} {t : PortParams} {u : Port} (h : s.lookup p = some (t, u)) :
    s.setPort p u = s := by
  rw [State.lookup_eq_some] at h
  obtain ⟨hlt, hget⟩ := List.getElem?_eq_some_iff.mp h.2
  simp [State.setPort, ← hget]

@[simp] theorem State.setPort_setPort (s : State) (p : Nat) (u v : Port) :
    (s.setPort p u).setPort p v = s.setPort p v := by
  simp [State.setPort]

/-- `withPort` runs the rule on an existing port and answers ILLEGAL otherwise (R105). -/
theorem withPort_of_lookup {s : State} {p : Nat} {t : PortParams} {u : Port} {f : PortParams → Port → Result}
    (h : s.lookup p = some (t, u)) : withPort s p f = f t u := by
  simp [withPort, h]

theorem withPort_of_none {s : State} {p : Nat} {f : PortParams → Port → Result} (h : s.lookup p = none) :
    withPort s p f = .next s.illegal := by
  simp [withPort, h]

/-- Everything a handler activation can do (R261, R268, R269): its body on its own port when dispatchable, nothing otherwise. -/
theorem runHandler_cases {s t : State} {p : Nat} {k : Source} {body : Port → Port}
    (h : runHandler s p k body = .next t) :
    (∃ c u, s.lookup p = some (c, u) ∧ s.dispatchable u.uart k = true ∧ s.iexec = false ∧ t = s.setPort p (body u)) ∨
    t = s := by
  unfold runHandler at h
  split at h
  · next c u hl =>
    split at h
    · next hd =>
      have hi : s.iexec = false := by simp [State.dispatchable] at hd; exact hd.1.1.2
      refine Or.inl ⟨c, u, hl, hd, hi, ?_⟩
      simp only [Host.Outcome.next.injEq] at h
      rw [← h]
      cases s
      simp_all [State.setPort, State.takeInterrupt, State.returnFromInterrupt]
    · right; simpa using h.symm
  · right; simpa using h.symm

end Sys2Proof.Machine
end

