-- ==== Sys2Proof/Laws/Step.lean ====
section
/-! SUPPORT. What one step can do, said once: the turns of the Irq agent and of the line, one iteration of a blocked
command, and the commands. Invariants are proved from these cases, not by unfolding the step. -/

namespace Sys2Proof.Machine

open Sys2Proof

/-- Every outcome of decoding a vector id (R125). -/
theorem decodeVector_cases (v : VectorId) :
    (∃ p, decodeVector v = .ok (.rxc p)) ∨ (∃ p, decodeVector v = .ok (.dre p)) ∨
    (∃ p, decodeVector v = .ok (.txc p)) ∨ ∃ e, decodeVector v = .error e := by
  unfold decodeVector
  split
  · exact Or.inl ⟨_, rfl⟩
  · split
    · exact Or.inr (Or.inl ⟨_, rfl⟩)
    · split
      · exact Or.inr (Or.inr (Or.inl ⟨_, rfl⟩))
      · exact Or.inr (Or.inr (Or.inr ⟨_, rfl⟩))

/-- What a handler activation or an environment step does to a port, in the state `s` it is taken in. -/
inductive QuietChange (s : State) (u : Port) : Port → Prop where
  | rxc (free : Half) : s.dispatchable u.uart .rxc = true → QuietChange s u (u.rxcBody s.params.rxCap free)
  | dre : s.dispatchable u.uart .dre = true → QuietChange s u (u.dreStep s.params.txCap)
  | txc (free : Half) : s.dispatchable u.uart .txc = true → QuietChange s u (u.txcBody free)
  | lineLoad : s.params.line = .reference → QuietChange s u { u with uart := u.uart.lineLoad }
  | lineShiftDone : s.params.line = .reference → QuietChange s u (u.lineShiftDone s.params.rxFifoDepth)
  | lineRx (e : RxEntry) : s.params.line = .reference →
      QuietChange s u { u with uart := u.uart.lineRx s.params.rxFifoDepth e }
  | envDataEmpty : s.params.line = .boundary → QuietChange s u { u with uart := { u.uart with txHold := none } }
  | envTransmitComplete : s.params.line = .boundary →
      QuietChange s u { u with uart := { u.uart with txcif := true } }
  | envReceive (e : RxEntry) : s.params.line = .boundary →
      QuietChange s u { u with uart := { u.uart with rxFifo := u.uart.rxFifo ++ [e] } }

/-- An environment step changes its own port or nothing. -/
theorem State.environment_cases (s : State) (view : LineView) (p : Nat) (f : Port → Port) :
    s.environment view p f = s ∨
    ∃ c u, s.lookup p = some (c, u) ∧ s.params.line = view ∧ s.environment view p f = s.setPort p (f u) := by
  unfold State.environment
  split
  · next hv =>
    split
    · next c u hl => exact Or.inr ⟨c, u, hl, hv, rfl⟩
    · exact Or.inl rfl
  · exact Or.inl rfl

theorem runHandler_quiet {s t : State} {p : Nat} {k : Source} {body : Port → Port}
    (hq : ∀ u, s.dispatchable u.uart k = true → QuietChange s u (body u)) (h : runHandler s p k body = .next t) :
    t = s ∨ ∃ q c u u', s.lookup q = some (c, u) ∧ QuietChange s u u' ∧ t = s.setPort q u' := by
  rcases runHandler_cases h with ⟨c, u, hl, hd, -, rfl⟩ | rfl
  · exact Or.inr ⟨p, c, u, _, hl, hq u hd, rfl⟩
  · exact Or.inl rfl

/-- The Irq agent's turn (R261): one handler activation, or nothing. -/
theorem irqTurn_cases {s t : State} {v : VectorId} (h : irqTurn v s = .next t) :
    t = s ∨ ∃ p c u u', s.lookup p = some (c, u) ∧ QuietChange s u u' ∧ t = s.setPort p u' := by
  unfold irqTurn at h
  rcases decodeVector_cases v with ⟨p, hv⟩ | ⟨p, hv⟩ | ⟨p, hv⟩ | ⟨e, hv⟩ <;> simp only [hv, exec] at h
  · exact runHandler_quiet (fun u hd => .rxc _ hd) h
  · exact runHandler_quiet (fun u hd => .dre hd) h
  · exact runHandler_quiet (fun u hd => .txc _ hd) h
  · exact Or.inl (by simpa using h.symm)

/-- Everything one turn can do: the Host moves, nothing happens, or a handler or environment step changes one port. -/
theorem runEvent_cases {e : Event} {s t : State} (h : runEvent e s = .next t) :
    (e = .host ∧ hostTurn s = .next t) ∨ t = s ∨
    ∃ p c u u', s.lookup p = some (c, u) ∧ QuietChange s u u' ∧ t = s.setPort p u' := by
  cases e <;> simp only [runEvent, Host.Outcome.next.injEq] at h
  case host => exact Or.inl ⟨rfl, h⟩
  case irq v => exact Or.inr (irqTurn_cases h)
  case lineLoad p =>
    subst h
    rcases s.environment_cases .reference p _ with he | ⟨c, u, hl, hv, he⟩ <;> right
    · exact Or.inl he
    · exact Or.inr ⟨p, c, u, _, hl, .lineLoad hv, he⟩
  case lineShiftDone p =>
    subst h
    rcases s.environment_cases .reference p _ with he | ⟨c, u, hl, hv, he⟩ <;> right
    · exact Or.inl he
    · exact Or.inr ⟨p, c, u, _, hl, .lineShiftDone hv, he⟩
  case lineRx p b pe fe =>
    subst h
    rcases s.environment_cases .reference p _ with he | ⟨c, u, hl, hv, he⟩ <;> right
    · exact Or.inl he
    · exact Or.inr ⟨p, c, u, _, hl, .lineRx _ hv, he⟩
  case envDataEmpty p =>
    subst h
    rcases s.environment_cases .boundary p _ with he | ⟨c, u, hl, hv, he⟩ <;> right
    · exact Or.inl he
    · exact Or.inr ⟨p, c, u, _, hl, .envDataEmpty hv, he⟩
  case envTransmitComplete p =>
    subst h
    rcases s.environment_cases .boundary p _ with he | ⟨c, u, hl, hv, he⟩ <;> right
    · exact Or.inl he
    · exact Or.inr ⟨p, c, u, _, hl, .envTransmitComplete hv, he⟩
  case envReceive p b pe fe =>
    subst h
    rcases s.environment_cases .boundary p _ with he | ⟨c, u, hl, hv, he⟩ <;> right
    · exact Or.inl he
    · exact Or.inr ⟨p, c, u, _, hl, .envReceive _ hv, he⟩

/-- A flush need not wait: nothing written, or `FlushDone` (R172). -/
def Port.flushed (u : Port) : Prop := u.written = false ∨ u.uart.flushDone = true

/-- What a Host step does to a port: a command, or one iteration of a blocked one. The last index is the `seq` it leaves. -/
inductive HostChange (s : State) (p : Nat) (c : PortParams) (u : Port) : Port → Seq → Prop where
  | popped (v : Byte) (r : Ring) : u.rxb.tryPop s.params.rxCap = some (v, r) →
      HostChange s p c u { u with rxb := r } s.seq
  | bound (idx : Byte) : idx.toNat < c.rows.length ∨ idx = MUX_IDX_NONE →
      HostChange s p c u { u with pgi := idx } s.seq
  | configured (d : BaudSetting) (cfg : Half) : u.begun = false → HostChange s p c u (u.configureRegs d cfg) s.seq
  | ended (q : Seq) : u.flushed → q = s.seq ∨ q = .ready → HostChange s p c u u.shutdown q
  | reconfigured (d : BaudSetting) (cfg : Half) (q : Seq) : u.flushed → q = s.seq ∨ q = .ready →
      HostChange s p c u (u.shutdown.configureRegs d cfg) q
  | fast (b : Byte) : u.begun = true → u.txb.head = u.txb.tail → u.uart.dreif = true →
      HostChange s p c u ({ u with written := true }.fastWrite b) s.seq
  | pushed (b : Byte) : u.begun = true → u.txb.availableForWrite s.params.txCap ≠ 0 →
      HostChange s p c u ({ u with written := true }.pushByte s.params.txCap b) .ready
  | pushedLate (b : Byte) : s.seq = .writeWait p b → u.txb.availableForWrite s.params.txCap ≠ 0 →
      HostChange s p c u (u.pushByte s.params.txCap b) .ready
  | blocked (b : Byte) : u.begun = true → u.txb.availableForWrite s.params.txCap = 0 →
      HostChange s p c u (s.pollPort { u with written := true }) (.writeWait p b)
  | polled : s.seq ≠ .ready → HostChange s p c u (s.pollPort u) s.seq

/-- The frame of a Host step: what no command and no spin ever changes. -/
structure HostFrame (s t : State) : Prop where
  params : t.params = s.params
  program : t.program = s.program
  inputs : t.inputs = s.inputs
  tick : t.tick = s.tick

/-- Everything a Host step can do to the ports, the routing and the sequencer: nothing, waiting in a flush, or a change of
one port. -/
def HostCases (s t : State) : Prop :=
  (t.ports = s.ports ∧ t.route = s.route ∧ t.pins = s.pins ∧ (t.seq = s.seq ∨ t.seq = .ready)) ∨
  (∃ p k c u, s.lookup p = some (c, u) ∧ u.written = true ∧
    t.ports = s.ports ∧ t.route = s.route ∧ t.pins = s.pins ∧ t.seq = .flushWait p k) ∨
  ∃ p c u u', s.lookup p = some (c, u) ∧ HostChange s p c u u' t.seq ∧ t.ports = s.ports.set p u' ∧
    ((t.route = s.route ∧ t.pins = s.pins) ∨
      ∃ s1 : State, ∃ cfg, s.bindPins c u.pgi cfg = some s1 ∧ t.route = s1.route ∧ t.pins = s1.pins)

theorem State.bindPins_frame {s s1 : State} {c : PortParams} {pgi : Byte} {cfg : Half}
    (h : s.bindPins c pgi cfg = some s1) :
    s1.params = s.params ∧ s1.ports = s.ports ∧ s1.gie = s.gie ∧ s1.iexec = s.iexec ∧ s1.seq = s.seq ∧
      s1.response = s.response ∧ s1.program = s.program ∧ s1.inputs = s.inputs ∧ s1.tick = s.tick := by
  unfold State.bindPins at h
  split at h
  · simp only [Option.some.injEq] at h; subst h; simp
  · simp only [Option.map_eq_some_iff] at h
    obtain ⟨r, -, rfl⟩ := h
    simp

theorem State.bindPins_of_unblock {s s1 : State} {c : PortParams} {pgi : Byte} {cfg : Half}
    (h : s.unblock.bindPins c pgi cfg = some s1) :
    s.bindPins c pgi cfg = some { s with route := s1.route, pins := s1.pins } := by
  unfold State.bindPins at h ⊢
  split at h
  · next hn =>
    simp only [Option.some.injEq] at h
    subst h
    rw [if_pos hn]
    rfl
  · next hn =>
    simp only [Option.map_eq_some_iff] at h
    obtain ⟨r, hrow, rfl⟩ := h
    rw [if_neg hn, hrow]
    rfl

/-- Everything `Configure` can do when it ends in a next state (R163, R164). -/
theorem configure_cases {s t : State} {p : Nat} {baud : Long} {cfg : Half} {c : PortParams} {u : Port}
    (h : configure s p baud cfg c u = .next t) :
    (baudDivisor s.params baud.toNat = none ∧ t = (s.setPort p u).respond .fail 0#16) ∨
    ∃ d s1, baudDivisor s.params baud.toNat = some d ∧ s.bindPins c u.pgi cfg = some s1 ∧
      t = (s1.setPort p (u.configureRegs d cfg)).respond .ok 0#16 := by
  unfold configure at h
  split at h
  · next hb => exact Or.inl ⟨hb, by simpa using h.symm⟩
  · next d hb =>
    split at h
    · simp at h
    · next s1 hs => exact Or.inr ⟨d, s1, hb, hs, by simpa using h.symm⟩

theorem Port.shutdown_pgi (u : Port) : u.shutdown.pgi = u.pgi := by rw [Port.shutdown_eq]

/-- `Continue(p, k)` after a completed flush (R172). -/
theorem continueWith_cases {s t : State} {p : Nat} {k : Cont} {c : PortParams} {u : Port} {q : Seq}
    (hu : u.flushed) (hs : s.seq = q)
    (h : continueWith s p k c u = .next t) : HostFrame s t ∧ t.gie = s.gie ∧ t.iexec = s.iexec ∧
      ((t.ports = s.ports ∧ t.route = s.route ∧ t.pins = s.pins ∧ t.seq = q) ∨
       ∃ u', (∀ s' : State, (q = s'.seq ∨ q = .ready) → HostChange s' p c u u' q) ∧ t.ports = s.ports.set p u' ∧
        t.seq = q ∧ ((t.route = s.route ∧ t.pins = s.pins) ∨
          ∃ s1 : State, ∃ cfg, s.bindPins c u.pgi cfg = some s1 ∧ t.route = s1.route ∧ t.pins = s1.pins)) := by
  cases k with
  | done =>
    simp only [continueWith, Host.Outcome.next.injEq] at h
    subst h
    exact ⟨⟨rfl, rfl, rfl, rfl⟩, rfl, rfl, Or.inl ⟨rfl, rfl, rfl, hs⟩⟩
  | thenEnd =>
    simp only [continueWith, Host.Outcome.next.injEq] at h
    subst h
    exact ⟨⟨rfl, rfl, rfl, rfl⟩, rfl, rfl, Or.inr ⟨_, fun s' h' => .ended q hu h', rfl, hs, Or.inl ⟨rfl, rfl⟩⟩⟩
  | thenEndBegin baud cfg =>
    simp only [continueWith] at h
    rcases configure_cases h with ⟨-, rfl⟩ | ⟨d, s1, -, hb, rfl⟩
    · exact ⟨⟨rfl, rfl, rfl, rfl⟩, rfl, rfl, Or.inr ⟨_, fun s' h' => .ended q hu h', rfl, hs, Or.inl ⟨rfl, rfl⟩⟩⟩
    · obtain ⟨f1, f2, f3, f4, f5, -, f7, f8, f9⟩ := State.bindPins_frame hb
      rw [Port.shutdown_pgi] at hb
      refine ⟨⟨f1, f7, f8, f9⟩, f3, f4, Or.inr ⟨_, fun s' h' => .reconfigured d cfg q hu h', ?_, ?_,
        Or.inr ⟨s1, cfg, hb, rfl, rfl⟩⟩⟩
      · simp [f2]
      · simp [f5, hs]

theorem flushThen_cases {s t : State} {p : Nat} {k : Cont} {c : PortParams} {u : Port}
    (hl : s.lookup p = some (c, u)) (h : flushThen s p k c u = .next t) :
    HostFrame s t ∧ t.gie = s.gie ∧ t.iexec = s.iexec ∧ HostCases s t := by
  unfold flushThen at h
  split at h
  · next hf =>
    have hu : u.flushed := by simpa [Port.flushed] using hf
    obtain ⟨hfr, hg, hi, hc⟩ := continueWith_cases hu rfl h
    refine ⟨hfr, hg, hi, ?_⟩
    rcases hc with ⟨h1, h2, h3, h4⟩ | ⟨u', hc, h1, h2, h3⟩
    · exact Or.inl ⟨h1, h2, h3, Or.inl h4⟩
    · refine Or.inr (Or.inr ⟨p, c, u, u', hl, ?_, h1, h3⟩)
      rw [h2]
      exact hc s (Or.inl rfl)
  · next hf =>
    simp only [Host.Outcome.next.injEq] at h
    subst h
    have hw : u.written = true := by
      cases hw : u.written <;> simp [hw] at hf ⊢
    exact ⟨⟨rfl, rfl, rfl, rfl⟩, rfl, rfl, Or.inr (Or.inl ⟨p, k, c, u, hl, hw, rfl, rfl, rfl, rfl⟩)⟩

theorem writeTry_cases {s t : State} {p : Nat} {b : Byte} {u : Port} (h : writeTry s p b u = .next t) :
    HostFrame s t ∧ t.gie = s.gie ∧ t.iexec = s.iexec ∧ t.route = s.route ∧ t.pins = s.pins ∧
    ((u.txb.availableForWrite s.params.txCap = 0 ∧ t.ports = s.ports.set p (s.pollPort u) ∧ t.seq = .writeWait p b) ∨
     (u.txb.availableForWrite s.params.txCap ≠ 0 ∧ t.ports = s.ports.set p (u.pushByte s.params.txCap b) ∧
      t.seq = .ready)) := by
  unfold writeTry at h
  split at h <;> simp only [Host.Outcome.next.injEq] at h <;> subst h
  · next hf => exact ⟨⟨rfl, rfl, rfl, rfl⟩, rfl, rfl, rfl, rfl, Or.inl ⟨hf, rfl, rfl⟩⟩
  · next hf => exact ⟨⟨rfl, rfl, rfl, rfl⟩, rfl, rfl, rfl, rfl, Or.inr ⟨hf, rfl, rfl⟩⟩

/-- Everything one iteration of a blocked command can do (R167, R173, R180). -/
theorem spin_cases {s t : State} (h : spin s = .next t) :
    HostFrame s t ∧ t.gie = s.gie ∧ t.iexec = s.iexec ∧ HostCases s t := by
  unfold spin at h
  split at h
  · simp only [Host.Outcome.next.injEq] at h
    subst h
    exact ⟨⟨rfl, rfl, rfl, rfl⟩, rfl, rfl, Or.inl ⟨rfl, rfl, rfl, Or.inl rfl⟩⟩
  · next p b hs =>
    split at h
    · next c u hl =>
      obtain ⟨hfr, hg, hi, hr, hp, hc⟩ := writeTry_cases h
      refine ⟨hfr, hg, hi, Or.inr (Or.inr ⟨p, c, u, ?_⟩)⟩
      rcases hc with ⟨-, h1, h2⟩ | ⟨hf, h1, h2⟩
      · refine ⟨_, hl, ?_, h1, Or.inl ⟨hr, hp⟩⟩
        rw [h2, ← hs]
        exact .polled (by rw [hs]; simp)
      · refine ⟨_, hl, ?_, h1, Or.inl ⟨hr, hp⟩⟩
        rw [h2]
        exact .pushedLate b hs hf
    · simp at h
  · next p k hs =>
    split at h
    · next c u hl =>
      unfold flushSpin at h
      split at h
      · next hf =>
        have hu : u.flushed := Or.inr hf
        obtain ⟨hfr, hg, hi, hc⟩ := continueWith_cases (s := s.unblock) (q := .ready) hu rfl h
        refine ⟨⟨hfr.1, hfr.2, hfr.3, hfr.4⟩, hg, hi, ?_⟩
        rcases hc with ⟨h1, h2, h3, h4⟩ | ⟨u', hc, h1, h2, h3⟩
        · exact Or.inl ⟨h1, h2, h3, Or.inr h4⟩
        · refine Or.inr (Or.inr ⟨p, c, u, u', hl, ?_, h1, ?_⟩)
          · rw [h2]; exact hc s (Or.inr rfl)
          · rcases h3 with h3 | ⟨s1, cfg, hb, hr, hp⟩
            · exact Or.inl h3
            · exact Or.inr ⟨_, cfg, State.bindPins_of_unblock hb, hr, hp⟩
      · simp only [Host.Outcome.next.injEq] at h
        subst h
        exact ⟨⟨rfl, rfl, rfl, rfl⟩, rfl, rfl,
          Or.inr (Or.inr ⟨p, c, u, _, hl, .polled (by rw [hs]; simp), rfl, Or.inl ⟨rfl, rfl⟩⟩)⟩
    · simp at h

theorem continueWith_seq {s t : State} {p : Nat} {k : Cont} {c : PortParams} {u : Port}
    (h : continueWith s p k c u = .next t) : t.seq = s.seq := by
  cases k <;> simp only [continueWith] at h
  · simp only [Host.Outcome.next.injEq] at h; subst h; rfl
  · simp only [Host.Outcome.next.injEq] at h; subst h; rfl
  · rcases configure_cases h with ⟨-, rfl⟩ | ⟨d, s1, -, hb, rfl⟩
    · rfl
    · simp [(State.bindPins_frame hb).2.2.2.2.1]

/-- A blocked command ends in `Ready`, or has only polled its port (R167, R173). -/
theorem spin_seq {s t : State} (hs : s.seq ≠ .ready) (h : spin s = .next t) :
    t.seq = .ready ∨ ∃ p c u, s.lookup p = some (c, u) ∧ t.seq = s.seq ∧ t.route = s.route ∧ t.pins = s.pins ∧
      t.ports = s.ports.set p (s.pollPort u) := by
  unfold spin at h
  split at h
  · next he => exact absurd he hs
  · next p b he =>
    split at h
    · next c u hl =>
      obtain ⟨-, -, -, hr, hp, hc⟩ := writeTry_cases h
      rcases hc with ⟨-, h1, h2⟩ | ⟨-, -, h2⟩
      · exact Or.inr ⟨p, c, u, hl, by rw [h2, he], hr, hp, h1⟩
      · exact Or.inl h2
    · simp at h
  · next p k he =>
    split at h
    · next c u hl =>
      unfold flushSpin at h
      split at h
      · exact Or.inl (continueWith_seq h)
      · simp only [Host.Outcome.next.injEq] at h
        subst h
        exact Or.inr ⟨p, c, u, hl, rfl, rfl, rfl, rfl⟩
    · simp at h

/-- The scan answers NOT_A_MUX or the index of a row (R201). -/
theorem scanRows_lt (tx rx : Byte) (rows : List Row) (i : Nat) :
    scanRows tx rx i rows = NOT_A_MUX ∨ (scanRows tx rx i rows).toNat < i + rows.length := by
  induction rows generalizing i with
  | nil => exact Or.inl rfl
  | cons r rest ih =>
    unfold scanRows
    split
    · right
      rw [BitVec.toNat_ofNat, List.length_cons]
      have := Nat.mod_le i (2 ^ 8)
      omega
    · rcases ih (i + 1) with h | h
      · exact Or.inl h
      · right; rw [List.length_cons]; omega

/-- A pin pair that resolves gives a row index or MUX_IDX_NONE (R21, R201). -/
theorem resolveMuxFromPins_valid {c : PortParams} {tx rx : Byte} (h : resolveMuxFromPins c tx rx ≠ NOT_A_MUX) :
    (resolveMuxFromPins c tx rx).toNat < c.rows.length ∨ resolveMuxFromPins c tx rx = MUX_IDX_NONE := by
  unfold resolveMuxFromPins at h ⊢
  split
  · exact Or.inr rfl
  · next hn =>
    rw [if_neg hn] at h
    rcases scanRows_lt tx rx c.rows 0 with he | hlt
    · exact absurd he h
    · left; omega

/-- A command on a port that does not exist, or one that changes nothing but the response, GIE or IEXEC. -/
theorem hostCases_idle {s t : State} (hp : t.ports = s.ports) (hr : t.route = s.route) (hq : t.pins = s.pins)
    (hs : t.seq = s.seq) : HostCases s t :=
  Or.inl ⟨hp, hr, hq, Or.inl hs⟩

/-- A command on a port is ILLEGAL or runs its rule on that port. -/
theorem withPort_cases {s t : State} {p : Nat} {f : PortParams → Port → Result} (h : withPort s p f = .next t) :
    (s.lookup p = none ∧ t = s.illegal) ∨ ∃ c u, s.lookup p = some (c, u) ∧ f c u = .next t := by
  unfold withPort at h
  split at h
  · next c u hl => exact Or.inr ⟨c, u, hl, h⟩
  · next hl => exact Or.inl ⟨hl, by simpa using h.symm⟩

theorem writeBody_cases {s t : State} {p : Nat} {b : Byte} {c : PortParams} {u : Port} (hb : u.begun = true)
    (hl : s.lookup p = some (c, u)) (h : writeBody s p b u = .next t) : HostFrame s t ∧ HostCases s t := by
  unfold writeBody at h
  split at h
  · next hf =>
    simp only [Host.Outcome.next.injEq] at h
    subst h
    exact ⟨⟨rfl, rfl, rfl, rfl⟩,
      Or.inr (Or.inr ⟨p, c, u, _, hl, .fast b hb hf.1 hf.2, rfl, Or.inl ⟨rfl, rfl⟩⟩)⟩
  · obtain ⟨hfr, -, -, hr, hp, hc⟩ := writeTry_cases h
    refine ⟨hfr, Or.inr (Or.inr ⟨p, c, u, ?_⟩)⟩
    rcases hc with ⟨hz, h1, h2⟩ | ⟨hz, h1, h2⟩
    · exact ⟨_, hl, by rw [h2]; exact .blocked b hb hz, h1, Or.inl ⟨hr, hp⟩⟩
    · exact ⟨_, hl, by rw [h2]; exact .pushed b hb hz, h1, Or.inl ⟨hr, hp⟩⟩

/-- Everything a command can do when it ends in a next state (R104). -/
theorem exec_command_cases {i : Instr} {s t : State} (hi : i.isCommand = true) (h : exec i s = .next t) :
    HostFrame s t ∧ HostCases s t := by
  have idle : ∀ {a : Status} {v : Half}, t = s.respond a v → HostFrame s t ∧ HostCases s t := by
    rintro a v rfl
    exact ⟨⟨rfl, rfl, rfl, rfl⟩, hostCases_idle rfl rfl rfl rfl⟩
  have onPort : ∀ {p : Nat} {f : PortParams → Port → Result}, withPort s p f = .next t →
      (∀ c u, s.lookup p = some (c, u) → f c u = .next t → HostFrame s t ∧ HostCases s t) →
      HostFrame s t ∧ HostCases s t := by
    intro p f hw hf
    rcases withPort_cases hw with ⟨-, rfl⟩ | ⟨c, u, hl, hu⟩
    · exact idle rfl
    · exact hf c u hl hu
  cases i <;> simp only [exec, Instr.isCommand, Bool.false_eq_true] at h hi
  case beginPort p baud cfg =>
    refine onPort h fun c u hl hu => ?_
    split at hu
    · obtain ⟨h1, -, -, h2⟩ := flushThen_cases hl hu
      exact ⟨h1, h2⟩
    · next hb =>
      rcases configure_cases hu with ⟨-, rfl⟩ | ⟨d, s1, -, hs, rfl⟩
      · rw [State.setPort_self hl]
        exact ⟨⟨rfl, rfl, rfl, rfl⟩, hostCases_idle rfl rfl rfl rfl⟩
      · obtain ⟨f1, f2, -, -, f5, -, f7, f8, f9⟩ := State.bindPins_frame hs
        refine ⟨⟨f1, f7, f8, f9⟩, Or.inr (Or.inr ⟨p.toNat, c, u, u.configureRegs d cfg, hl, ?_, ?_, Or.inr ⟨s1, cfg, hs, rfl, rfl⟩⟩)⟩
        · simp only [State.respond_seq, State.setPort_seq, f5]
          exact .configured d cfg (by simpa using hb)
        · simp [f2]
  case endPort p =>
    refine onPort h fun c u hl hu => ?_
    obtain ⟨h1, -, -, h2⟩ := flushThen_cases hl hu
    exact ⟨h1, h2⟩
  case avail p => exact onPort h fun c u _ hu => idle (by simpa using hu.symm)
  case availw p => exact onPort h fun c u _ hu => idle (by simpa using hu.symm)
  case peek p =>
    refine onPort h fun c u _ hu => ?_
    split at hu <;> exact idle (by simpa using hu.symm)
  case read p =>
    refine onPort h fun c u hl hu => ?_
    split at hu
    · exact idle (by simpa using hu.symm)
    · next v r hp =>
      simp only [Host.Outcome.next.injEq] at hu
      subst hu
      exact ⟨⟨rfl, rfl, rfl, rfl⟩,
        Or.inr (Or.inr ⟨p.toNat, c, u, _, hl, .popped v r hp, rfl, Or.inl ⟨rfl, rfl⟩⟩)⟩
  case write p v =>
    refine onPort h fun c u hl hu => ?_
    split at hu
    · next hb =>
      split at hu
      · exact writeBody_cases hb hl hu
      · split at hu
        · simp at hu
        · exact writeBody_cases hb hl hu
    · split at hu
      · simp at hu
      · exact idle (by simpa using hu.symm)
  case flush p =>
    refine onPort h fun c u hl hu => ?_
    obtain ⟨h1, -, -, h2⟩ := flushThen_cases hl hu
    exact ⟨h1, h2⟩
  case usable p => exact onPort h fun c u _ hu => idle (by simpa using hu.symm)
  case pins p tx rx =>
    refine onPort h fun c u hl hu => ?_
    split at hu
    · exact idle (by simpa using hu.symm)
    · next hn =>
      simp only [Host.Outcome.next.injEq] at hu
      subst hu
      exact ⟨⟨rfl, rfl, rfl, rfl⟩,
        Or.inr (Or.inr ⟨p.toNat, c, u, _, hl, .bound _ (resolveMuxFromPins_valid hn), rfl, Or.inl ⟨rfl, rfl⟩⟩)⟩
  case swap p idx =>
    refine onPort h fun c u hl hu => ?_
    split at hu
    · next hv =>
      simp only [Host.Outcome.next.injEq] at hu
      subst hu
      exact ⟨⟨rfl, rfl, rfl, rfl⟩,
        Or.inr (Or.inr ⟨p.toNat, c, u, _, hl, .bound _ hv, rfl, Or.inl ⟨rfl, rfl⟩⟩)⟩
    · exact idle (by simpa using hu.symm)
  case irqsave =>
    simp only [execIrqsave, Host.Outcome.next.injEq] at h
    subst h
    exact ⟨⟨rfl, rfl, rfl, rfl⟩, hostCases_idle rfl rfl rfl rfl⟩
  case irqrest on =>
    simp only [execIrqrest, Host.Outcome.next.injEq] at h
    subst h
    exact ⟨⟨rfl, rfl, rfl, rfl⟩, hostCases_idle rfl rfl rfl rfl⟩
  case isrenter =>
    unfold execIsrenter at h
    split at h <;> simp only [Host.Outcome.next.injEq] at h <;> subst h
    all_goals exact ⟨⟨rfl, rfl, rfl, rfl⟩, hostCases_idle rfl rfl rfl rfl⟩
  case isrexit =>
    unfold execIsrexit at h
    split at h <;> simp only [Host.Outcome.next.injEq] at h <;> subst h
    all_goals exact ⟨⟨rfl, rfl, rfl, rfl⟩, hostCases_idle rfl rfl rfl rfl⟩

theorem ite_eq_ok {P : Prop} [Decidable P] {a b : Except DecodeError Instr} {i : Instr}
    (h : (if P then a else b) = .ok i) : a = .ok i ∨ b = .ok i := by
  split at h
  · exact Or.inl h
  · exact Or.inr h

/-- A command word decodes to a command, never to a handler (R104). -/
theorem decodeCommand_isCommand {w : CommandWord} {i : Instr} (h : decodeCommand w = .ok i) : i.isCommand = true := by
  have P : ∀ {mk : Byte → Instr}, (∀ p, (mk p).isCommand = true) → decodeP w mk = .ok i → i.isCommand = true := by
    intro mk hm h
    rcases ite_eq_ok h with h | h <;> cases h
    exact hm _
  have G : ∀ {j : Instr}, j.isCommand = true → decodeG w j = .ok i → i.isCommand = true := by
    intro j hm h
    rcases ite_eq_ok h with h | h <;> cases h
    exact hm
  unfold decodeCommand at h
  rcases ite_eq_ok h with h | h; · cases h; rfl
  rcases ite_eq_ok h with h | h; · exact P (fun _ => rfl) h
  rcases ite_eq_ok h with h | h; · exact P (fun _ => rfl) h
  rcases ite_eq_ok h with h | h; · exact P (fun _ => rfl) h
  rcases ite_eq_ok h with h | h; · exact P (fun _ => rfl) h
  rcases ite_eq_ok h with h | h; · exact P (fun _ => rfl) h
  rcases ite_eq_ok h with h | h; · rcases ite_eq_ok h with h | h <;> cases h; rfl
  rcases ite_eq_ok h with h | h; · exact P (fun _ => rfl) h
  rcases ite_eq_ok h with h | h; · exact P (fun _ => rfl) h
  rcases ite_eq_ok h with h | h; · rcases ite_eq_ok h with h | h <;> cases h; rfl
  rcases ite_eq_ok h with h | h; · rcases ite_eq_ok h with h | h <;> cases h; rfl
  rcases ite_eq_ok h with h | h; · exact G rfl h
  rcases ite_eq_ok h with h | h; · rcases ite_eq_ok h with h | h <;> cases h; rfl
  rcases ite_eq_ok h with h | h; · exact G rfl h
  rcases ite_eq_ok h with h | h; · exact G rfl h
  cases h

/-- Everything the Host's turn can do (R180): nothing to issue, one spin iteration, an illegal word, or one command. -/
theorem hostTurn_cases {s t : State} (h : hostTurn s = .next t) :
    t = s ∨ (s.seq ≠ .ready ∧ spin s = .next t) ∨
    ∃ w rest, s.seq = .ready ∧ s.program = w :: rest ∧
      (((∃ e, decodeCommand w = .error e) ∧ t = { s with program := rest }.illegal) ∨
       ∃ i, decodeCommand w = .ok i ∧ i.isCommand = true ∧ exec i { s with program := rest } = .next t) := by
  unfold hostTurn at h
  split at h
  · next hs =>
    split at h
    · exact Or.inl (by simpa using h.symm)
    · next w rest hp =>
      refine Or.inr (Or.inr ⟨w, rest, hs, hp, ?_⟩)
      unfold issue at h
      split at h
      · next i hi => exact Or.inr ⟨i, hi, decodeCommand_isCommand hi, h⟩
      · next e he => exact Or.inl ⟨⟨e, he⟩, by simpa using h.symm⟩
  · next hs =>
    exact Or.inr (Or.inl ⟨fun he => hs he, h⟩)

/-- The Host's turn in the terms of `HostCases`: the program only loses its head, and only when the Host is ready. -/
theorem hostTurn_hostCases {s t : State} (h : hostTurn s = .next t) :
    ∃ s0 : State, (s0 = s ∨ ∃ w rest, s.seq = .ready ∧ s.program = w :: rest ∧ s0 = { s with program := rest }) ∧
      HostFrame s0 t ∧ HostCases s0 t := by
  rcases hostTurn_cases h with rfl | ⟨-, hs⟩ | ⟨w, rest, hs, hp, he | ⟨i, -, hi, he⟩⟩
  · exact ⟨_, Or.inl rfl, ⟨rfl, rfl, rfl, rfl⟩, hostCases_idle rfl rfl rfl rfl⟩
  · obtain ⟨h1, -, -, h2⟩ := spin_cases hs
    exact ⟨s, Or.inl rfl, h1, h2⟩
  · obtain ⟨-, rfl⟩ := he
    exact ⟨_, Or.inr ⟨w, rest, hs, hp, rfl⟩, ⟨rfl, rfl, rfl, rfl⟩, hostCases_idle rfl rfl rfl rfl⟩
  · obtain ⟨h1, h2⟩ := exec_command_cases hi he
    exact ⟨_, Or.inr ⟨w, rest, hs, hp, rfl⟩, h1, h2⟩

/-- Everything one step can do: the Host moves, nothing happens, or a handler or environment step changes one port. -/
theorem step_cases {s t : State} (h : step s = .next t) :
    (s.nextEvent = .host ∧ hostTurn s.afterDraw = .next t) ∨ t = s.afterDraw ∨
    ∃ p c u u', s.afterDraw.lookup p = some (c, u) ∧ QuietChange s.afterDraw u u' ∧ t = s.afterDraw.setPort p u' :=
  runEvent_cases h

/-! ### Which port a turn changes -/

/-- Of the ports, `t` differs from `s` at most in port `p`. -/
def OnlyPort (s : State) (p : Nat) (t : State) : Prop := t.ports = s.ports ∨ ∃ u, t.ports = s.ports.set p u

theorem OnlyPort.other {s t : State} {p q : Nat} (h : OnlyPort s p t) (hq : q ≠ p) : t.ports[q]? = s.ports[q]? := by
  rcases h with h | ⟨u, h⟩ <;> rw [h]
  exact List.getElem?_set_ne (Ne.symm hq)

theorem continueWith_onlyPort {s t : State} {p : Nat} {k : Cont} {c : PortParams} {u : Port}
    (h : continueWith s p k c u = .next t) : OnlyPort s p t := by
  cases k with
  | done => simp only [continueWith, Host.Outcome.next.injEq] at h; subst h; exact Or.inl rfl
  | thenEnd => simp only [continueWith, Host.Outcome.next.injEq] at h; subst h; exact Or.inr ⟨_, rfl⟩
  | thenEndBegin baud cfg =>
    rcases configure_cases h with ⟨-, rfl⟩ | ⟨d, s1, -, hb, rfl⟩
    · exact Or.inr ⟨_, rfl⟩
    · exact Or.inr ⟨_, by simp [(State.bindPins_frame hb).2.1]; rfl⟩

theorem flushThen_onlyPort {s t : State} {p : Nat} {k : Cont} {c : PortParams} {u : Port}
    (h : flushThen s p k c u = .next t) : OnlyPort s p t := by
  unfold flushThen at h
  split at h
  · exact continueWith_onlyPort h
  · simp only [Host.Outcome.next.injEq] at h; subst h; exact Or.inl rfl

theorem writeTry_onlyPort {s t : State} {p : Nat} {b : Byte} {u : Port} (h : writeTry s p b u = .next t) :
    OnlyPort s p t := by
  obtain ⟨-, -, -, -, -, hc⟩ := writeTry_cases h
  rcases hc with ⟨-, h1, -⟩ | ⟨-, h1, -⟩ <;> exact Or.inr ⟨_, h1⟩

theorem writeBody_onlyPort {s t : State} {p : Nat} {b : Byte} {u : Port} (h : writeBody s p b u = .next t) :
    OnlyPort s p t := by
  unfold writeBody at h
  split at h
  · simp only [Host.Outcome.next.injEq] at h; subst h; exact Or.inr ⟨_, rfl⟩
  · exact writeTry_onlyPort h

theorem runHandler_onlyPort {s t : State} {p : Nat} {k : Source} {body : Port → Port}
    (h : runHandler s p k body = .next t) : OnlyPort s p t := by
  rcases runHandler_cases h with ⟨c, u, hl, hd, -, rfl⟩ | rfl
  · exact Or.inr ⟨_, rfl⟩
  · exact Or.inl rfl

/-- A command or a handler changes no port but the one it names (R52, R262). -/
theorem exec_onlyPort {i : Instr} {s t : State} (h : exec i s = .next t) :
    match i.port? with
    | some p => OnlyPort s p t
    | none => t.ports = s.ports := by
  have onPort : ∀ {p : Nat} {f : PortParams → Port → Result}, withPort s p f = .next t →
      (∀ c u, f c u = .next t → OnlyPort s p t) → OnlyPort s p t := by
    intro p f hw hf
    rcases withPort_cases hw with ⟨-, rfl⟩ | ⟨c, u, -, hu⟩
    · exact Or.inl rfl
    · exact hf c u hu
  have idle : ∀ {p : Nat} {a : Status} {v : Half}, .next (s.respond a v) = (.next t : Result) → OnlyPort s p t := by
    intro p a v hu
    simp only [Host.Outcome.next.injEq] at hu
    subst hu
    exact Or.inl rfl
  have set : ∀ {p : Nat} {u : Port} {a : Status} {v : Half},
      .next ((s.setPort p u).respond a v) = (.next t : Result) → OnlyPort s p t := by
    intro p u a v hu
    simp only [Host.Outcome.next.injEq] at hu
    subst hu
    exact Or.inr ⟨_, rfl⟩
  cases i <;> simp only [exec] at h <;> simp only [Instr.port?]
  case beginPort p baud cfg =>
    refine onPort h fun c u hu => ?_
    split at hu
    · exact flushThen_onlyPort hu
    · rcases configure_cases hu with ⟨-, rfl⟩ | ⟨d, s1, -, hb, rfl⟩
      · exact Or.inr ⟨_, rfl⟩
      · exact Or.inr ⟨_, by simp [(State.bindPins_frame hb).2.1]; rfl⟩
  case endPort p => exact onPort h fun c u hu => flushThen_onlyPort hu
  case avail p => exact onPort h fun c u hu => idle hu
  case availw p => exact onPort h fun c u hu => idle hu
  case peek p => exact onPort h fun c u hu => by split at hu <;> exact idle hu
  case read p =>
    refine onPort h fun c u hu => ?_
    split at hu
    · exact idle hu
    · exact set hu
  case write p v =>
    refine onPort h fun c u hu => ?_
    split at hu <;> split at hu
    · exact writeBody_onlyPort hu
    · split at hu
      · simp at hu
      · exact writeBody_onlyPort hu
    · simp at hu
    · exact idle hu
  case flush p => exact onPort h fun c u hu => flushThen_onlyPort hu
  case usable p => exact onPort h fun c u hu => idle hu
  case pins p tx rx =>
    refine onPort h fun c u hu => ?_
    split at hu
    · exact idle hu
    · exact set hu
  case swap p idx =>
    refine onPort h fun c u hu => ?_
    split at hu
    · exact set hu
    · exact idle hu
  case rxc p => exact runHandler_onlyPort h
  case dre p => exact runHandler_onlyPort h
  case txc p => exact runHandler_onlyPort h
  all_goals
    simp only [execIrqsave, execIrqrest, execIsrenter, execIsrexit] at h
    first
    | (split at h <;> simp only [Host.Outcome.next.injEq] at h <;> subst h <;> rfl)
    | (simp only [Host.Outcome.next.injEq] at h; subst h; rfl)

/-- A spin changes no port but that of the blocked command (R167, R173). -/
theorem spin_onlyPort {s t : State} (h : spin s = .next t) :
    match s.seq with
    | .ready => t.ports = s.ports
    | .writeWait p _ => OnlyPort s p t
    | .flushWait p _ => OnlyPort s p t := by
  cases hs : s.seq with
  | ready => simp only [spin, hs, Host.Outcome.next.injEq] at h; subst h; rfl
  | writeWait p b =>
    simp only [spin, hs] at h
    split at h
    · exact writeTry_onlyPort h
    · simp at h
  | flushWait p k =>
    simp only [spin, hs] at h
    split at h
    · unfold flushSpin at h
      split at h
      · exact continueWith_onlyPort (s := s.unblock) h
      · simp only [Host.Outcome.next.injEq] at h; subst h; exact Or.inr ⟨_, rfl⟩
    · simp at h

end Sys2Proof.Machine
end

