-- ==== Sys2Proof/Tests/Slice0.lean ====
section
/-! SUPPORT. The model's own tests: WellFormed refuses ill-formed terms, the words of 95_test_vectors.md decode, one step per
test on small states with the spec's expected values, and a witness for the hypotheses of every obligation. -/

namespace Sys2Proof.Tests

open Sys2Proof Sys2Proof.Machine

/-! ### WellFormed: each check refuses an ill-formed term (30_encoding.md R105, T-ENC-12) -/

theorem test_wf_begin_port : Instr.wellFormed 2 (.beginPort 2#8 9600#32 3#16) = false := by decide
theorem test_wf_end_port : Instr.wellFormed 2 (.endPort 2#8) = false := by decide
theorem test_wf_avail_port : Instr.wellFormed 2 (.avail 2#8) = false := by decide
theorem test_wf_availw_port : Instr.wellFormed 2 (.availw 255#8) = false := by decide
theorem test_wf_peek_port : Instr.wellFormed 2 (.peek 2#8) = false := by decide
theorem test_wf_read_port : Instr.wellFormed 2 (.read 2#8) = false := by decide
theorem test_wf_write_port : Instr.wellFormed 2 (.write 2#8 0x41#32) = false := by decide
theorem test_wf_flush_port : Instr.wellFormed 2 (.flush 2#8) = false := by decide
theorem test_wf_usable_port : Instr.wellFormed 2 (.usable 2#8) = false := by decide
theorem test_wf_pins_port : Instr.wellFormed 2 (.pins 2#8 4#8 5#8) = false := by decide
theorem test_wf_swap_port : Instr.wellFormed 2 (.swap 2#8 1#8) = false := by decide
theorem test_wf_rxc_port : Instr.wellFormed 2 (.rxc 2#6) = false := by decide
theorem test_wf_dre_port : Instr.wellFormed 2 (.dre 63#6) = false := by decide
theorem test_wf_txc_port : Instr.wellFormed 2 (.txc 2#6) = false := by decide
theorem test_wf_accepts_last_port : Instr.wellFormed 2 (.endPort 1#8) = true ∧ Instr.wellFormed 2 .irqsave = true := by decide

/-! ### Decode: every constructor, from a word written out from R101 to R104 and 95_test_vectors.md -/

theorem test_decode_begin : decodeCommand 0x010100030001C200#64 = .ok (.beginPort 1#8 115200#32 3#16) := by decide
theorem test_decode_end : decodeCommand 0x0201000000000000#64 = .ok (.endPort 1#8) := by decide
theorem test_decode_avail : decodeCommand 0x0301000000000000#64 = .ok (.avail 1#8) := by decide
theorem test_decode_availw : decodeCommand 0x0401000000000000#64 = .ok (.availw 1#8) := by decide
theorem test_decode_peek : decodeCommand 0x0501000000000000#64 = .ok (.peek 1#8) := by decide
theorem test_decode_read : decodeCommand 0x0601000000000000#64 = .ok (.read 1#8) := by decide
theorem test_decode_write : decodeCommand 0x07010000000001FF#64 = .ok (.write 1#8 0x1FF#32) := by decide
theorem test_decode_flush : decodeCommand 0x0800000000000000#64 = .ok (.flush 0#8) := by decide
theorem test_decode_usable : decodeCommand 0x0901000000000000#64 = .ok (.usable 1#8) := by decide
theorem test_decode_pins : decodeCommand 0x0A0004FF00000000#64 = .ok (.pins 0#8 4#8 255#8) := by decide
theorem test_decode_swap : decodeCommand 0x0B01008000000000#64 = .ok (.swap 1#8 0x80#8) := by decide
theorem test_decode_irqsave : decodeCommand 0x1000000000000000#64 = .ok .irqsave := by decide
theorem test_decode_irqrest : decodeCommand 0x1100000100000000#64 = .ok (.irqrest true) ∧
    decodeCommand 0x1100000000000000#64 = .ok (.irqrest false) := by decide
theorem test_decode_isrenter : decodeCommand 0x1200000000000000#64 = .ok .isrenter := by decide
theorem test_decode_isrexit : decodeCommand 0x1300000000000000#64 = .ok .isrexit := by decide
theorem test_decode_rxc : decodeVector 0x04#8 = .ok (.rxc 1#6) := by decide
theorem test_decode_dre : decodeVector 0x05#8 = .ok (.dre 1#6) := by decide
theorem test_decode_txc : decodeVector 0x06#8 = .ok (.txc 1#6) := by decide

/-- T-ENC-9 to T-ENC-16, and the reserved vector ids of T-ENC-17. -/
theorem test_decode_illegal :
    decodeCommand 0x0000000000000000#64 = .error (.unknownOpcode 0x00#8) ∧
    decodeCommand 0x0C00000000000000#64 = .error (.unknownOpcode 0x0C#8) ∧
    decodeCommand 0x0200000000000001#64 = .error (.unusedField 0x02#8) ∧
    decodeCommand 0x0B01010000000000#64 = .error (.unusedField 0x0B#8) ∧
    decodeCommand 0x1100000200000000#64 = .error (.unusedField 0x11#8) ∧
    decodeCommand 0x1001000000000000#64 = .error (.unusedField 0x10#8) ∧
    decodeCommand 0x0700000100000041#64 = .error (.unusedField 0x07#8) ∧
    decodeVector 0x03#8 = .error .reservedVector ∧ decodeVector 0x07#8 = .error .reservedVector := by decide

/-- The encoder writes T-ENC-1, T-ENC-5 and the vector id of DRE(1). -/
theorem test_encode :
    encode (.beginPort 1#8 115200#32 3#16) = .command 0x010100030001C200#64 ∧
    encode (.pins 0#8 4#8 255#8) = .command 0x0A0004FF00000000#64 ∧
    encode (.dre 1#6) = .vector 0x05#8 := by decide

/-- T-ENC-2 and T-ENC-6 as text (R110). -/
theorem test_assemble :
    assemble "BEGIN" [0, 9600] = some (.beginPort 0#8 9600#32 3#16) ∧
    assemble "UNBIND" [1] = some (.swap 1#8 0x80#8) := by decide

/-- The host's two questions on one row of each kind. -/
theorem test_table_words :
    decodeTableWord 64 0x0301000000000000 = some (.avail 1#8) ∧ decodeTableWord 8 0x05 = some (.dre 1#6) := by decide

/-! ### Small states -/

/-- The table of port 0 in CFG-T. -/
def table : PortParams := { rows := [⟨0x00, 0#8, 2#8⟩, ⟨0x01, 4#8, 6#8⟩], muxNoneCode := 0x03, groupMask := 0x03 }

/-- The reset machine with another instance on port 0. -/
def stateWith (u : Port) : State := { State.reset with ports := [u, Port.reset] }

/-- Port 0 after `BEGIN 0, 9600, 0x0003`, as R163's example gives it. -/
def idlePort : Port :=
  { Port.reset with
    begun := true
    uart := { Periph.reset with ctrla := 0x80#8, ctrlb := 0xC0#8, ctrlc := 0x03#8, baud := 10000#16 } }

/-- Port 0 with 0x42 buffered, DREIE set and TXHOLD empty (T-XF-4). -/
def sendingPort : Port :=
  { idlePort with
    written := true
    txb := ⟨1, 0, [(0, 0x42#8)]⟩
    uart := { idlePort.uart with ctrla := 0xA0#8, txShift := some 0x41#8 }
    txLog := [0x41#8] }

/-- Port 0 with a full transmit buffer of 15 bytes and the data register full (T-XF-5). -/
def fullPort : Port :=
  { idlePort with
    written := true
    txb := ⟨15, 0, [(0, 0x61#8)]⟩
    uart := { idlePort.uart with ctrla := 0xA0#8, txHold := some 0x60#8 }
    txLog := [0x60#8] }

/-- The same with the data register empty (T-XF-7). -/
def fullReadyPort : Port := { fullPort with uart := { fullPort.uart with txHold := none, txShift := some 0x60#8 } }

/-- Port 0 after a burst of one byte: nothing left, TXCIF set (T-XF-3). -/
def sentPort : Port :=
  { idlePort with
    written := true
    uart := { idlePort.uart with txcif := true }
    txLog := [0x41#8]
    lineOut := [0x41#8] }

/-- Port 0 half duplex at the end of a burst, two entries in RXFIFO (T-IRQ-10). -/
def echoPort : Port :=
  { idlePort with
    written := true
    hd := true
    uart := { idlePort.uart with
      ctrla := 0x48#8, ctrlb := 0xC8#8, txcif := true, rxFifo := [⟨0x58#8, false, false⟩, ⟨0x5A#8, false, false⟩] }
    txLog := [0x58#8]
    lineOut := [0x58#8] }

/-- Port 0 with one received entry waiting. -/
def receivedPort (perr ferr : Bool) : Port :=
  { idlePort with uart := { idlePort.uart with rxFifo := [⟨0x55#8, perr, ferr⟩] } }

/-- The response a step leaves. -/
def answer : Result → Option Response
  | .next s => s.response
  | _ => none

/-- The state a step leaves. -/
def stateAfter : Result → Option State
  | .next s => some s
  | _ => none

/-- The instance of port 0 a step leaves. -/
def portAfter : Result → Option Port
  | .next s => s.ports[0]?
  | _ => none

/-! ### One step of each instruction, with the values of 95_test_vectors.md -/

/-- R163's example: the registers and the pins BEGIN writes. -/
theorem test_begin :
    portAfter (exec (.beginPort 0#8 9600#32 0x0003#16) State.reset) = some idlePort ∧
    (stateAfter (exec (.beginPort 0#8 9600#32 0x0003#16) State.reset)).map (fun t => (t.pin 0, t.pin 1, t.response)) =
      some (⟨.output, .off⟩, ⟨.input, .on⟩, some ⟨.ok, 0#16⟩) := by decide
/-- T-XF-16. -/
theorem test_begin_invalid :
    stateAfter (exec (.beginPort 0#8 0#32 0x0003#16) State.reset) = some { State.reset with response := some ⟨.fail, 0#16⟩ } := by decide
/-- T-XF-13: CTRLC and BAUD are kept. -/
theorem test_end :
    portAfter (exec (.endPort 0#8) (stateWith { receivedPort false false with rxb := ⟨3, 0, []⟩ })) =
      some { Port.reset with
        rxb := ⟨3, 3, []⟩
        uart := { Periph.reset with ctrlc := 0x03#8, baud := 10000#16 } } := by decide
/-- T-XF-12: END waits while DREIE is 1. -/
theorem test_end_waits :
    stateAfter (exec (.endPort 0#8) (stateWith sendingPort)) =
      some { stateWith sendingPort with seq := .flushWait 0 .thenEnd } := by decide
/-- T-CMD-1. -/
theorem test_avail : answer (exec (.avail 0#8) (stateWith { Port.reset with rxb := ⟨5, 2, []⟩ })) = some ⟨.ok, 3#16⟩ := by
  decide
/-- T-RB-7: the held bytes wrap. -/
theorem test_avail_wraps : answer (exec (.avail 0#8) (stateWith { Port.reset with rxb := ⟨2, 14, []⟩ })) = some ⟨.ok, 4#16⟩ := by
  decide
/-- T-CMD-2. -/
theorem test_availw : answer (exec (.availw 0#8) (stateWith { Port.reset with txb := ⟨9, 9, []⟩ })) = some ⟨.ok, 15#16⟩ := by
  decide
/-- T-CMD-3. -/
theorem test_peek :
    answer (exec (.peek 0#8) (stateWith { Port.reset with rxb := ⟨1, 0, [(0, 0x7E#8)]⟩ })) = some ⟨.ok, 0x7E#16⟩ := by decide
/-- T-CMD-4. -/
theorem test_peek_empty : answer (exec (.peek 0#8) State.reset) = some ⟨.ok, 0xFFFF#16⟩ := by decide
/-- T-CMD-6: 0xFF is not "empty". -/
theorem test_read :
    stateAfter (exec (.read 0#8) (stateWith { Port.reset with rxb := ⟨1, 0, [(0, 0xFF#8)]⟩ })) =
      some { stateWith { Port.reset with rxb := ⟨1, 1, [(0, 0xFF#8)]⟩ } with response := some ⟨.ok, 0x00FF#16⟩ } := by decide
/-- T-XF-1. -/
theorem test_write_fast :
    portAfter (exec (.write 0#8 0x41#32) (stateWith idlePort)) =
      some { idlePort with
        written := true, uart := { idlePort.uart with txHold := some 0x41#8 }, txLog := [0x41#8] } := by decide
/-- T-XF-7: a polling WRITE on a full buffer drains one byte and stays blocked. -/
theorem test_write_polls :
    stateAfter (exec (.write 0#8 0x51#32) (stateWith fullReadyPort)) =
      some { stateWith { fullReadyPort with
        txb := ⟨15, 1, [(0, 0x61#8)]⟩
        uart := { fullReadyPort.uart with txHold := some 0x61#8 }
        txLog := [0x60#8, 0x61#8] } with seq := .writeWait 0 0x51#8 } := by decide
/-- T-XF-10. -/
theorem test_flush : answer (exec (.flush 0#8) (stateWith idlePort)) = some ⟨.ok, 0#16⟩ := by decide
/-- T-XF-12. -/
theorem test_flush_waits : answer (exec (.flush 0#8) (stateWith { sendingPort with uart := { sendingPort.uart with txcif := true } })) = none := by
  decide
/-- T-CMD-7. -/
theorem test_usable : answer (exec (.usable 1#8) State.reset) = some ⟨.ok, 1#16⟩ := by decide
/-- T-ENC-12: a port that does not exist. -/
theorem test_illegal_port : answer (exec (.avail 2#8) State.reset) = some ⟨.illegal, 0#16⟩ := by decide
/-- R210's example. -/
theorem test_pins :
    answer (exec (.pins 0#8 4#8 5#8) State.reset) = some ⟨.ok, 1#16⟩ ∧
    answer (exec (.pins 0#8 9#8 10#8) State.reset) = some ⟨.fail, 0#16⟩ := by decide
/-- R211's example. -/
theorem test_swap :
    answer (exec (.swap 1#8 1#8) State.reset) = some ⟨.ok, 1#16⟩ ∧
    answer (exec (.swap 1#8 2#8) State.reset) = some ⟨.fail, 0#16⟩ ∧
    answer (exec (.swap 1#8 0x80#8) State.reset) = some ⟨.ok, 0x80#16⟩ := by decide
/-- T-SYS-1. -/
theorem test_irqsave :
    stateAfter (exec .irqsave { State.reset with gie := true }) = some { State.reset with response := some ⟨.ok, 1#16⟩ } := by decide
/-- T-SYS-1. -/
theorem test_irqrest :
    stateAfter (exec (.irqrest true) State.reset) = some { State.reset with gie := true, response := some ⟨.ok, 0#16⟩ } := by decide
/-- T-SYS-3. -/
theorem test_isrenter :
    answer (exec .isrenter State.reset) = some ⟨.ok, 0#16⟩ ∧
    answer (exec .isrenter { State.reset with iexec := true }) = some ⟨.fail, 0#16⟩ := by decide
/-- T-SYS-2. -/
theorem test_isrexit :
    answer (exec .isrexit State.reset) = some ⟨.fail, 0#16⟩ ∧
    stateAfter (exec .isrexit { State.reset with iexec := true }) = some { State.reset with response := some ⟨.ok, 0#16⟩ } := by decide
/-- T-IRQ-3: a framing error is ignored. -/
theorem test_rxc :
    portAfter (exec (.rxc 0#6) { stateWith (receivedPort false true) with gie := true }) =
      some { idlePort with rxb := ⟨1, 0, [(0, 0x55#8)]⟩ } := by decide
/-- T-IRQ-2: a parity error drops the byte. -/
theorem test_rxc_parity :
    portAfter (exec (.rxc 0#6) { stateWith (receivedPort true false) with gie := true }) = some idlePort := by decide
/-- T-XF-8: TXCIF is cleared, DREIE stays. -/
theorem test_dre :
    portAfter (exec (.dre 0#6)
      { stateWith { sendingPort with uart := { sendingPort.uart with txcif := true, txShift := none } } with gie := true }) =
      some { sendingPort with
        txb := ⟨1, 1, [(0, 0x42#8)]⟩
        uart := { sendingPort.uart with txHold := some 0x42#8, txShift := none }
        txLog := [0x41#8, 0x42#8] } := by decide
/-- T-IRQ-7: not dispatchable while GIE is 0. -/
theorem test_dre_masked : stateAfter (exec (.dre 0#6) (stateWith sendingPort)) = some (stateWith sendingPort) := by decide
/-- T-IRQ-10: RXFIFO emptied, CTRLA 0x88, TXCIF kept. -/
theorem test_txc :
    portAfter (exec (.txc 0#6) { stateWith echoPort with gie := true }) =
      some { echoPort with uart := { echoPort.uart with ctrla := 0x88#8, rxFifo := [] } } := by decide

/-! ### The line, the decoder, the divisor, the pins -/

/-- T-LN-4: the last byte sets TXCIF. -/
theorem test_line_shift_done :
    portAfter (runEvent (.lineShiftDone 0) (stateWith { sentPort with
      uart := { sentPort.uart with txcif := false, txShift := some 0x42#8 } })) =
      some { sentPort with lineOut := [0x41#8, 0x42#8] } := by decide
/-- T-LN-6: RXFIFO full, the byte is lost. -/
theorem test_line_rx_overflow :
    stateAfter (runEvent (.lineRx 0 0xA3#8 false false) (stateWith echoPort)) = some (stateWith echoPort) := by decide
/-- T-DEC-15 and T-DEC-16. -/
theorem test_decode_config :
    decodeConfig 0x8B03#16 = ⟨0x03#8, 0x0A#8, 0x48#8, false, true⟩ ∧ enableMask 0x8B03#16 = 0x1D#8 ∧
    decodeConfig 0xFFFF#16 = ⟨0xFB#8, 0x0B#8, 0x08#8, false, true⟩ ∧ enableMask 0xFFFF#16 = 0x1C#8 := by decide
/-- T-BAUD-6 and T-BAUD-12. -/
theorem test_divisor :
    standardDivisor 24000000 2000000 = some ⟨96#16, true⟩ ∧ standardDivisor 24000000 1464 = none := by decide
/-- T-PIN-11. -/
theorem test_apply_pins :
    ({ State.reset with route := 0xF0 }.applyPinConfiguration table ⟨0x01, 4#8, 6#8⟩ 0x0B#8).route = 0xF1 ∧
    ({ State.reset with route := 0xF0 }.applyPinConfiguration table ⟨0x01, 4#8, 6#8⟩ 0x0B#8).pins =
      [(4, ⟨.input, .on⟩), (5, ⟨.input, .on⟩)] := by decide
/-- A command word staged at reset is the next step; so is a vector id. -/
theorem test_staged :
    answer (step (State.reset.withFetchWord 64 0x0400000000000000)) = some ⟨.ok, 15#16⟩ ∧
    portAfter (step (State.reset.withFetchWord 8 0x01)) = some Port.reset := by decide

/-! ### Witnesses: the hypotheses of each obligation can be met -/

theorem legal16 : LegalCap 16 := ⟨4, by decide, by decide, rfl⟩

theorem wf_nil (h t : Nat) (hh : h < 16) (ht : t < 16) : (Machine.Ring.mk h t []).Wf 16 := ⟨hh, ht, rfl, by simp⟩

theorem wf_one (h t : Nat) (v : Byte) (hh : h < 16) (ht : t < 16) (hv : v ≠ 0#8) : (Machine.Ring.mk h t [(0, v)]).Wf 16 :=
  ⟨hh, ht, by simp [Memory.wf, sparseWf, sparseAbove, Memory.unlisted, hv], by simp⟩

theorem cfgT_wf : Config.cfgT.Wf := by
  refine ⟨by decide, by decide, legal16, legal16, by decide, by decide, by decide, ?_, ?_⟩
  · intro t ht
    simp only [Config.cfgT, List.mem_cons, List.not_mem_nil, or_false] at ht
    rcases ht with rfl | rfl
    · exact ⟨by decide, by decide, by decide, by decide, by decide, by decide⟩
    · exact ⟨by decide, by decide, by decide, by decide, by decide, by decide⟩
  · intro p q t t' hne h1 h2
    match p, q with
    | 0, 0 => exact absurd rfl hne
    | 1, 1 => exact absurd rfl hne
    | 0, 1 => cases h1; cases h2; decide
    | 1, 0 => cases h1; cases h2; decide
    | p + 2, _ => simp [Config.cfgT] at h1
    | _, q + 2 => simp [Config.cfgT] at h2

/-- An instance that has no buffered byte, no enable other than those of its half-duplex state, and is begun. -/
theorem portInv_begun (t : PortParams) (u : Port) (ht : 1 ≤ t.rows.length) (hp : u.pgi = 0#8) (hb : u.begun = true)
    (hw : u.written = true) (hr : u.rxb = Machine.Ring.reset) (htx : u.txb.Wf 16) (hd : u.uart.dreie = true)
    (hi : u.uart.txcie = true → u.hd = true) (hf : u.uart.rxFifo.length ≤ 2)
    (hres : u.uart.ctrla &&& 0x14#8 = 0#8 ∧ u.uart.ctrlb &&& 0x35#8 = 0#8 ∧ u.uart.ctrlc &&& 0x04#8 = 0#8) :
    PortInv Config.cfgT t u := by
  refine ⟨?_, htx, Or.inl ?_, fun _ => ⟨hw, hb⟩, fun _ => hb, hi, ?_, fun _ => hd, fun _ => hf, hres⟩
  · rw [hr]; exact wf_nil 0 0 (by decide) (by decide)
  · rw [hp]; exact ht
  · intro h; simp [hb] at h

theorem portInv_reset (t : PortParams) (ht : 1 ≤ t.rows.length) : PortInv Config.cfgT t Port.reset := by
  refine ⟨wf_nil 0 0 (by decide) (by decide), wf_nil 0 0 (by decide) (by decide), Or.inl ht, ?_, ?_, ?_, ?_, ?_, ?_, ?_⟩
  all_goals simp [Port.reset, Machine.Ring.reset, Periph.reset, Periph.dreie, Periph.txcie]

theorem lineInv_reset : PortLineInv Port.reset := by
  refine ⟨?_, ?_, ?_, ?_, ?_, ?_⟩ <;> simp [Port.reset, Machine.Ring.reset, Periph.reset]

/-- What a state of CFG-T with `u` on port 0 needs for the invariants. -/
theorem inv_of_port {s : State} {u : Port} (hp : s.params = Config.cfgT) (hq : s.ports = [u, Port.reset])
    (hr : s.route = 0) (hs : s.SeqInv) (hu : PortInv Config.cfgT table u) (hl : PortLineInv u) : s.Inv ∧ s.LineInv := by
  have hcase : ∀ p t v, s.lookup p = some (t, v) → (t = table ∧ v = u) ∨ (1 ≤ t.rows.length ∧ v = Port.reset) := by
    intro p t v h
    rw [State.lookup_eq_some, hp, hq] at h
    obtain ⟨h1, h2⟩ := h
    match p with
    | 0 => cases h1; cases h2; exact Or.inl ⟨rfl, rfl⟩
    | 1 => cases h1; cases h2; exact Or.inr ⟨by decide, rfl⟩
    | p + 2 => simp at h2
  refine ⟨⟨hp ▸ cfgT_wf, by rw [hq, hp]; rfl, by rw [hr]; exact Nat.two_pow_pos _, hs, ?_⟩, ?_⟩
  · intro p t v h
    rw [hp]
    rcases hcase p t v h with ⟨rfl, rfl⟩ | ⟨ht, rfl⟩
    · exact hu
    · exact portInv_reset t ht
  · intro p t v h
    rcases hcase p t v h with ⟨rfl, rfl⟩ | ⟨ht, rfl⟩
    · exact hl
    · exact lineInv_reset

theorem sending_line : PortLineInv sendingPort := by
  refine ⟨?_, ?_, ?_, ?_, ?_, ?_⟩ <;> simp [sendingPort, idlePort, Port.reset, Machine.Ring.reset, Periph.reset]

theorem sending_inv : PortInv Config.cfgT table sendingPort := by
  refine portInv_begun _ _ (by decide) rfl rfl rfl rfl (wf_one 1 0 _ (by decide) (by decide) (by decide)) ?_ ?_ (by decide) ?_ <;> decide

theorem full_line : PortLineInv fullPort := by
  refine ⟨?_, ?_, ?_, ?_, ?_, ?_⟩ <;> simp [fullPort, idlePort, Port.reset, Machine.Ring.reset, Periph.reset]

theorem full_inv : PortInv Config.cfgT table fullPort := by
  refine portInv_begun _ _ (by decide) rfl rfl rfl rfl (wf_one 15 0 _ (by decide) (by decide) (by decide)) ?_ ?_ (by decide) ?_ <;> decide

theorem sent_line : PortLineInv sentPort := by
  refine ⟨?_, ?_, ?_, ?_, ?_, ?_⟩ <;> simp [sentPort, idlePort, Port.reset, Machine.Ring.reset, Periph.reset]

theorem sent_inv : PortInv Config.cfgT table sentPort := by
  refine ⟨wf_nil 0 0 (by decide) (by decide), wf_nil 0 0 (by decide) (by decide), Or.inl (by decide), ?_, ?_, ?_, ?_, ?_, ?_, ?_⟩
  all_goals simp [sentPort, idlePort, Port.reset, Machine.Ring.reset, Periph.reset, Periph.dreie, Periph.txcie]

theorem echo_line : PortLineInv echoPort := by
  refine ⟨?_, ?_, ?_, ?_, ?_, ?_⟩ <;> simp [echoPort, idlePort, Port.reset, Machine.Ring.reset, Periph.reset, Periph.rxcie]

theorem echo_inv : PortInv Config.cfgT table echoPort := by
  refine ⟨wf_nil 0 0 (by decide) (by decide), wf_nil 0 0 (by decide) (by decide), Or.inl (by decide), ?_, ?_, ?_, ?_, ?_, ?_, ?_⟩
  all_goals simp [echoPort, idlePort, Port.reset, Machine.Ring.reset, Periph.reset, Periph.dreie, Periph.txcie, Config.cfgT]

/-- Rings at the boundaries of the clauses of the ring obligations: full at the end of the array, empty, wrapped. -/
theorem witness_ring : LegalCap 16 ∧
    (Machine.Ring.mk 15 0 []).Wf 16 ∧ (15 + 1) % 16 = 0 ∧ (Machine.Ring.mk 15 3 []).Wf 16 ∧ (15 + 1) % 16 ≠ 3 ∧
    (Machine.Ring.mk 7 7 []).Wf 16 ∧ (Machine.Ring.mk 0 15 []).Wf 16 ∧ (Machine.Ring.mk 2 14 []).Wf 16 :=
  ⟨legal16, wf_nil _ _ (by decide) (by decide), by decide, wf_nil _ _ (by decide) (by decide), by decide,
    wf_nil _ _ (by decide) (by decide), wf_nil _ _ (by decide) (by decide), wf_nil _ _ (by decide) (by decide)⟩

/-- PushAppendsPopRemovesOldest: a push and a pop that succeed. -/
theorem witness_push_pop :
    (Machine.Ring.mk 15 14 [(14, 1#8)]).tryPush 16 2#8 = some ⟨0, 14, [(14, 1#8), (15, 2#8)]⟩ ∧
    (Machine.Ring.mk 0 15 [(15, 2#8)]).tryPop 16 = some (2#8, ⟨0, 0, [(15, 2#8)]⟩) := by decide

/-- RingBufferIsFifo: an empty buffer in the middle of the array, and cap - 1 bytes. -/
theorem witness_fifo : LegalCap 16 ∧ (Machine.Ring.mk 14 14 []).Wf 16 ∧ (List.replicate 15 (1#8 : Byte)).length ≤ 16 - 1 :=
  ⟨legal16, wf_nil _ _ (by decide) (by decide), by decide⟩

/-- IllegalWordsChangeNothing: a word that selects no row, and one whose port does not exist. -/
theorem witness_illegal :
    (∀ r ∈ commandTable, 0x0200000000000001#64 &&& r.mask ≠ r.pattern) ∧
    (decodeCommand 0x0302000000000000#64 = .ok (.avail 2#8) ∧ (Instr.avail 2#8).port? = some 2 ∧
      State.reset.params.nports ≤ 2) := by decide

/-- DecodeEncodeAgree relates something: a word and its instruction. -/
theorem witness_decode : decode (.command 0x0301000000000000#64) = .ok (.avail 1#8) ∧
    encode (.avail 1#8) = .command 0x0301000000000000#64 := by decide

/-- StepRunsDecodedInstruction and StagedWordRunsNext: a Host turn and an Irq turn. -/
theorem witness_step :
    (let s := { State.reset with program := [0x0300000000000000#64], inputs := [.host] }
     s.nextEvent = .host ∧ s.seq = .ready ∧ s.program = 0x0300000000000000#64 :: [] ∧
       decodeCommand 0x0300000000000000#64 = .ok (.avail 0#8)) ∧
    (let s := { State.reset with inputs := [.irq 0x05#8] }
     s.nextEvent = .irq 0x05#8 ∧ decodeVector 0x05#8 = .ok (.dre 1#6)) ∧
    decodeTableWord 64 0x0300000000000000 = some (.avail 0#8) := by decide

/-- PseudoInstructionsExpand: two operands with the same low byte. -/
theorem witness_narrowing : (0x1FF#32 : Long).setWidth 8 = (0xFF#32 : Long).setWidth 8 := by decide

/-- RegisterAccessSideEffects: an entry waiting. -/
theorem witness_rxdata : (receivedPort true false).uart.rxFifo = ⟨0x55#8, true, false⟩ :: [] := by decide

/-- AVAIL, AVAILW, PEEK, READ, USABLE: an existing port, with rings on both sides of each clause. -/
theorem witness_receive :
    (stateWith { Port.reset with rxb := ⟨1, 0, [(0, 0x7E#8)]⟩ }).lookup (0#8 : Byte).toNat =
      some (table, { Port.reset with rxb := ⟨1, 0, [(0, 0x7E#8)]⟩ }) ∧
    (Machine.Ring.mk 1 0 [(0, 0x7E#8)]).Wf 16 ∧ (Machine.Ring.mk 1 0 [(0, 0x7E#8)]).held 16 = 0x7E#8 :: [] ∧
    (stateWith Port.reset).lookup (0#8 : Byte).toNat = some (table, Port.reset) ∧ Port.reset.rxb.held 16 = [] ∧
    Port.reset.rxb.Wf 16 ∧ Port.reset.txb.Wf 16 ∧ State.reset.params.rxCap = 16 ∧ State.reset.params.txCap = 16 :=
  ⟨by decide, wf_one 1 0 _ (by decide) (by decide) (by decide), by decide, by decide, by decide,
    wf_nil 0 0 (by decide) (by decide), wf_nil 0 0 (by decide) (by decide), rfl, rfl⟩

/-- BindingCommandsWritePinGroup: a pair and an index on each side of each clause. -/
theorem witness_binding :
    resolveMuxFromPins table 9#8 10#8 = NOT_A_MUX ∧ resolveMuxFromPins table 4#8 5#8 ≠ NOT_A_MUX ∧
    (1#8 : Byte).toNat < table.rows.length ∧ (0x80#8 : Byte) = 0x80#8 ∧
    table.rows.length ≤ (2#8 : Byte).toNat ∧ (2#8 : Byte) ≠ 0x80#8 := by decide

/-- BeginConfiguresPort and BeginFailsOnInvalidBaud: both bindings, both rates, both transfer states, each flush-done case. -/
theorem witness_begin :
    State.reset.lookup (0#8 : Byte).toNat = some (table, Port.reset) ∧ Port.reset.begun = false ∧
    baudDivisor State.reset.params (9600#32 : Long).toNat = some ⟨10000#16, false⟩ ∧
    Port.reset.pgi ≠ 0x80#8 ∧ table.rows[Port.reset.pgi.toNat]? = some ⟨0x00, 0#8, 2#8⟩ ∧
    (stateWith { Port.reset with pgi := 0x80#8 }).lookup (0#8 : Byte).toNat = some (table, { Port.reset with pgi := 0x80#8 }) ∧
    baudDivisor State.reset.params (0#32 : Long).toNat = none ∧
    (stateWith idlePort).lookup (0#8 : Byte).toNat = some (table, idlePort) ∧ idlePort.begun = true ∧ idlePort.written = false ∧
    (stateWith sentPort).lookup (0#8 : Byte).toNat = some (table, sentPort) ∧
    sentPort.uart.ctrla.getLsbD 5 = false ∧ sentPort.uart.txcif = true := by decide

/-- BeginRestartsLikeEndThenBegin, FlushCompletesOrWaits, EndShutsDownPort, EndIsIdempotent: done and not done. -/
theorem witness_flush :
    (stateWith sentPort).lookup (0#8 : Byte).toNat = some (table, sentPort) ∧ sentPort.begun = true ∧
    sentPort.uart.ctrla.getLsbD 5 = false ∧ sentPort.uart.txcif = true ∧
    (stateWith sendingPort).lookup (0#8 : Byte).toNat = some (table, sendingPort) ∧ sendingPort.begun = true ∧
    sendingPort.written = true ∧ ¬ (sendingPort.uart.ctrla.getLsbD 5 = false ∧ sendingPort.uart.txcif = true) := by decide

/-- EndIsIdempotent: an END that completes at once or in a spin, and a BEGIN that answers OK. -/
theorem witness_end_twice :
    (∃ t, exec (.endPort 0#8) (stateWith sentPort) = .next t) ∧
    (∃ t, spin { stateWith sentPort with seq := .flushWait 0 .thenEnd } = .next t ∧ t.seq = .ready) ∧
    (∃ t, exec (.beginPort 0#8 9600#32 3#16) (stateWith Port.reset) = .next t ∧ t.response = some ⟨.ok, 0#16⟩) ∧
    Port.reset.txb.head = Port.reset.txb.tail :=
  ⟨⟨_, rfl⟩, ⟨_, rfl, rfl⟩, ⟨_, rfl, rfl⟩, rfl⟩

/-- WriteFastPath and WritePushesOntoBuffer. -/
theorem witness_write :
    (stateWith idlePort).lookup (0#8 : Byte).toNat = some (table, idlePort) ∧ idlePort.begun = true ∧
    idlePort.uart.ctrlb.getLsbD 6 = true ∧ idlePort.uart.ctrla &&& 0x14#8 = 0#8 ∧
    idlePort.txb.head = idlePort.txb.tail ∧ idlePort.uart.txHold = none ∧
    (stateWith sendingPort).lookup (0#8 : Byte).toNat = some (table, sendingPort) ∧ sendingPort.begun = true ∧
    sendingPort.uart.ctrlb.getLsbD 6 = true ∧ sendingPort.uart.ctrla &&& 0x14#8 = 0#8 ∧ sendingPort.txb.Wf 16 ∧
    ¬ (sendingPort.txb.head = sendingPort.txb.tail ∧ sendingPort.uart.txHold = none) ∧
    (sendingPort.txb.head + 1) % 16 ≠ sendingPort.txb.tail :=
  ⟨by decide, by decide, by decide, by decide, by decide, by decide, by decide, by decide, by decide, by decide,
    sending_inv.tx, by decide, by decide⟩

/-- FullBufferBlocksWrite: a full buffer, with and without a poll, and a blocked WRITE that finds a slot. -/
theorem witness_full :
    (stateWith fullPort).lookup (0#8 : Byte).toNat = some (table, fullPort) ∧ fullPort.txb.Wf 16 ∧ fullPort.begun = true ∧
    fullPort.uart.ctrlb.getLsbD 6 = true ∧ (fullPort.txb.head + 1) % 16 = fullPort.txb.tail ∧
    fullPort.uart.ctrla &&& 0x14#8 = 0#8 ∧
    (let s := { stateWith fullPort with seq := .writeWait 0 0x51#8 }
     s.seq = .writeWait 0 0x51#8 ∧ s.lookup 0 = some (table, fullPort) ∧ s.gie = false) ∧
    (let s := { stateWith sendingPort with seq := .writeWait 0 0x51#8 }
     s.seq = .writeWait 0 0x51#8 ∧ s.lookup 0 = some (table, sendingPort)) ∧
    sendingPort.txb.Wf 16 ∧ (sendingPort.txb.head + 1) % 16 ≠ sendingPort.txb.tail :=
  ⟨by decide, full_inv.tx, by decide, by decide, by decide, by decide, by decide, by decide, sending_inv.tx, by decide⟩

/-- A port with its transmitter off. -/
def txOff (u : Port) : Port := { u with uart := { u.uart with ctrlb := 0x80#8 } }

/-- MisusedWriteRefusedOrTotal: each treatment, not begun and begun with the transmitter off; in the total machine TXHOLD
empty, TXHOLD full and the buffer full; and a byte that stays in TXHOLD. -/
theorem witness_misuse :
    (stateWith Port.reset).lookup (0#8 : Byte).toNat = some (table, Port.reset) ∧ Port.reset.begun = false ∧
    State.reset.params.misuse = .total ∧
    (let s := { stateWith (txOff idlePort) with params := { Config.cfgT with misuse := .refuse } }
     s.lookup (0#8 : Byte).toNat = some (table, txOff idlePort) ∧ s.params.misuse = .refuse) ∧
    ((stateWith (txOff idlePort)).lookup (0#8 : Byte).toNat = some (table, txOff idlePort) ∧
      (txOff idlePort).begun = true ∧ (txOff idlePort).uart.ctrlb.getLsbD 6 = false ∧
      (txOff idlePort).uart.ctrla &&& 0x14#8 = 0#8 ∧ (txOff idlePort).txb.Wf 16 ∧
      (txOff idlePort).txb.head = (txOff idlePort).txb.tail ∧ (txOff idlePort).uart.txHold = none) ∧
    ((stateWith (txOff sendingPort)).lookup (0#8 : Byte).toNat = some (table, txOff sendingPort) ∧
      ((txOff sendingPort).txb.head + 1) % 16 ≠ (txOff sendingPort).txb.tail ∧
      ¬ ((txOff sendingPort).txb.head = (txOff sendingPort).txb.tail ∧ (txOff sendingPort).uart.txHold = none)) ∧
    (((txOff fullPort).txb.head + 1) % 16 = (txOff fullPort).txb.tail ∧ (txOff fullPort).txb.Wf 16 ∧
      (txOff fullPort).uart.ctrlb.getLsbD 6 = false ∧ (txOff fullPort).uart.txShift = none ∧
      (txOff fullPort).uart.txHold = some 0x60#8) :=
  ⟨by decide, by decide, by decide, by decide,
    ⟨by decide, by decide, by decide, by decide, wf_nil 0 0 (by decide) (by decide), by decide, by decide⟩,
    by decide, by decide, wf_one 15 0 _ (by decide) (by decide) (by decide), by decide, by decide, by decide⟩

/-- FlushSpinIteration: done, waiting, and polling. -/
theorem witness_flush_spin :
    (let s := { stateWith sentPort with seq := .flushWait 0 .thenEnd }
     s.seq = .flushWait 0 .thenEnd ∧ s.lookup 0 = some (table, sentPort) ∧
       sentPort.uart.ctrla.getLsbD 5 = false ∧ sentPort.uart.txcif = true) ∧
    (let s := { stateWith sendingPort with seq := .flushWait 0 .done }
     s.lookup 0 = some (table, sendingPort) ∧ s.gie = false ∧ sendingPort.uart.txHold = none ∧
       ¬ (sendingPort.uart.ctrla.getLsbD 5 = false ∧ sendingPort.uart.txcif = true)) ∧
    (let s := { stateWith sendingPort with seq := .flushWait 0 .done, gie := true }
     s.lookup 0 = some (table, sendingPort) ∧
       ¬ ((s.gie = false ∨ s.iexec = true) ∧ sendingPort.uart.txHold = none)) := by decide

/-- RxcHandlerStoresByte, DreHandlerDrainsOneByte, TxcHandlerReturnsToReceive: each source dispatchable. -/
theorem witness_handlers :
    ({ stateWith (receivedPort false false) with gie := true }.lookup (0#6 : BitVec 6).toNat = some (table, receivedPort false false) ∧
      (receivedPort false false).uart.ctrla.getLsbD 7 = true ∧
      (receivedPort false false).uart.rxFifo = ⟨0x55#8, false, false⟩ :: [] ∧
      (receivedPort true false).uart.rxFifo = ⟨0x55#8, true, false⟩ :: []) ∧
    ({ stateWith sendingPort with gie := true }.lookup (0#6 : BitVec 6).toNat = some (table, sendingPort) ∧
      sendingPort.uart.ctrla.getLsbD 5 = true ∧ sendingPort.uart.txHold = none ∧ sendingPort.uart.rxFifo = [] ∧
      sendingPort.uart.ctrla &&& 0x14#8 = 0#8 ∧ sendingPort.txb.head ≠ sendingPort.txb.tail) ∧
    ({ stateWith echoPort with gie := true }.lookup (0#6 : BitVec 6).toNat = some (table, echoPort) ∧
      echoPort.uart.ctrla.getLsbD 6 = true ∧ echoPort.uart.txcif = true ∧ echoPort.uart.ctrla.getLsbD 7 = false ∧
      echoPort.uart.ctrla.getLsbD 5 = false ∧ echoPort.uart.ctrla &&& 0x14#8 = 0#8) := by decide

/-- RxcHandlerStoresByte: a byte without a parity error that meets a full buffer. -/
theorem witness_rxc_full :
    (let u := { receivedPort false false with rxb := ⟨15, 0, []⟩ }
     let s := { stateWith u with gie := true }
     s.lookup (0#6 : BitVec 6).toNat = some (table, u) ∧ s.gie = true ∧ s.iexec = false ∧
       u.uart.ctrla.getLsbD 7 = true ∧ u.uart.rxFifo = ⟨0x55#8, false, false⟩ :: [] ∧
       (u.rxb.head + 1) % s.params.rxCap = u.rxb.tail) ∧
    (Machine.Ring.mk 15 0 []).Wf 16 :=
  ⟨by decide, wf_nil 15 0 (by decide) (by decide)⟩

/-- HandlersRunOnlyWhenDispatchable: GIE 0, and a TXC source below a pending DRE (T-IRQ-9). -/
theorem witness_masked :
    (stateWith sendingPort).lookup (0#6 : BitVec 6).toNat = some (table, sendingPort) ∧ (stateWith sendingPort).gie = false ∧
    (let u := { echoPort with txb := ⟨1, 0, [(0, 0x59#8)]⟩, uart := { echoPort.uart with ctrla := 0x68#8 } }
     stateAfter (exec (.txc 0#6) { stateWith u with gie := true }) = some { stateWith u with gie := true }) := by decide

/-- ResolverFindsFirstRow, ResolverAdjacentPair: a matching row, no row, and a legal table. -/
theorem witness_resolver :
    table.rows.length ≤ 127 ∧ table.rows[1]? = some ⟨0x01, 4#8, 6#8⟩ ∧ table.rows[0]? = some ⟨0x00, 0#8, 2#8⟩ ∧
    (∀ r ∈ table.rows, r.txPin ≠ 9#8) ∧ table.Wf Config.cfgT :=
  ⟨by decide, by decide, by decide, by decide, cfgT_wf.tables table (by simp [table, Config.cfgT])⟩

/-- RouteWriteIsGated: two disjoint masks. PinConfigurationTable: the last transmit pin R36 allows, and a row without pins. -/
theorem witness_pins :
    (0x03 &&& 0x0C : Nat) = 0 ∧ sparseWf PinCfg.unlisted State.reset.pins = true ∧
    ((251#8 : Byte) ≠ 0xFF#8 ∧ (251#8 : Byte).toNat + State.reset.params.xdirOffset ≤ 254 ∧ (251#8 : Byte).toNat + 1 ≤ 254) ∧
    (NOT_A_PIN = 0xFF#8) := by decide

/-- DoubleSpeedAboveBound, DefaultDivisorRoundsToNearest: a rate on each side of the bound (T-BAUD-5, T-BAUD-7). -/
theorem witness_divisor :
    Config.cfgT.divisor = .standard ∧ baudDivisor Config.cfgT 1500000 = some ⟨64#16, false⟩ ∧
    baudDivisor Config.cfgT 3000000 = some ⟨64#16, true⟩ := by decide

/-- LineStepsOfReferencePeripheral and BoundaryEnvironmentSteps: each step possible, the append on a full RXFIFO too. -/
theorem witness_line :
    (stateWith fullPort).params.line = .reference ∧ (stateWith fullPort).lookup 0 = some (table, fullPort) ∧
    fullPort.uart.ctrlb.getLsbD 6 = true ∧ fullPort.uart.txShift = none ∧ fullPort.uart.txHold = some 0x60#8 ∧
    (stateWith sendingPort).lookup 0 = some (table, sendingPort) ∧ sendingPort.uart.txShift = some 0x41#8 ∧
    (let s := { stateWith echoPort with params := { Config.cfgT with line := .boundary } }
     s.params.line = .boundary ∧ s.lookup 0 = some (table, echoPort) ∧
       echoPort.uart.rxFifo.length = s.params.rxFifoDepth) := by decide

/-- ResetMeetsInvariants: a legal configuration. -/
theorem witness_params : Config.cfgT.Wf := cfgT_wf

/-- StepKeepsStateInvariant, StepKeepsLineInvariant, StepKeepsCanonicalMemory, StepNeverFaults, TransmitOrderIsWriteOrder: a
state of the invariants that takes a step which sends a byte. -/
theorem witness_invariants :
    let s := { stateWith sendingPort with gie := true, inputs := [.irq 0x01#8] }
    s.Inv ∧ s.LineInv ∧ s.memoryWf = true ∧ s.params.line = .reference ∧ s.params.misuse = .total ∧ ∃ t, step s = .next t := by
  intro s
  have h := inv_of_port (s := s) (u := sendingPort) rfl rfl rfl trivial sending_inv sending_line
  exact ⟨h.1, h.2, by decide, rfl, rfl, _, rfl⟩

/-- EchoNeverReachesReceiveBuffer: a half-duplex port whose TXC handler sets RXCIE. -/
theorem witness_echo :
    let s := { stateWith echoPort with gie := true, inputs := [.irq 0x02#8] }
    s.Inv ∧ s.LineInv ∧ s.params.line = .reference ∧ ∃ t, step s = .next t := by
  intro s
  have h := inv_of_port (s := s) (u := echoPort) rfl rfl rfl trivial echo_inv echo_line
  exact ⟨h.1, h.2, rfl, _, rfl⟩

/-- CompletedFlushHasDrained: a blocked flush whose spin completes. -/
theorem witness_flush_completes :
    let s := { stateWith sentPort with seq := .flushWait 0 .done, inputs := [.host] }
    s.Inv ∧ s.LineInv ∧ s.params.line = .reference ∧ s.seq = .flushWait 0 .done ∧ ∃ t, step s = .next t ∧ t.seq ≠ s.seq := by
  intro s
  have h := inv_of_port (s := s) (u := sentPort) rfl rfl rfl ⟨table, sentPort, rfl, rfl, rfl⟩ sent_inv sent_line
  exact ⟨h.1, h.2, rfl, rfl, { stateWith sentPort with response := some ⟨.ok, 0#16⟩ }, rfl, by decide⟩

/-- PolledWaitsTerminate: a blocked FLUSH with one byte buffered, and a blocked WRITE on a full buffer. -/
theorem witness_polled :
    (let s := { stateWith sendingPort with
        seq := .flushWait 0 .done, inputs := (List.replicate 3 (drainRound 0)).flatten ++ [] }
     s.Inv ∧ s.LineInv ∧ s.params.line = .reference ∧ s.gie = false ∧ s.lookup 0 = some (table, sendingPort) ∧
       sendingPort.uart.ctrlb.getLsbD 6 = true ∧ sendingPort.txb.available s.params.txCap + 2 = 3) ∧
    (let s := { stateWith fullPort with
        seq := .writeWait 0 0x51#8, inputs := (List.replicate 2 (drainRound 0)).flatten ++ [] }
     s.Inv ∧ s.LineInv ∧ s.params.line = .reference ∧ s.gie = false ∧ s.lookup 0 = some (table, fullPort) ∧
       fullPort.uart.ctrlb.getLsbD 6 = true) := by
  constructor
  · intro s
    have h := inv_of_port (s := s) (u := sendingPort) rfl rfl rfl ⟨table, sendingPort, rfl, rfl, rfl⟩ sending_inv sending_line
    exact ⟨h.1, h.2, rfl, rfl, rfl, by decide, by decide⟩
  · intro s
    have h := inv_of_port (s := s) (u := fullPort) rfl rfl rfl ⟨table, fullPort, rfl, rfl, rfl⟩ full_inv full_line
    exact ⟨h.1, h.2, rfl, rfl, rfl, by decide⟩

/-- BlockedHostIssuesNothing: a blocked Host that spins. -/
theorem witness_blocked :
    let s := { stateWith fullPort with seq := .writeWait 0 0x51#8, inputs := [.host] }
    s.seq ≠ .ready ∧ ∃ t, step s = .next t := ⟨by decide, _, rfl⟩

/-- SystemStateHasItsOwners, BuffersHaveTheirOwners, TxdataWriteClearsCompletion: steps that change GIE, a binding, each
buffer and TXLOG. -/
theorem witness_owners :
    (∃ t, step (State.reset.withFetchWord 64 0x1100000100000000) = .next t ∧ t.gie ≠ State.reset.gie) ∧
    (∃ t, step (State.reset.withFetchWord 64 0x1200000000000000) = .next t ∧ t.iexec ≠ State.reset.iexec) ∧
    (∃ t u, step (State.reset.withFetchWord 64 0x0B00000100000000) = .next t ∧ t.ports[0]? = some u ∧ u.pgi ≠ 0#8) ∧
    (∃ t u, step { stateWith (receivedPort false false) with gie := true, inputs := [.irq 0x00#8] } = .next t ∧
      t.ports[0]? = some u ∧ u.rxb.head ≠ 0) ∧
    (∃ t u, step ((stateWith idlePort).withFetchWord 64 0x0700000000000041) = .next t ∧
      t.ports[0]? = some u ∧ u.txLog ≠ []) :=
  ⟨⟨_, rfl, by decide⟩, ⟨_, rfl, by decide⟩, ⟨_, _, rfl, rfl, by decide⟩, ⟨_, _, rfl, rfl, by decide⟩,
    ⟨_, _, rfl, rfl, by decide⟩⟩

/-- RoutingChangesOnlyInBegin: a BEGIN that changes ROUTE. StepTouchesOnePort: a line step. -/
theorem witness_routing :
    (∃ t, step ({ stateWith { Port.reset with pgi := 0x80#8 } with route := 0xF0 }.withFetchWord 64 0x0100000300002580) = .next t ∧
      t.route ≠ 0xF0) ∧ 0xF0 < 2 ^ State.reset.params.routeWidth ∧
    (∃ t, runEvent (.lineShiftDone 0) (stateWith sendingPort) = .next t ∧ t.ports ≠ (stateWith sendingPort).ports) :=
  ⟨⟨_, rfl, by decide⟩, by decide, ⟨_, rfl, by decide⟩⟩

/-- StepTouchesOnePort: each kind of turn names its port and changes it; one that names none. -/
theorem witness_turn_port :
    (let s := (stateWith idlePort).withFetchWord 64 0x0700000000000041
     s.turnPort = some 0 ∧ portAfter (step s) ≠ some idlePort) ∧
    (let s := { stateWith sendingPort with seq := .flushWait 0 .done, inputs := [.host] }
     s.turnPort = some 0 ∧ portAfter (step s) ≠ some sendingPort) ∧
    (let s := { stateWith sendingPort with gie := true, inputs := [.irq 0x01#8] }
     s.turnPort = some 0 ∧ portAfter (step s) ≠ some sendingPort) ∧
    (let s := { stateWith sendingPort with inputs := [.lineShiftDone 0] }
     s.turnPort = some 0 ∧ portAfter (step s) ≠ some sendingPort) ∧
    ((stateWith idlePort).withFetchWord 64 0x1000000000000000).turnPort = none := by decide

end Sys2Proof.Tests
end

section
/-! SUPPORT. What one step can do to one port, in terms of the state before the step. -/

namespace Sys2Proof.Machine

open Sys2Proof

/-- The rule of a Host step looks at the parameters, the two interrupt bits and the sequencer only. -/
theorem HostChange.congr {s s' : State} {p : Nat} {c : PortParams} {u u' : Port} {q : Seq}
    (hp : s'.params = s.params) (hg : s'.gie = s.gie) (hi : s'.iexec = s.iexec) (hs : s'.seq = s.seq)
    (h : HostChange s p c u u' q) : HostChange s' p c u u' q := by
  have must : s.mustPoll = s'.mustPoll := by simp only [State.mustPoll, hg, hi]
  have poll : ∀ v : Port, s.pollPort v = s'.pollPort v := fun v => by simp only [State.pollPort, must, hp]
  cases h with
  | popped v r h => rw [← hs]; exact .popped v r (hp ▸ h)
  | bound idx h => rw [← hs]; exact .bound idx h
  | configured d cfg h => rw [← hs]; exact .configured d cfg h
  | ended _ hf hq => exact .ended _ hf (hs ▸ hq)
  | reconfigured d cfg _ hf hq => exact .reconfigured d cfg _ hf (hs ▸ hq)
  | fast b hb he hd => rw [← hs]; exact .fast b hb he hd
  | pushed b hb ha => rw [← hp] at ha ⊢; exact .pushed b hb ha
  | pushedLate b hw ha => rw [← hp] at ha ⊢; exact .pushedLate b (hs ▸ hw) ha
  | blocked b hb ha => rw [poll]; exact .blocked b hb (hp ▸ ha)
  | polled h => rw [poll, ← hs]; exact .polled (hs ▸ h)

/-- A handler or an environment step looks at the parameters and the two interrupt bits only. -/
theorem QuietChange.congr {s s' : State} {u u' : Port} (hp : s'.params = s.params) (hg : s'.gie = s.gie)
    (hi : s'.iexec = s.iexec) (h : QuietChange s u u') : QuietChange s' u u' := by
  have disp : ∀ k, s'.dispatchable u.uart k = s.dispatchable u.uart k := fun k => by
    simp only [State.dispatchable, hg, hi]
  cases h with
  | rxc free h => rw [← hp]; exact .rxc free (by rw [disp, h])
  | dre h => rw [← hp]; exact .dre (by rw [disp, h])
  | txc free h => exact .txc free (by rw [disp, h])
  | lineLoad h => exact .lineLoad (hp ▸ h)
  | lineShiftDone h => rw [← hp]; exact .lineShiftDone (hp ▸ h)
  | lineRx e h => rw [← hp]; exact .lineRx e (hp ▸ h)
  | envDataEmpty h => exact .envDataEmpty (hp ▸ h)
  | envTransmitComplete h => exact .envTransmitComplete (hp ▸ h)
  | envReceive e h => exact .envReceive e (hp ▸ h)

/-- A port of a state in which one port has been replaced is the replacement or an old port. -/
theorem ports_set_cases {l : List Port} {p q : Nat} {v u' : Port} (h : (l.set q v)[p]? = some u') :
    l[p]? = some u' ∨ (p = q ∧ u' = v) := by
  by_cases hpq : q = p
  · subst hpq
    obtain ⟨hlt, hget⟩ := List.getElem?_eq_some_iff.mp h
    exact Or.inr ⟨rfl, by simpa using hget.symm⟩
  · exact Or.inl (by rwa [List.getElem?_set_ne hpq] at h)

/-- Every way a port can come out of a Host turn. -/
theorem hostTurn_port_cases {s t : State} (h : hostTurn s = .next t) {p : Nat} {u' : Port}
    (hp : t.ports[p]? = some u') :
    s.ports[p]? = some u' ∨ ∃ c u, s.lookup p = some (c, u) ∧ HostChange s p c u u' t.seq := by
  obtain ⟨s0, h0, -, hc⟩ := hostTurn_hostCases h
  have same : s.params = s0.params ∧ s.ports = s0.ports ∧ s.gie = s0.gie ∧ s.iexec = s0.iexec ∧ s.seq = s0.seq := by
    rcases h0 with rfl | ⟨w, rest, -, -, rfl⟩ <;> exact ⟨rfl, rfl, rfl, rfl, rfl⟩
  obtain ⟨f1, f2, f3, f4, f5⟩ := same
  rcases hc with ⟨h1, -⟩ | ⟨q, k, c, u, -, -, h1, -⟩ | ⟨q, c, u, v, hl, hc, h1, -⟩
  · exact Or.inl (by rw [f2, ← h1, hp])
  · exact Or.inl (by rw [f2, ← h1, hp])
  · rw [h1] at hp
    rcases ports_set_cases hp with hp | ⟨rfl, rfl⟩
    · exact Or.inl (by rw [f2, hp])
    · exact Or.inr ⟨c, u, by rwa [State.lookup_congr f1 f2], hc.congr f1 f3 f4 f5⟩

/-- Every way a port can come out of a step: unchanged, changed by the Host, or changed by a handler or an environment
step. -/
theorem step_port_cases {s t : State} (h : step s = .next t) {p : Nat} {u' : Port} (hp : t.ports[p]? = some u') :
    s.ports[p]? = some u' ∨ ∃ c u, s.lookup p = some (c, u) ∧
      (HostChange s p c u u' t.seq ∨ QuietChange s u u') := by
  rcases step_cases h with ⟨-, hh⟩ | rfl | ⟨q, c, u, v, hl, hc, rfl⟩
  · rcases hostTurn_port_cases hh hp with hu | ⟨c, u, hl, hc⟩
    · exact Or.inl (by simpa using hu)
    · exact Or.inr ⟨c, u, by simpa using hl, Or.inl (hc.congr (by simp) (by simp) (by simp) (by simp))⟩
  · exact Or.inl (by simpa using hp)
  · rw [State.setPort_ports, State.afterDraw_ports] at hp
    rcases ports_set_cases hp with hp | ⟨rfl, rfl⟩
    · exact Or.inl hp
    · exact Or.inr ⟨c, u, by simpa using hl, Or.inr (hc.congr (by simp) (by simp) (by simp))⟩

@[simp] theorem State.afterDraw_route (s : State) : s.afterDraw.route = s.route := by
  unfold State.afterDraw; split <;> rfl

@[simp] theorem State.afterDraw_pins (s : State) : s.afterDraw.pins = s.pins := by
  unfold State.afterDraw; split <;> rfl

/-- No step changes the parameters (R46). -/
theorem step_params {s t : State} (h : step s = .next t) : t.params = s.params := by
  rcases step_cases h with ⟨-, hh⟩ | rfl | ⟨q, c, u, v, -, -, rfl⟩
  · obtain ⟨s0, h0, hf, -⟩ := hostTurn_hostCases hh
    rw [hf.params]
    rcases h0 with rfl | ⟨w, rest, -, -, rfl⟩ <;> simp
  · simp
  · simp

/-- No step changes the number of ports. -/
theorem step_ports_length {s t : State} (h : step s = .next t) : t.ports.length = s.ports.length := by
  rcases step_cases h with ⟨-, hh⟩ | rfl | ⟨q, c, u, v, -, -, rfl⟩
  · obtain ⟨s0, h0, -, hc⟩ := hostTurn_hostCases hh
    have hs0 : s0.ports = s.ports := by rcases h0 with rfl | ⟨w, rest, -, -, rfl⟩ <;> simp
    rcases hc with ⟨h1, -⟩ | ⟨p, k, c, u, -, -, h1, -⟩ | ⟨p, c, u, v, -, -, h1, -⟩ <;> simp [h1, hs0]
  · simp
  · simp

/-- Everything a step can do: run the command it issues, spin, change one port by a handler or an environment step, or
leave everything but the program and the response as it is. -/
theorem step_turn_cases {s t : State} (h : step s = .next t) :
    (∃ i rest, s.issues i ∧ i.isCommand = true ∧ exec i { s.afterDraw with program := rest } = .next t) ∨
    (s.nextEvent = .host ∧ s.seq ≠ .ready ∧ spin s.afterDraw = .next t) ∨
    (∃ p c u u', s.lookup p = some (c, u) ∧ QuietChange s u u' ∧ t = s.afterDraw.setPort p u') ∨
    t = { s.afterDraw with program := t.program, response := t.response } := by
  rcases step_cases h with ⟨he, hh⟩ | rfl | ⟨p, c, u, u', hl, hc, rfl⟩
  · rcases hostTurn_cases hh with rfl | ⟨hs, hh⟩ | ⟨w, rest, hs, hp, ⟨-, rfl⟩ | ⟨i, hd, hi, hh⟩⟩
    · exact Or.inr (Or.inr (Or.inr rfl))
    · exact Or.inr (Or.inl ⟨he, by simpa using hs, hh⟩)
    · exact Or.inr (Or.inr (Or.inr rfl))
    · exact Or.inl ⟨i, rest, ⟨he, by simpa using hs, w, rest, by simpa using hp, hd⟩, hi, hh⟩
  · exact Or.inr (Or.inr (Or.inr rfl))
  · exact Or.inr (Or.inr (Or.inl ⟨p, c, u, u', by simpa using hl, hc.congr (by simp) (by simp) (by simp), rfl⟩))

end Sys2Proof.Machine
end

section
/-! SUPPORT. Who changes the shared state: GIE, IEXEC, the bindings, ROUTE and PIN (10_state.md R21, R38 to R41). -/

namespace Sys2Proof.Machine

open Sys2Proof

/-- ROUTE and PIN are as before. -/
def RoutingKept (s t : State) : Prop := t.route = s.route ∧ t.pins = s.pins

/-- ROUTE is rewritten under the group mask of `c`, and PIN is as before or has the pins of one row configured
(R206, R207). -/
def Routed (c : PortParams) (s t : State) : Prop :=
  (∃ code, t.route = maskedRoute s.params.routeWidth s.route c.groupMask code) ∧
  (t.pins = s.pins ∨ ∃ r m, t.pins = configureRowPins s.params r m s.pins)

/-- The binding part of `Configure` writes ROUTE under the port's mask, and the pins of the bound row (R163). -/
theorem State.bindPins_routed {s s1 : State} {c : PortParams} {pgi : Byte} {cfg : Half}
    (h : s.bindPins c pgi cfg = some s1) : Routed c s s1 := by
  unfold State.bindPins at h
  split at h
  · simp only [Option.some.injEq] at h
    subst h
    exact ⟨⟨_, rfl⟩, Or.inl rfl⟩
  · simp only [Option.map_eq_some_iff] at h
    obtain ⟨r, -, rfl⟩ := h
    exact ⟨⟨_, rfl⟩, Or.inr ⟨r, _, rfl⟩⟩

theorem configure_routing {s t : State} {p : Nat} {baud : Long} {cfg : Half} {c : PortParams} {u : Port}
    (h : configure s p baud cfg c u = .next t) : RoutingKept s t ∨ Routed c s t := by
  rcases configure_cases h with ⟨-, rfl⟩ | ⟨d, s1, -, hb, rfl⟩
  · exact Or.inl ⟨rfl, rfl⟩
  · have hr : Routed c s s1 := State.bindPins_routed hb
    exact Or.inr hr

/-- After a flush only the continuation of BEGIN writes ROUTE and PIN (R172). -/
theorem continueWith_routing {s t : State} {p : Nat} {k : Cont} {c : PortParams} {u : Port}
    (h : continueWith s p k c u = .next t) :
    RoutingKept s t ∨ (∃ baud cfg, k = .thenEndBegin baud cfg) ∧ Routed c s t := by
  cases k with
  | done => simp only [continueWith, Host.Outcome.next.injEq] at h; subst h; exact Or.inl ⟨rfl, rfl⟩
  | thenEnd => simp only [continueWith, Host.Outcome.next.injEq] at h; subst h; exact Or.inl ⟨rfl, rfl⟩
  | thenEndBegin baud cfg => exact (configure_routing h).imp_right fun hr => ⟨⟨baud, cfg, rfl⟩, hr⟩

theorem flushThen_routing {s t : State} {p : Nat} {k : Cont} {c : PortParams} {u : Port}
    (h : flushThen s p k c u = .next t) :
    RoutingKept s t ∨ (∃ baud cfg, k = .thenEndBegin baud cfg) ∧ Routed c s t := by
  unfold flushThen at h
  split at h
  · exact continueWith_routing h
  · simp only [Host.Outcome.next.injEq] at h; subst h; exact Or.inl ⟨rfl, rfl⟩

/-- A spin writes ROUTE and PIN only at the end of a BEGIN's wait (R173). -/
theorem spin_routing {s t : State} (h : spin s = .next t) :
    RoutingKept s t ∨ ∃ p baud cfg c u, s.seq = .flushWait p (.thenEndBegin baud cfg) ∧
      s.lookup p = some (c, u) ∧ Routed c s t := by
  unfold spin at h
  split at h
  · simp only [Host.Outcome.next.injEq] at h; subst h; exact Or.inl ⟨rfl, rfl⟩
  · split at h
    · obtain ⟨-, -, -, hr, hp, -⟩ := writeTry_cases h
      exact Or.inl ⟨hr, hp⟩
    · simp at h
  · next p k hs =>
    split at h
    · next c u hl =>
      unfold flushSpin at h
      split at h
      · rcases continueWith_routing h with hk | ⟨⟨baud, cfg, rfl⟩, hr⟩
        · exact Or.inl hk
        · exact Or.inr ⟨p, baud, cfg, c, u, hs, hl, hr⟩
      · simp only [Host.Outcome.next.injEq] at h; subst h; exact Or.inl ⟨rfl, rfl⟩
    · simp at h

/-- GIE, IEXEC and every port's binding are as before. -/
structure SystemKept (s t : State) : Prop where
  gie : t.gie = s.gie
  iexec : t.iexec = s.iexec
  pgi : t.ports.map Port.pgi = s.ports.map Port.pgi

/-- Replacing a port by one with the same binding keeps the bindings. -/
theorem map_pgi_set {l : List Port} {p : Nat} {u u' : Port} (h : l[p]? = some u) (hu : u'.pgi = u.pgi) :
    (l.set p u').map Port.pgi = l.map Port.pgi := by
  obtain ⟨hlt, rfl⟩ := List.getElem?_eq_some_iff.mp h
  rw [List.map_set, hu, ← List.getElem_map Port.pgi (h := by simpa using hlt), List.set_getElem_self]

/-- The binding is kept, and the port is neither begun, ended nor marked written. -/
structure StatusKept (u u' : Port) : Prop where
  pgi : u'.pgi = u.pgi
  begun : u'.begun = u.begun
  written : u'.written = u.written

theorem Port.dreStep_status (cap : Nat) (u : Port) : StatusKept u (u.dreStep cap) := by
  rcases u.dreStep_cases cap with ⟨-, h⟩ | ⟨-, h⟩ <;> rw [h] <;> exact ⟨rfl, rfl, rfl⟩

/-- Everything the poll of a blocked command can do: nothing, or one `DreStep` under `MustPoll` with DREIF set
(R167, R170). -/
theorem State.pollPort_cases (s : State) (u : Port) :
    s.pollPort u = u ∨
    (s.mustPoll = true ∧ u.uart.txHold = none ∧ s.pollPort u = u.dreStep s.params.txCap) := by
  unfold State.pollPort Port.pollDrain
  split
  · next hm =>
    split
    · next hd => exact Or.inr ⟨hm, Option.isNone_iff_eq_none.mp hd, rfl⟩
    · exact Or.inl rfl
  · exact Or.inl rfl

theorem State.pollPort_status (s : State) (u : Port) : StatusKept u (s.pollPort u) := by
  rcases s.pollPort_cases u with h | ⟨-, -, h⟩ <;> rw [h]
  · exact ⟨rfl, rfl, rfl⟩
  · exact u.dreStep_status _

theorem Port.pushByte_pgi (cap : Nat) (u : Port) (b : Byte) : (u.pushByte cap b).pgi = u.pgi := by
  rw [Port.pushByte, Port.enableDre_eq, Port.armIfHalfDuplex_eq]

/-- `Configure` rebinds no port, where `u` has the binding that port `p` has. -/
theorem configure_system {s t : State} {p : Nat} {baud : Long} {cfg : Half} {c : PortParams} {u v : Port}
    (hp : s.ports[p]? = some v) (hv : u.pgi = v.pgi) (h : configure s p baud cfg c u = .next t) : SystemKept s t := by
  rcases configure_cases h with ⟨-, rfl⟩ | ⟨d, s1, -, hb, rfl⟩
  · exact ⟨rfl, rfl, map_pgi_set hp hv⟩
  · obtain ⟨-, f2, f3, f4, -⟩ := State.bindPins_frame hb
    refine ⟨f3, f4, ?_⟩
    rw [State.respond_ports, State.setPort_ports, f2]
    exact map_pgi_set hp hv

theorem continueWith_system {s t : State} {p : Nat} {k : Cont} {c : PortParams} {u : Port}
    (hp : s.ports[p]? = some u) (h : continueWith s p k c u = .next t) : SystemKept s t := by
  cases k with
  | done => simp only [continueWith, Host.Outcome.next.injEq] at h; subst h; exact ⟨rfl, rfl, rfl⟩
  | thenEnd =>
    simp only [continueWith, Host.Outcome.next.injEq] at h; subst h
    exact ⟨rfl, rfl, map_pgi_set hp u.shutdown_pgi⟩
  | thenEndBegin baud cfg => exact configure_system hp u.shutdown_pgi h

theorem flushThen_system {s t : State} {p : Nat} {k : Cont} {c : PortParams} {u : Port}
    (hp : s.ports[p]? = some u) (h : flushThen s p k c u = .next t) : SystemKept s t := by
  unfold flushThen at h
  split at h
  · exact continueWith_system hp h
  · simp only [Host.Outcome.next.injEq] at h; subst h; exact ⟨rfl, rfl, rfl⟩

theorem writeTry_system {s t : State} {p : Nat} {b : Byte} {u v : Port} (hp : s.ports[p]? = some v)
    (hv : u.pgi = v.pgi) (h : writeTry s p b u = .next t) : SystemKept s t := by
  obtain ⟨-, hg, hi, -, -, ⟨-, h1, -⟩ | ⟨-, h1, -⟩⟩ := writeTry_cases h
  · exact ⟨hg, hi, by rw [h1]; exact map_pgi_set hp ((s.pollPort_status u).pgi.trans hv)⟩
  · exact ⟨hg, hi, by rw [h1]; exact map_pgi_set hp ((u.pushByte_pgi _ b).trans hv)⟩

theorem writeBody_system {s t : State} {p : Nat} {b : Byte} {u : Port} (hp : s.ports[p]? = some u)
    (h : writeBody s p b u = .next t) : SystemKept s t := by
  unfold writeBody at h
  split at h
  · simp only [Host.Outcome.next.injEq] at h; subst h
    exact ⟨rfl, rfl, map_pgi_set hp (by rw [Port.fastWrite_eq])⟩
  · exact writeTry_system (u := { u with written := true }) hp rfl h

/-- A blocked command changes neither GIE nor IEXEC nor a binding. -/
theorem spin_system {s t : State} (h : spin s = .next t) : SystemKept s t := by
  unfold spin at h
  split at h
  · simp only [Host.Outcome.next.injEq] at h; subst h; exact ⟨rfl, rfl, rfl⟩
  · split at h
    · next hl => exact writeTry_system (State.lookup_eq_some.mp hl).2 rfl h
    · simp at h
  · split at h
    · next u hl =>
      have hp := (State.lookup_eq_some.mp hl).2
      unfold flushSpin at h
      split at h
      · obtain ⟨hg, hi, hb⟩ := continueWith_system (s := s.unblock) hp h
        exact ⟨hg, hi, hb⟩
      · simp only [Host.Outcome.next.injEq] at h; subst h
        exact ⟨rfl, rfl, map_pgi_set hp (s.pollPort_status u).pgi⟩
    · simp at h

/-- What one command does to the shared state: each part is kept, or the command is one of its owners. -/
structure CommandShared (i : Instr) (s t : State) : Prop where
  gie : t.gie = s.gie ∨ i = .irqsave ∨ ∃ on, i = .irqrest on
  iexec : t.iexec = s.iexec ∨ i = .isrenter ∨ i = .isrexit
  pgi : t.ports.map Port.pgi = s.ports.map Port.pgi ∨
    ∃ q : Byte, ((∃ tx rx, i = .pins q tx rx) ∨ ∃ idx, i = .swap q idx)
  routing : RoutingKept s t ∨
    ∃ p baud cfg c u, i = .beginPort p baud cfg ∧ s.lookup p.toNat = some (c, u) ∧ Routed c s t

theorem SystemKept.commandShared {i : Instr} {s t : State} (h : SystemKept s t) (hr : RoutingKept s t) :
    CommandShared i s t :=
  ⟨Or.inl h.gie, Or.inl h.iexec, Or.inl h.pgi, Or.inl hr⟩

/-- A command that only answers. -/
theorem commandShared_respond {i : Instr} {s t : State} {a : Status} {v : Half}
    (h : (.next (s.respond a v) : Result) = .next t) : CommandShared i s t := by
  cases h
  exact SystemKept.commandShared ⟨rfl, rfl, rfl⟩ ⟨rfl, rfl⟩

/-- A command on a port that does not exist only answers; on an existing port its rule runs. -/
theorem withPort_shared {i : Instr} {s t : State} {p : Nat} {f : PortParams → Port → Result}
    (h : withPort s p f = .next t)
    (hf : ∀ c u, s.lookup p = some (c, u) → s.ports[p]? = some u → f c u = .next t → CommandShared i s t) :
    CommandShared i s t := by
  rcases withPort_cases h with ⟨-, rfl⟩ | ⟨c, u, hl, hu⟩
  · exact commandShared_respond rfl
  · exact hf c u hl (State.lookup_eq_some.mp hl).2 hu

theorem flushThen_shared {i : Instr} {s t : State} {p : Nat} {k : Cont} {c : PortParams} {u : Port}
    (hk : ∀ baud cfg, k ≠ .thenEndBegin baud cfg) (hp : s.ports[p]? = some u) (h : flushThen s p k c u = .next t) :
    CommandShared i s t := by
  rcases flushThen_routing h with hr | ⟨⟨baud, cfg, he⟩, -⟩
  · exact (flushThen_system hp h).commandShared hr
  · exact absurd he (hk baud cfg)

theorem writeBody_routing {s t : State} {p : Nat} {b : Byte} {u : Port} (h : writeBody s p b u = .next t) :
    RoutingKept s t := by
  unfold writeBody at h
  split at h
  · simp only [Host.Outcome.next.injEq] at h; subst h; exact ⟨rfl, rfl⟩
  · obtain ⟨-, -, -, hr, hp, -⟩ := writeTry_cases h
    exact ⟨hr, hp⟩

/-- Each part of the shared state changes only under its own commands (R21, R38 to R41, R52). -/
theorem exec_shared {i : Instr} {s t : State} (hi : i.isCommand = true) (h : exec i s = .next t) :
    CommandShared i s t := by
  cases i <;> simp only [exec, Instr.isCommand, Bool.false_eq_true] at h hi
  case beginPort p baud cfg =>
    refine withPort_shared h fun c u hl hp hu => ?_
    have key : SystemKept s t ∧ (RoutingKept s t ∨ Routed c s t) := by
      split at hu
      · exact ⟨flushThen_system hp hu, (flushThen_routing hu).imp_right And.right⟩
      · exact ⟨configure_system hp rfl hu, configure_routing hu⟩
    obtain ⟨⟨hg, hi, hb⟩, hr⟩ := key
    exact ⟨Or.inl hg, Or.inl hi, Or.inl hb, hr.imp_right fun hr => ⟨p, baud, cfg, c, u, rfl, hl, hr⟩⟩
  case endPort p => exact withPort_shared h fun c u _ hp hu => flushThen_shared (by simp) hp hu
  case flush p => exact withPort_shared h fun c u _ hp hu => flushThen_shared (by simp) hp hu
  case avail p => exact withPort_shared h fun c u _ _ hu => commandShared_respond hu
  case availw p => exact withPort_shared h fun c u _ _ hu => commandShared_respond hu
  case usable p => exact withPort_shared h fun c u _ _ hu => commandShared_respond hu
  case peek p =>
    refine withPort_shared h fun c u _ _ hu => ?_
    split at hu <;> exact commandShared_respond hu
  case read p =>
    refine withPort_shared h fun c u _ hp hu => ?_
    split at hu
    · exact commandShared_respond hu
    · cases hu
      exact SystemKept.commandShared ⟨rfl, rfl, map_pgi_set hp rfl⟩ ⟨rfl, rfl⟩
  case write p v =>
    refine withPort_shared h fun c u _ hp hu => ?_
    split at hu <;> split at hu
    · exact (writeBody_system hp hu).commandShared (writeBody_routing hu)
    · split at hu
      · cases hu
      · exact (writeBody_system hp hu).commandShared (writeBody_routing hu)
    · cases hu
    · exact commandShared_respond hu
  case pins p tx rx =>
    refine withPort_shared h fun c u _ _ hu => ?_
    split at hu
    · exact commandShared_respond hu
    · cases hu
      exact ⟨Or.inl rfl, Or.inl rfl, Or.inr ⟨p, Or.inl ⟨tx, rx, rfl⟩⟩, Or.inl ⟨rfl, rfl⟩⟩
  case swap p idx =>
    refine withPort_shared h fun c u _ _ hu => ?_
    split at hu
    · cases hu
      exact ⟨Or.inl rfl, Or.inl rfl, Or.inr ⟨p, Or.inr ⟨idx, rfl⟩⟩, Or.inl ⟨rfl, rfl⟩⟩
    · exact commandShared_respond hu
  case irqsave => cases h; exact ⟨Or.inr (Or.inl rfl), Or.inl rfl, Or.inl rfl, Or.inl ⟨rfl, rfl⟩⟩
  case irqrest on => cases h; exact ⟨Or.inr (Or.inr ⟨on, rfl⟩), Or.inl rfl, Or.inl rfl, Or.inl ⟨rfl, rfl⟩⟩
  case isrenter =>
    unfold execIsrenter at h
    split at h <;> cases h <;> exact ⟨Or.inl rfl, Or.inr (Or.inl rfl), Or.inl rfl, Or.inl ⟨rfl, rfl⟩⟩
  case isrexit =>
    unfold execIsrexit at h
    split at h <;> cases h <;> exact ⟨Or.inl rfl, Or.inr (Or.inr rfl), Or.inl rfl, Or.inl ⟨rfl, rfl⟩⟩

end Sys2Proof.Machine
end

section
/-! SUPPORT. The shared state and the ports across one step, and O56, O59, O60 from it. -/

namespace Sys2Proof.Machine

open Sys2Proof

/-! ### GIE, IEXEC and the bindings -/

/-- When a handler may be taken (R261, R263). -/
theorem State.dispatchable_iff {s : State} {u : Periph} {k : Source} :
    s.dispatchable u k = true ↔ s.gie = true ∧ s.iexec = false ∧ u.pending k = true ∧ u.noneAbove k = true := by
  simp [State.dispatchable, and_assoc]

/-- RXC is dispatched only when a received entry waits (R42, R261). -/
theorem rxFifo_of_dispatchable {s : State} {u : Periph} (h : s.dispatchable u .rxc = true) :
    ∃ e rest, u.rxFifo = e :: rest := by
  obtain ⟨-, -, hp, -⟩ := State.dispatchable_iff.mp h
  have hf : u.rxFifo ≠ [] := by
    simp only [Periph.pending, Periph.rxcif, Bool.and_eq_true, Bool.not_eq_true', List.isEmpty_eq_false_iff] at hp
    exact hp.2
  exact List.exists_cons_of_ne_nil hf

/-- No handler and no environment step rebinds a port, begins or ends it, or marks it written. -/
theorem QuietChange.status {s : State} {u u' : Port} (h : QuietChange s u u') : StatusKept u u' := by
  cases h with
  | rxc free hd =>
    obtain ⟨e, rest, hf⟩ := rxFifo_of_dispatchable hd
    rcases u.rxcBody_cases s.params.rxCap free hf with ⟨-, h⟩ | ⟨-, -, h⟩ <;> rw [h] <;> exact ⟨rfl, rfl, rfl⟩
  | dre => exact u.dreStep_status _
  | txc free => rw [Port.txcBody_eq]; exact ⟨rfl, rfl, rfl⟩
  | lineShiftDone =>
    rcases u.lineShiftDone_cases s.params.rxFifoDepth with ⟨-, h⟩ | ⟨b, -, h⟩ <;> rw [h]
    all_goals exact ⟨rfl, rfl, rfl⟩
  | lineLoad | lineRx | envDataEmpty | envTransmitComplete | envReceive => exact ⟨rfl, rfl, rfl⟩

/-- What one step does to GIE, IEXEC and the bindings: each is kept, or an owner's command is issued (R21, R40, R41). -/
theorem step_system {s t : State} (h : step s = .next t) :
    SystemKept s t ∨ ∃ i rest, s.issues i ∧ exec i { s.afterDraw with program := rest } = .next t ∧
      CommandShared i { s.afterDraw with program := rest } t := by
  rcases step_turn_cases h with ⟨i, rest, his, hi, hx⟩ | ⟨-, -, hx⟩ | ⟨p, c, u, u', hl, hc, rfl⟩ | ht
  · exact Or.inr ⟨i, rest, his, hx, exec_shared hi hx⟩
  · obtain ⟨hg, hi, hb⟩ := spin_system hx
    exact Or.inl ⟨by simpa using hg, by simpa using hi, by simpa using hb⟩
  · refine Or.inl ⟨by simp, by simp, ?_⟩
    rw [State.setPort_ports, State.afterDraw_ports]
    exact map_pgi_set (State.lookup_eq_some.mp hl).2 hc.status.pgi
  · rw [ht]
    exact Or.inl ⟨by simp, by simp, by simp⟩

/-- Where the bindings agree, a port has the binding it had. -/
theorem pgi_eq_of_map {s t : State} (h : t.ports.map Port.pgi = s.ports.map Port.pgi) {p : Nat} {u u' : Port}
    (hu : s.ports[p]? = some u) (hu' : t.ports[p]? = some u') : u'.pgi = u.pgi := by
  have := congrArg (·[p]?) h
  simpa [hu, hu'] using this

/-- Settles O56: of the issued command's owners, PINS and SWAP change only the port they name. -/
theorem systemStateHasItsOwners : Obligations.SystemStateHasItsOwners := by
  intro s t h
  rcases step_system h with ⟨hg, hi, hb⟩ | ⟨i, rest, his, hx, hg, hi, hb, -⟩
  · exact ⟨fun hn => absurd hg hn, fun hn => absurd hi hn,
      fun p u u' hu hu' hn => absurd (pgi_eq_of_map hb hu hu') hn⟩
  · refine ⟨fun hn => ?_, fun hn => ?_, fun p u u' hu hu' hn => ?_⟩
    · rcases hg with hg | rfl | ⟨on, rfl⟩
      · exact absurd (by simpa using hg) hn
      · exact Or.inl his
      · exact Or.inr ⟨on, his⟩
    · rcases hi with hi | rfl | rfl
      · exact absurd (by simpa using hi) hn
      · exact Or.inl his
      · exact Or.inr his
    · rcases hb with hb | ⟨q, hq⟩
      · exact absurd (pgi_eq_of_map (s := s) (by simpa using hb) hu hu') hn
      · have hone : OnlyPort { s.afterDraw with program := rest } q.toNat t := by
          rcases hq with ⟨tx, rx, rfl⟩ | ⟨idx, rfl⟩ <;> exact exec_onlyPort hx
        have hpq : q.toNat = p := by
          by_contra hne
          have hsame := hone.other (Ne.symm hne)
          rw [hu', State.afterDraw_ports, hu] at hsame
          exact hn (by rw [Option.some.inj hsame])
        refine ⟨q, hpq, ?_⟩
        rcases hq with ⟨tx, rx, rfl⟩ | ⟨idx, rfl⟩
        · exact Or.inl ⟨tx, rx, his⟩
        · exact Or.inr ⟨idx, his⟩

/-! ### ROUTE and PIN -/

/-- A step writes ROUTE and PIN only in a BEGIN that configures an existing port, issued or at the end of its wait
(R38, R39, R163). -/
theorem step_routing {s t : State} (h : step s = .next t) :
    RoutingKept s t ∨ ∃ p c u, s.lookup p = some (c, u) ∧ s.nextEvent = .host ∧
      ((∃ q baud cfg, s.issues (.beginPort q baud cfg) ∧ q.toNat = p) ∨
        ∃ baud cfg, s.seq = .flushWait p (.thenEndBegin baud cfg)) ∧ Routed c s t := by
  rcases step_turn_cases h with ⟨i, rest, his, hi, hx⟩ | ⟨he, -, hx⟩ | ⟨p, c, u, u', hl, hc, rfl⟩ | ht
  · rcases (exec_shared hi hx).routing with hk | ⟨p, baud, cfg, c, u, rfl, hl, hr⟩
    · exact Or.inl (by simpa [RoutingKept] using hk)
    · rw [State.lookup_congr (s := s) (by simp) (by simp)] at hl
      exact Or.inr ⟨p.toNat, c, u, hl, his.1, Or.inl ⟨p, baud, cfg, his, rfl⟩, by simpa [Routed] using hr⟩
  · rcases spin_routing hx with hk | ⟨p, baud, cfg, c, u, hs, hl, hr⟩
    · exact Or.inl (by simpa [RoutingKept] using hk)
    · exact Or.inr ⟨p, c, u, by simpa using hl, he, Or.inr ⟨baud, cfg, by simpa using hs⟩,
        by simpa [Routed] using hr⟩
  · exact Or.inl ⟨by simp, by simp⟩
  · rw [ht]
    exact Or.inl ⟨by simp, by simp⟩

/-- `RouteMasked` bit by bit (R207). -/
theorem maskedRoute_testBit {width old mask code j : Nat} :
    (maskedRoute width old mask code).testBit j =
      (decide (j < width) && (old.testBit j && !mask.testBit j || code.testBit j && mask.testBit j)) := by
  simp only [maskedRoute, BitVec.testBit_toNat, BitVec.getLsbD_or, BitVec.getLsbD_and, BitVec.getLsbD_not,
    BitVec.getLsbD_ofNat]
  by_cases hj : j < width <;> simp only [hj, decide_true, decide_false, Bool.true_and, Bool.false_and, Bool.or_self]

/-- `RouteMasked` changes no bit outside the group mask (R207). -/
theorem maskedRoute_testBit_of_not_mask {width old mask code j : Nat} (ho : old < 2 ^ width)
    (hm : mask.testBit j = false) : (maskedRoute width old mask code).testBit j = old.testBit j := by
  rw [maskedRoute_testBit, hm]
  by_cases hj : j < width
  · simp [hj]
  · have hold : old.testBit j = false :=
      Nat.testBit_lt_two_pow (lt_of_lt_of_le ho (Nat.pow_le_pow_right (by decide) (by omega)))
    simp [hold]

/-- Settles O59: the only write of ROUTE is `RouteMasked` of the configured port. -/
theorem routingChangesOnlyInBegin : Obligations.RoutingChangesOnlyInBegin := by
  intro s t hlt h hne
  rcases step_routing h with ⟨hr, hp⟩ | ⟨p, c, u, hl, he, hb, ⟨code, hr⟩, -⟩
  · exact (hne.elim (absurd hr) (absurd hp))
  · refine ⟨p, c, u, hl, he, hb, fun j hj => ?_⟩
    by_contra hm
    exact hj (by rw [hr, maskedRoute_testBit_of_not_mask hlt (by simpa using hm)])

/-! ### Which port a step changes -/

theorem OnlyPort.length {s t : State} {p : Nat} (h : OnlyPort s p t) : t.ports.length = s.ports.length := by
  rcases h with h | ⟨u, h⟩ <;> simp [h]

/-- Of the ports, `t` differs from `s` at most in the one named, and in none when none is named. -/
def OnlyNamedPort (s : State) (o : Option Nat) (t : State) : Prop :=
  (∀ p, o = some p → OnlyPort s p t) ∧ (o = none → t.ports = s.ports)

theorem OnlyNamedPort.of_same {s t : State} {o : Option Nat} (h : t.ports = s.ports) : OnlyNamedPort s o t :=
  ⟨fun _ _ => Or.inl h, fun _ => h⟩

theorem OnlyNamedPort.of_onlyPort {s t : State} {p : Nat} (h : OnlyPort s p t) : OnlyNamedPort s (some p) t :=
  ⟨fun _ hp => by cases hp; exact h, fun hn => by cases hn⟩

theorem OnlyNamedPort.of_ports {s s0 t : State} {o : Option Nat} (hp : s0.ports = s.ports) (h : OnlyNamedPort s0 o t) :
    OnlyNamedPort s o t := by
  simpa only [OnlyNamedPort, OnlyPort, hp] using h

theorem OnlyNamedPort.other {s t : State} {o : Option Nat} (h : OnlyNamedPort s o t) {q : Nat} (hq : o ≠ some q) :
    t.ports[q]? = s.ports[q]? := by
  cases o with
  | none => rw [h.2 rfl]
  | some p => exact (h.1 p rfl).other fun he => hq (by rw [he])

theorem OnlyNamedPort.length {s t : State} {o : Option Nat} (h : OnlyNamedPort s o t) :
    t.ports.length = s.ports.length := by
  cases o with
  | none => rw [h.2 rfl]
  | some p => exact (h.1 p rfl).length

theorem exec_onlyNamedPort {i : Instr} {s t : State} (h : exec i s = .next t) : OnlyNamedPort s i.port? t := by
  have hx := exec_onlyPort h
  split at hx
  · next p hp => rw [hp]; exact .of_onlyPort hx
  · exact .of_same hx

/-- The Host's turn changes no port but its own: that of the blocked command, or of the one it issues (R180). -/
theorem hostTurn_onlyNamedPort {s t : State} (h : hostTurn s = .next t) : OnlyNamedPort s s.hostPort t := by
  rcases hostTurn_cases h with rfl | ⟨hs, hx⟩ | ⟨w, rest, hs, hp, ⟨-, rfl⟩ | ⟨i, hd, -, hx⟩⟩
  · exact .of_same rfl
  · have hq := spin_onlyPort hx
    unfold State.hostPort
    cases hseq : s.seq with
    | ready => exact absurd hseq hs
    | writeWait p b => rw [hseq] at hq; exact .of_onlyPort hq
    | flushWait p k => rw [hseq] at hq; exact .of_onlyPort hq
  · exact .of_same rfl
  · have hport : s.hostPort = i.port? := by simp only [State.hostPort, hs, hp, hd]
    rw [hport]
    exact (exec_onlyNamedPort hx).of_ports rfl

/-- The Irq agent's turn changes no port but that of its vector id (R262, R273). -/
theorem irqTurn_onlyNamedPort {v : VectorId} {s t : State} (h : irqTurn v s = .next t) :
    OnlyNamedPort s ((vectorSource v).map Prod.fst) t := by
  unfold irqTurn at h
  unfold vectorSource
  rcases decodeVector_cases v with ⟨p, hv⟩ | ⟨p, hv⟩ | ⟨p, hv⟩ | ⟨e, hv⟩ <;> rw [hv] at h ⊢
  · exact exec_onlyNamedPort h
  · exact exec_onlyNamedPort h
  · exact exec_onlyNamedPort h
  · cases h; exact .of_same rfl

/-- What a turn of the line or of the environment may change of a port: LINE_OUT, the peripheral's hidden state and
TXCIF (R273). -/
def LineFrame (u u' : Port) : Prop :=
  u' = { u with
    lineOut := u'.lineOut
    uart := { u.uart with
      txHold := u'.uart.txHold, txShift := u'.uart.txShift, rxFifo := u'.uart.rxFifo, txcif := u'.uart.txcif } }

theorem lineFrame_lineLoad (u : Port) : LineFrame u { u with uart := u.uart.lineLoad } := by
  rcases u.uart.lineLoad_cases with ⟨b, -, -, -, h⟩ | h <;> rw [h] <;> rfl

theorem lineFrame_lineShiftDone (depth : Nat) (u : Port) : LineFrame u (u.lineShiftDone depth) := by
  rcases u.lineShiftDone_cases depth with ⟨-, h⟩ | ⟨b, -, h⟩ <;> rw [h] <;> rfl

/-- Everything `LineRx` can do (R283). -/
theorem Periph.lineRx_eq (depth : Nat) (u : Periph) (e : RxEntry) :
    u.lineRx depth e =
      { u with rxFifo := if u.rxen = true ∧ u.rxFifo.length < depth then u.rxFifo ++ [e] else u.rxFifo } := by
  unfold Periph.lineRx
  by_cases hr : u.rxen = true
  · simp only [hr, if_true, Periph.rxArrive_eq, true_and]
  · simp only [hr, if_false, false_and, Bool.false_eq_true]

theorem lineFrame_lineRx (depth : Nat) (u : Port) (e : RxEntry) :
    LineFrame u { u with uart := u.uart.lineRx depth e } := by
  rw [Periph.lineRx_eq]; rfl

/-- A turn of the line or of the environment changes nothing but its own port, and that within `LineFrame`. -/
structure LineTurn (s : State) (p : Nat) (t : State) : Prop where
  shared : t = { s with ports := t.ports }
  only : OnlyPort s p t
  frame : ∀ (q : Nat) (u u' : Port), s.ports[q]? = some u → t.ports[q]? = some u' → LineFrame u u'

theorem lineTurn_environment {s : State} {view : LineView} {p : Nat} {f : Port → Port} (hf : ∀ u, LineFrame u (f u)) :
    LineTurn s p (s.environment view p f) := by
  have refl : ∀ {q : Nat} {u u' : Port}, s.ports[q]? = some u → s.ports[q]? = some u' → LineFrame u u' := by
    intro q u u' hu hu'
    rw [hu] at hu'
    cases hu'
    rfl
  rcases s.environment_cases view p f with he | ⟨c, u, hl, -, he⟩ <;> rw [he]
  · exact ⟨rfl, Or.inl rfl, fun q u u' => refl⟩
  · refine ⟨rfl, Or.inr ⟨f u, rfl⟩, fun q v v' hv hv' => ?_⟩
    rcases ports_set_cases hv' with hv' | ⟨rfl, rfl⟩
    · exact refl hv hv'
    · rw [(State.lookup_eq_some.mp hl).2] at hv
      cases hv
      exact hf u

/-- Every turn but the Host's and the Irq agent's is a turn of the line of its port. -/
theorem runEvent_lineTurn {e : Event} {s t : State} (hh : e ≠ .host) (hi : ∀ v, e ≠ .irq v)
    (h : runEvent e s = .next t) : ∃ p, e.linePort? = some p ∧ LineTurn s p t := by
  cases e with
  | host => exact absurd rfl hh
  | irq v => exact absurd rfl (hi v)
  | lineLoad p => cases h; exact ⟨p, rfl, lineTurn_environment lineFrame_lineLoad⟩
  | lineShiftDone p => cases h; exact ⟨p, rfl, lineTurn_environment (lineFrame_lineShiftDone _)⟩
  | lineRx p b pe fe => cases h; exact ⟨p, rfl, lineTurn_environment fun u => lineFrame_lineRx _ u _⟩
  | envDataEmpty p => cases h; exact ⟨p, rfl, lineTurn_environment fun u => rfl⟩
  | envTransmitComplete p => cases h; exact ⟨p, rfl, lineTurn_environment fun u => rfl⟩
  | envReceive p b pe fe => cases h; exact ⟨p, rfl, lineTurn_environment fun u => rfl⟩

@[simp] theorem State.hostPort_afterDraw (s : State) : s.afterDraw.hostPort = s.hostPort := by
  simp only [State.hostPort, State.afterDraw_seq, State.afterDraw_program]

theorem State.turnPort_of_host {s : State} (h : s.nextEvent = .host) : s.turnPort = s.hostPort := by
  rw [State.turnPort, h]

theorem State.turnPort_of_irq {s : State} {v : VectorId} (h : s.nextEvent = .irq v) :
    s.turnPort = (vectorSource v).map Prod.fst := by
  rw [State.turnPort, h]

theorem State.turnPort_of_line {s : State} (hh : s.nextEvent ≠ .host) (hi : ∀ v, s.nextEvent ≠ .irq v) :
    s.turnPort = s.nextEvent.linePort? := by
  unfold State.turnPort
  split
  · next h => exact absurd h hh
  · next v h => exact absurd h (hi v)
  · rfl

/-- A turn is the Host's, the Irq agent's, or one of the line or the environment (R15). -/
theorem event_agent_cases (e : Event) : e = .host ∨ (∃ v, e = .irq v) ∨ (e ≠ .host ∧ ∀ v, e ≠ .irq v) := by
  cases e <;> simp

/-- A step changes no port but the one its turn is about (R52). -/
theorem step_onlyNamedPort {s t : State} (h : step s = .next t) : OnlyNamedPort s s.turnPort t := by
  unfold step at h
  refine OnlyNamedPort.of_ports s.afterDraw_ports ?_
  rcases event_agent_cases s.nextEvent with he | ⟨v, he⟩ | ⟨hh, hi⟩
  · rw [State.turnPort_of_host he, ← State.hostPort_afterDraw]
    rw [he] at h
    exact hostTurn_onlyNamedPort h
  · rw [State.turnPort_of_irq he]
    rw [he] at h
    exact irqTurn_onlyNamedPort h
  · obtain ⟨p, hp, ht⟩ := runEvent_lineTurn hh hi h
    rw [State.turnPort_of_line hh hi, hp]
    exact .of_onlyPort ht.only

/-- Settles O60: the Host, the Irq agent and the line each change only the port their turn names. -/
theorem stepTouchesOnePort : Obligations.StepTouchesOnePort := by
  refine ⟨fun s t h => ?_, fun s t e hh hi h => ?_⟩
  · have hone := step_onlyNamedPort h
    exact ⟨step_params h, hone.length, fun q hq => hone.other hq, hone.2⟩
  · obtain ⟨p, hp, ht⟩ := runEvent_lineTurn hh hi h
    refine ⟨ht.shared, ht.only.length, fun q hq => ?_, ht.frame⟩
    exact ht.only.other fun he => hq (by rw [hp, he])

end Sys2Proof.Machine
end

section
/-! SUPPORT. Who writes the ring buffers and TXDATA (10_state.md R26, R28, R51), and O57, O49, O58 from it. -/

namespace Sys2Proof.Machine

open Sys2Proof

/-! ### The buffers under each operation -/

/-- The array of `r'` is that of `r`, or has one byte written at the old head. -/
def Ring.WritesAtHead (r r' : Ring) : Prop := r'.data = r.data ∨ ∃ v, r'.data = Memory.write r.data r.head v

theorem Ring.WritesAtHead.read {r r' : Ring} (h : r.WritesAtHead r') (hw : Memory.wf r.data = true) {i : Nat}
    (hi : i ≠ r.head) : Memory.read r'.data i = Memory.read r.data i := by
  rcases h with h | ⟨v, h⟩ <;> rw [h]
  rw [Memory.read_write hw, if_neg hi]

theorem Ring.WritesAtHead.wf {r r' : Ring} (h : r.WritesAtHead r') (hw : Memory.wf r.data = true) :
    Memory.wf r'.data = true := by
  rcases h with h | ⟨v, h⟩ <;> rw [h]
  · exact hw
  · exact Memory.wf_write hw _ _

/-- What may change of a port's two buffers: each cursor and array only under its condition, and of an array only the slot
at the old head (R26, R28). -/
structure BufferChange (rxHead rxTail txHead txTail : Prop) (u u' : Port) : Prop where
  rx_head : u'.rxb.head ≠ u.rxb.head ∨ u'.rxb.data ≠ u.rxb.data → rxHead
  rx_slots : u.rxb.WritesAtHead u'.rxb
  rx_tail : u'.rxb.tail ≠ u.rxb.tail → rxTail
  tx_head : u'.txb.head ≠ u.txb.head ∨ u'.txb.data ≠ u.txb.data → txHead
  tx_slots : u.txb.WritesAtHead u'.txb
  tx_tail : u'.txb.tail ≠ u.txb.tail → txTail

section
variable {a b c d : Prop} {u u' : Port}

theorem BufferChange.of_same (hr : u'.rxb = u.rxb) (ht : u'.txb = u.txb) : BufferChange a b c d u u' :=
  ⟨by simp [hr], Or.inl (by rw [hr]), by simp [hr], by simp [ht], Or.inl (by rw [ht]), by simp [ht]⟩

theorem BufferChange.mono {a' b' c' d' : Prop} (h : BufferChange a b c d u u') (ha : a → a') (hb : b → b')
    (hc : c → c') (hd : d → d') : BufferChange a' b' c' d' u u' :=
  ⟨fun h1 => ha (h.rx_head h1), h.rx_slots, fun h1 => hb (h.rx_tail h1), fun h1 => hc (h.tx_head h1), h.tx_slots,
    fun h1 => hd (h.tx_tail h1)⟩

theorem BufferChange.of_set_written (h : BufferChange a b c d { u with written := true } u') :
    BufferChange a b c d u u' :=
  { h with }

/-- Only the receive tail moves. -/
theorem BufferChange.of_rx_tail (hh : u'.rxb.head = u.rxb.head) (hd : u'.rxb.data = u.rxb.data) (ht : u'.txb = u.txb)
    (hb : b) : BufferChange a b c d u u' :=
  ⟨by simp [hh, hd], Or.inl hd, fun _ => hb, by simp [ht], Or.inl (by rw [ht]), by simp [ht]⟩

/-- Only the transmit tail moves. -/
theorem BufferChange.of_tx_tail (hr : u'.rxb = u.rxb) (hh : u'.txb.head = u.txb.head) (hd : u'.txb.data = u.txb.data)
    (hp : d) : BufferChange a b c d u u' :=
  ⟨by simp [hr], Or.inl (by rw [hr]), by simp [hr], by simp [hh, hd], Or.inl hd, fun _ => hp⟩

/-- Only the transmit buffer is pushed. -/
theorem BufferChange.of_tx_push (hr : u'.rxb = u.rxb) (hw : u.txb.WritesAtHead u'.txb) (ht : u'.txb.tail = u.txb.tail)
    (hc : c) : BufferChange a b c d u u' :=
  ⟨by simp [hr], Or.inl (by rw [hr]), by simp [hr], fun _ => hc, hw, by simp [ht]⟩

/-- Only the receive buffer is pushed. -/
theorem BufferChange.of_rx_push (hw : u.rxb.WritesAtHead u'.rxb) (hr : u'.rxb.tail = u.rxb.tail) (ht : u'.txb = u.txb)
    (ha : a) : BufferChange a b c d u u' :=
  ⟨fun _ => ha, hw, by simp [hr], by simp [ht], Or.inl (by rw [ht]), by simp [ht]⟩

end

theorem Port.dreStep_buffers {a b c d : Prop} (cap : Nat) (u : Port) (hd : d) :
    BufferChange a b c d u (u.dreStep cap) := by
  rcases u.dreStep_cases cap with ⟨-, h⟩ | ⟨-, h⟩ <;> rw [h]
  · exact .of_same rfl rfl
  · exact .of_tx_tail rfl rfl rfl hd

theorem State.pollPort_buffers {a b c : Prop} (s : State) (u : Port) :
    BufferChange a b c (s.mustPoll = true) u (s.pollPort u) := by
  rcases s.pollPort_cases u with h | ⟨hm, -, h⟩ <;> rw [h]
  · exact .of_same rfl rfl
  · exact u.dreStep_buffers _ hm

theorem Ring.tryPush_getD (cap : Nat) (r : Ring) (b : Byte) :
    r.WritesAtHead ((r.tryPush cap b).getD r) ∧ ((r.tryPush cap b).getD r).tail = r.tail := by
  rcases r.tryPush_cases cap b with ⟨-, h⟩ | ⟨-, h⟩ <;> rw [h]
  · exact ⟨Or.inl rfl, rfl⟩
  · exact ⟨Or.inr ⟨b, rfl⟩, rfl⟩

theorem Port.pushByte_buffers {a b c d : Prop} (cap : Nat) (u : Port) (v : Byte) (hc : c) :
    BufferChange a b c d u (u.pushByte cap v) := by
  obtain ⟨hw, ht⟩ := u.txb.tryPush_getD cap v
  rw [Port.pushByte, Port.enableDre_eq, Port.armIfHalfDuplex_eq]
  exact .of_tx_push rfl hw ht hc

/-- A Host step never fills the receive buffer, and drains the transmit buffer only when it must poll (R26, R167). -/
theorem HostChange.buffers {s : State} {p : Nat} {c : PortParams} {u u' : Port} {q : Seq}
    (h : HostChange s p c u u' q) : BufferChange False True True (s.mustPoll = true) u u' := by
  cases h with
  | popped v r h =>
    rcases u.rxb.tryPop_cases s.params.rxCap with ⟨-, hp⟩ | ⟨-, hp⟩ <;> rw [hp] at h <;> cases h
    exact .of_rx_tail rfl rfl rfl trivial
  | bound | configured => exact .of_same rfl rfl
  | ended => rw [Port.shutdown_eq]; exact .of_rx_tail rfl rfl rfl trivial
  | reconfigured =>
    rw [Port.configureRegs_eq, Port.shutdown_eq]
    exact .of_rx_tail rfl rfl rfl trivial
  | fast => rw [Port.fastWrite_eq]; exact .of_same rfl rfl
  | pushed b => exact .of_set_written (Port.pushByte_buffers s.params.txCap { u with written := true } b trivial)
  | pushedLate b => exact u.pushByte_buffers _ b trivial
  | blocked b => exact .of_set_written (s.pollPort_buffers { u with written := true })
  | polled => exact s.pollPort_buffers u

/-- The body that the handler of each source runs (R264 to R266). -/
def handlerBody (s : State) : Source → Port → Port
  | .rxc => Port.rxcBody s.params.rxCap (Config.rxDataEmpty s.tick)
  | .dre => Port.dreStep s.params.txCap
  | .txc => Port.txcBody (Config.rxDataEmpty s.tick)

/-- The Irq agent's turn runs the body of its vector id's source on its vector id's port, or nothing (R261, R262). -/
theorem irqTurn_source {v : VectorId} {s t : State} (h : irqTurn v s = .next t) :
    t = s ∨ ∃ p k c u, vectorSource v = some (p, k) ∧ s.lookup p = some (c, u) ∧
        s.dispatchable u.uart k = true ∧ t = s.setPort p (handlerBody s k u) := by
  have handler : ∀ {p : Nat} {k : Source}, vectorSource v = some (p, k) →
      runHandler s p k (handlerBody s k) = .next t →
      t = s ∨ ∃ p k c u, vectorSource v = some (p, k) ∧ s.lookup p = some (c, u) ∧
        s.dispatchable u.uart k = true ∧ t = s.setPort p (handlerBody s k u) := by
    intro p k hv hr
    rcases runHandler_cases hr with ⟨c, u, hl, hd, -, ht⟩ | ht
    · exact Or.inr ⟨p, k, c, u, hv, hl, hd, ht⟩
    · exact Or.inl ht
  unfold irqTurn at h
  rcases decodeVector_cases v with ⟨p, hv⟩ | ⟨p, hv⟩ | ⟨p, hv⟩ | ⟨e, hv⟩ <;> rw [hv] at h
  · exact handler (p := p.toNat) (k := .rxc) (by rw [vectorSource, hv]) h
  · exact handler (p := p.toNat) (k := .dre) (by rw [vectorSource, hv]) h
  · exact handler (p := p.toNat) (k := .txc) (by rw [vectorSource, hv]) h
  · cases h; exact Or.inl rfl

/-- Only RXC fills the receive buffer, and only DRE drains the transmit buffer (R26, R264 to R266). -/
theorem handlerBody_buffers {s : State} {u : Port} {k : Source} (hd : s.dispatchable u.uart k = true) :
    BufferChange (k = .rxc) False False (k = .dre) u (handlerBody s k u) := by
  cases k with
  | rxc =>
    obtain ⟨e, rest, hf⟩ := rxFifo_of_dispatchable hd
    rw [handlerBody]
    rcases u.rxcBody_cases s.params.rxCap (Config.rxDataEmpty s.tick) hf with ⟨-, h⟩ | ⟨-, -, h⟩ <;> rw [h]
    · exact .of_same rfl rfl
    · exact .of_rx_push (Or.inr ⟨e.byte, rfl⟩) rfl rfl rfl
  | dre => exact u.dreStep_buffers _ rfl
  | txc => rw [handlerBody, Port.txcBody_eq]; exact .of_same rfl rfl

theorem LineFrame.buffers {a b c d : Prop} {u u' : Port} (h : LineFrame u u') : BufferChange a b c d u u' := by
  rw [LineFrame] at h
  exact .of_same (by rw [h]) (by rw [h])

/-- What a step does to the buffers of a port, and in whose turn (R26, R28). -/
theorem step_buffers {s t : State} (h : step s = .next t) {p : Nat} {u u' : Port} (hu : s.ports[p]? = some u)
    (hu' : t.ports[p]? = some u') :
    BufferChange (∃ v, s.nextEvent = .irq v ∧ vectorSource v = some (p, .rxc)) (s.nextEvent = .host)
      (s.nextEvent = .host)
      ((s.nextEvent = .host ∧ (s.gie = false ∨ s.iexec = true)) ∨
        ∃ v, s.nextEvent = .irq v ∧ vectorSource v = some (p, .dre)) u u' := by
  unfold step at h
  rw [← s.afterDraw_ports] at hu
  have same : s.afterDraw.ports[p]? = some u' → ∀ {a b c d : Prop}, BufferChange a b c d u u' := by
    intro hs
    rw [hu] at hs
    cases hs
    exact .of_same rfl rfl
  rcases event_agent_cases s.nextEvent with he | ⟨v, he⟩ | ⟨hh, hi⟩
  · rw [he] at h
    rcases hostTurn_port_cases h hu' with hs | ⟨c, u0, hl, hc⟩
    · exact same hs
    · rw [(State.lookup_eq_some.mp hl).2] at hu
      cases hu
      refine hc.buffers.mono False.elim (fun _ => he) (fun _ => he) fun hm => Or.inl ⟨he, ?_⟩
      simpa [State.mustPoll] using hm
  · rw [he] at h
    rcases irqTurn_source h with rfl | ⟨q, k, c, u0, hv, hl, hd, rfl⟩
    · exact same hu'
    · rcases ports_set_cases hu' with hs | ⟨rfl, rfl⟩
      · exact same hs
      · rw [(State.lookup_eq_some.mp hl).2] at hu
        cases hu
        exact (handlerBody_buffers hd).mono (fun hk => ⟨v, he, hk ▸ hv⟩) False.elim False.elim
          fun hk => Or.inr ⟨v, he, hk ▸ hv⟩
  · obtain ⟨q, -, ht⟩ := runEvent_lineTurn hh hi h
    exact (ht.frame p u u' hu hu').buffers

/-! ### The canonical form of the arrays -/

theorem State.memoryWf_iff {s : State} : s.memoryWf = true ↔
    (∀ (p : Nat) (u : Port), s.ports[p]? = some u → Memory.wf u.rxb.data = true ∧ Memory.wf u.txb.data = true) ∧
      sparseWf PinCfg.unlisted s.pins = true := by
  simp only [State.memoryWf, Bool.and_eq_true, List.all_eq_true, List.mem_iff_getElem?, forall_exists_index]
  exact and_congr_left fun _ => forall_comm

/-- Settles O57: the two arrays are canonical, so that a write at the old head is read there alone. -/
theorem buffersHaveTheirOwners : Obligations.BuffersHaveTheirOwners := by
  intro s t hm h p u u' hu hu'
  obtain ⟨hrx, htx⟩ := (State.memoryWf_iff.mp hm).1 p u hu
  have hb := step_buffers h hu hu'
  exact ⟨hb.rx_head, fun i hi => hb.rx_slots.read hrx hi, hb.rx_tail, hb.tx_head,
    fun i hi => hb.tx_slots.read htx hi, hb.tx_tail⟩

/-- The pins of a row are written one by one with `PinConfig` (R205, R206). -/
theorem configureRowPins_wf {c : Params} {r : Row} {m : Byte} {l : List (Nat × PinCfg)}
    (h : sparseWf PinCfg.unlisted l = true) : sparseWf PinCfg.unlisted (configureRowPins c r m l) = true := by
  have cond : ∀ (b : Bool) {l l' : List (Nat × PinCfg)}, sparseWf PinCfg.unlisted l = true →
      sparseWf PinCfg.unlisted l' = true → sparseWf PinCfg.unlisted (if b then l else l') = true := by
    intro b l l' hl hl'
    cases b <;> assumption
  unfold configureRowPins
  split
  · exact h
  · have tx := cond (maskTxen m && !maskOpenDrain m) (pinConfig_wf h r.txPin.toNat .output .off)
      (pinConfig_wf h r.txPin.toNat .input .on)
    have rx := cond (maskRxen m && !maskLoopback m) (pinConfig_wf tx (rowRxPin r) .input .on) tx
    exact cond (maskRs485 m) (pinConfig_wf rx (rowDirPin c r) .output .off) rx

/-- Settles O49: every write of an array or of PIN goes through `BufWrite` or `PinConfig`. -/
theorem stepKeepsCanonicalMemory : Obligations.StepKeepsCanonicalMemory := by
  intro s t hm h
  obtain ⟨hports, hpins⟩ := State.memoryWf_iff.mp hm
  refine State.memoryWf_iff.mpr ⟨fun p u' hu' => ?_, ?_⟩
  · have hlt : p < s.ports.length := by
      rw [← step_ports_length h]
      exact (List.getElem?_eq_some_iff.mp hu').1
    have hu : s.ports[p]? = some s.ports[p] := List.getElem?_eq_getElem hlt
    obtain ⟨hrx, htx⟩ := hports p _ hu
    have hb := step_buffers h hu hu'
    exact ⟨hb.rx_slots.wf hrx, hb.tx_slots.wf htx⟩
  · rcases step_routing h with ⟨-, hp⟩ | ⟨p, c, u, -, -, -, -, hp | ⟨r, m, hp⟩⟩ <;> rw [hp]
    · exact hpins
    · exact hpins
    · exact configureRowPins_wf hpins

/-! ### Writes to TXDATA -/

/-- TXLOG is kept, or one byte is written to TXDATA: TXHOLD was empty, and TXCIF is left clear (R79, R90). -/
def TxdataKeptOrWritten (u u' : Port) : Prop :=
  u'.txLog = u.txLog ∨
  (u.uart.txHold = none ∧ u'.uart.txcif = false ∧ ∃ b, u'.txLog = u.txLog ++ [b] ∧ u'.uart.txHold = some b)

theorem Port.dreStep_txdata {u : Port} (cap : Nat) (h : u.uart.txHold = none) :
    TxdataKeptOrWritten u (u.dreStep cap) := by
  rcases u.dreStep_cases cap with ⟨-, hd⟩ | ⟨-, hd⟩ <;> rw [hd]
  · exact Or.inl rfl
  · exact Or.inr ⟨h, rfl, _, rfl, rfl⟩

theorem State.pollPort_txdata (s : State) (u : Port) : TxdataKeptOrWritten u (s.pollPort u) := by
  rcases s.pollPort_cases u with h | ⟨-, hn, h⟩ <;> rw [h]
  · exact Or.inl rfl
  · exact Port.dreStep_txdata _ hn

theorem HostChange.txdata {s : State} {p : Nat} {c : PortParams} {u u' : Port} {q : Seq} (h : HostChange s p c u u' q) :
    TxdataKeptOrWritten u u' := by
  cases h with
  | popped | bound | configured => exact Or.inl rfl
  | ended => rw [Port.shutdown_eq]; exact Or.inl rfl
  | reconfigured => rw [Port.configureRegs_eq, Port.shutdown_eq]; exact Or.inl rfl
  | fast b _ _ hd =>
    rw [Port.fastWrite_eq]
    exact Or.inr ⟨Option.isNone_iff_eq_none.mp hd, rfl, b, rfl, rfl⟩
  | pushed | pushedLate =>
    rw [Port.pushByte, Port.enableDre_eq, Port.armIfHalfDuplex_eq]
    exact Or.inl rfl
  | blocked => exact s.pollPort_txdata { u with written := true }
  | polled => exact s.pollPort_txdata u

theorem QuietChange.txdata {s : State} {u u' : Port} (h : QuietChange s u u') : TxdataKeptOrWritten u u' := by
  cases h with
  | rxc free hd =>
    obtain ⟨e, rest, hf⟩ := rxFifo_of_dispatchable hd
    rcases u.rxcBody_cases s.params.rxCap free hf with ⟨-, h⟩ | ⟨-, -, h⟩ <;> rw [h] <;> exact Or.inl rfl
  | dre hd =>
    obtain ⟨-, -, hp, -⟩ := State.dispatchable_iff.mp hd
    simp only [Periph.pending, Periph.dreif, Bool.and_eq_true, Option.isNone_iff_eq_none] at hp
    exact Port.dreStep_txdata _ hp.2
  | txc free => rw [Port.txcBody_eq]; exact Or.inl rfl
  | lineShiftDone =>
    rcases u.lineShiftDone_cases s.params.rxFifoDepth with ⟨-, h⟩ | ⟨b, -, h⟩ <;> rw [h] <;> exact Or.inl rfl
  | lineLoad | lineRx | envDataEmpty | envTransmitComplete | envReceive => exact Or.inl rfl

/-- Settles O58: every write of TXDATA is a `sendByte` with DREIF set. -/
theorem txdataWriteClearsCompletion : Obligations.TxdataWriteClearsCompletion := by
  intro s t h p u u' hu hu' hne
  have key : TxdataKeptOrWritten u u' := by
    rcases step_port_cases h hu' with hs | ⟨c, u0, hl, hc⟩
    · rw [hu] at hs
      cases hs
      exact Or.inl rfl
    · rw [(State.lookup_eq_some.mp hl).2] at hu
      cases hu
      exact hc.elim HostChange.txdata QuietChange.txdata
  exact key.resolve_left hne

end Sys2Proof.Machine
end

section
/-! SUPPORT. The invariant of one port under each operation of the Transfer State Machine, the handlers and the line
(10_state.md R51), and O47 from it. -/

namespace Sys2Proof.Machine

open Sys2Proof

/-! ### Buffers and registers -/

theorem Ring.Wf.popped {cap : Nat} {b : Ring} (hc : LegalCap cap) (h : b.Wf cap) :
    Ring.Wf cap ⟨b.head, cursorNext cap b.tail, b.data⟩ :=
  ⟨h.head, cursorNext_lt hc _, h.data, h.bound⟩

theorem Ring.Wf.pushed {cap : Nat} {b : Ring} (hc : LegalCap cap) (h : b.Wf cap) (v : Byte)
    (hn : cursorNext cap b.head ≠ b.tail) :
    Ring.Wf cap ⟨cursorNext cap b.head, b.tail, Memory.write b.data b.head v⟩ := by
  rcases b.tryPush_cases cap v with ⟨he, -⟩ | ⟨-, hp⟩
  · exact absurd he hn
  · exact h.tryPush hc hp

/-- A well-formed buffer with room takes a push (R144). -/
theorem Ring.Wf.not_full {cap : Nat} {b : Ring} (hc : LegalCap cap) (h : b.Wf cap)
    (ha : b.availableForWrite cap ≠ 0) : cursorNext cap b.head ≠ b.tail :=
  fun he => ha ((Ring.availableForWrite_eq_zero hc h.head h.tail).mpr he)

/-- A full buffer holds something. -/
theorem Ring.Wf.head_ne_tail_of_full {cap : Nat} {b : Ring} (hc : LegalCap cap) (h : b.Wf cap)
    (ha : b.availableForWrite cap = 0) : b.head ≠ b.tail := by
  have hn := (Ring.availableForWrite_eq_zero hc h.head h.tail).mp ha
  have h2 := hc.two_le
  rw [cursorNext_cases hc h.head] at hn
  split at hn <;> omega

/-- The enables and the reserved bits of the CTRLA value that `Configure` writes (R31, R163, R224). -/
theorem configure_ctrla_bits (cfg : Half) :
    (ctrlAOf cfg &&& 0xEB#8).getLsbD 6 = false ∧ (ctrlAOf cfg &&& 0xEB#8).getLsbD 5 = false ∧
      (ctrlAOf cfg &&& 0xEB#8) &&& 0x14#8 = 0#8 := by
  have all : ∀ (rx lb : Bool) (m : BitVec 2),
      ((byteBit rx 7 ||| byteBit lb 3 ||| m.setWidth 8) &&& 0xEB#8).getLsbD 6 = false ∧
      ((byteBit rx 7 ||| byteBit lb 3 ||| m.setWidth 8) &&& 0xEB#8).getLsbD 5 = false ∧
      ((byteBit rx 7 ||| byteBit lb 3 ||| m.setWidth 8) &&& 0xEB#8) &&& 0x14#8 = 0#8 := by decide
  exact all _ _ _

/-- The reserved bits of the CTRLB value that `Configure` writes, and RXMODE is 00 or 01 (R32). -/
theorem ctrlBValue_reserved (d : BaudSetting) (cfg : Half) : ctrlBValue d cfg &&& 0x35#8 = 0#8 := by
  have all : ∀ rx tx od x2 : Bool,
      ((byteBit rx 7 ||| byteBit tx 6 ||| byteBit od 3 ||| byteBit x2 1) &&& 0xCE#8) &&& 0x35#8 = 0#8 := by decide
  exact all _ _ _ _

theorem Periph.txcie_eq (u : Periph) : u.txcie = u.ctrla.getLsbD 6 := rfl
theorem Periph.dreie_eq (u : Periph) : u.dreie = u.ctrla.getLsbD 5 := rfl
theorem Periph.rxcie_eq (u : Periph) : u.rxcie = u.ctrla.getLsbD 7 := rfl

/-! ### What the invariant says of a port -/

section
variable {c : Params} {t : PortParams} {u : Port}

theorem PortInv.begun_of_written (h : PortInv c t u) (hw : u.written = true) : u.begun = true := by
  by_contra hb
  obtain ⟨-, -, -, -, hn, -⟩ := h.ended (by simpa using hb)
  rw [hn] at hw
  cases hw

/-- A pending source has its enable bit set, so that its port is begun (R42, R51). -/
theorem PortInv.begun_of_pending (h : PortInv c t u) {k : Source} (hp : u.uart.pending k = true) : u.begun = true := by
  by_contra hb
  obtain ⟨ha, -⟩ := h.ended (by simpa using hb)
  cases k <;> simp [Periph.pending, Periph.rxcie_eq, Periph.dreie_eq, Periph.txcie_eq, ha] at hp

theorem PortInv.begun_of_dispatchable (h : PortInv c t u) {s : State} {k : Source}
    (hd : s.dispatchable u.uart k = true) : u.begun = true := by
  obtain ⟨-, -, hp, -⟩ := State.dispatchable_iff.mp hd
  exact h.begun_of_pending hp

/-- With DREIE clear nothing is buffered (R169). -/
theorem PortInv.txb_empty_of_dreie (h : PortInv c t u) (hd : u.uart.dreie = false) : u.txb.head = u.txb.tail := by
  by_contra hn
  rw [h.armed hn] at hd
  cases hd

/-- A flush that need not wait leaves nothing buffered (R172, R174). -/
theorem PortInv.txb_empty_of_flushed (h : PortInv c t u) (hf : u.flushed) : u.txb.head = u.txb.tail := by
  rcases hf with hw | hd
  · by_contra hn
    rw [(h.held hn).1] at hw
    cases hw
  · simp only [Periph.flushDone, Bool.and_eq_true, Bool.not_eq_true'] at hd
    exact h.txb_empty_of_dreie hd.1

/-- Where something is buffered the port is written, so that setting `written` changes nothing. -/
theorem PortInv.set_written_of_held (h : PortInv c t u) (hn : u.txb.head ≠ u.txb.tail) :
    { u with written := true } = u := by
  rw [← (h.held hn).1]

/-! ### The operations keep the invariant -/

theorem PortInv.set_rxb (h : PortInv c t u) {r : Ring} (hr : r.Wf c.rxCap) (hb : u.begun = true) :
    PortInv c t { u with rxb := r } :=
  { h with rx := hr, ended := fun he => by rw [hb] at he; cases he }

/-- `DreStep` (R169). -/
theorem PortInv.dreStep (hw : c.Wf) (h : PortInv c t u) : PortInv c t (u.dreStep c.txCap) := by
  rcases u.dreStep_cases c.txCap with ⟨he, hu⟩ | ⟨hne, hu⟩ <;> rw [hu]
  · obtain ⟨-, h6, h5, -, -, -, hres⟩ := dreOffValue_bits u.uart.ctrla
    refine { h with
      dreie := fun hd => ?_
      txcie := fun hx => h.txcie (h6.symm.trans hx)
      ended := fun hb => ?_
      armed := fun hn => absurd he hn
      reserved := ⟨hres, h.reserved.2⟩ }
    · rw [Periph.dreie_eq, h5] at hd
      cases hd
    · obtain ⟨ha, hrest⟩ := h.ended hb
      exact ⟨by rw [ha]; rfl, hrest⟩
  · obtain ⟨hwr, hb⟩ := h.held hne
    exact { h with
      tx := h.tx.popped hw.tx_cap
      held := fun _ => ⟨hwr, hb⟩
      ended := fun he => by rw [hb] at he; cases he
      armed := fun _ => h.armed hne }

theorem PortInv.pollPort {s : State} (hw : s.params.Wf) (h : PortInv s.params t u) :
    PortInv s.params t (s.pollPort u) := by
  rcases s.pollPort_cases u with hp | ⟨-, -, hp⟩ <;> rw [hp]
  · exact h
  · exact h.dreStep hw

/-- CTRLA after the arming of a WRITE (R168): TXCIE is set only on a half-duplex port. -/
theorem PortInv.armed_ctrla (h : PortInv c t u) :
    ((if u.hd then hdArmValue u.uart.ctrla else u.uart.ctrla).getLsbD 6 = true → u.hd = true) ∧
    (if u.hd then hdArmValue u.uart.ctrla else u.uart.ctrla).getLsbD 5 = u.uart.ctrla.getLsbD 5 ∧
    (if u.hd then hdArmValue u.uart.ctrla else u.uart.ctrla) &&& 0x14#8 = 0#8 := by
  split
  · next hd =>
    obtain ⟨-, -, h5, -, -, -, hres⟩ := hdArmValue_bits u.uart.ctrla
    exact ⟨fun _ => hd, h5, hres⟩
  · exact ⟨h.txcie, rfl, h.reserved.1⟩

/-- The fast path of WRITE, whose buffer is empty (R166). -/
theorem PortInv.fastWrite (h : PortInv c t u) (hb : u.begun = true) (b : Byte) :
    PortInv c t ({ u with written := true }.fastWrite b) := by
  obtain ⟨htx, hdre, hres⟩ := h.armed_ctrla
  rw [Port.fastWrite_eq]
  exact { h with
    held := fun _ => ⟨rfl, hb⟩
    dreie := fun _ => hb
    txcie := htx
    ended := fun he => by rw [hb] at he; cases he
    armed := fun hn => hdre.trans (h.armed hn)
    reserved := ⟨hres, h.reserved.2⟩ }

/-- The push of a WRITE with a slot free (R167). -/
theorem PortInv.pushByte (hw : c.Wf) (h : PortInv c t u) (hb : u.begun = true) (hwr : u.written = true) (b : Byte)
    (hn : cursorNext c.txCap u.txb.head ≠ u.txb.tail) : PortInv c t (u.pushByte c.txCap b) := by
  obtain ⟨htx, -, -⟩ := h.armed_ctrla
  obtain ⟨-, h6, h5, -, -, -, hres⟩ := dreOnValue_bits (if u.hd then hdArmValue u.uart.ctrla else u.uart.ctrla)
  rw [Port.pushByte_eq b hn]
  exact { h with
    tx := h.tx.pushed hw.tx_cap b hn
    held := fun _ => ⟨hwr, hb⟩
    dreie := fun _ => hb
    txcie := fun hx => htx (h6.symm.trans hx)
    ended := fun he => by rw [hb] at he; cases he
    armed := fun _ => h5
    reserved := ⟨hres, h.reserved.2⟩ }

/-- Setting `written` on a begun port (R166). -/
theorem PortInv.set_written (h : PortInv c t u) (hb : u.begun = true) : PortInv c t { u with written := true } :=
  { h with
    held := fun _ => ⟨rfl, hb⟩
    ended := fun he => by rw [hb] at he; cases he }

/-- `Shutdown` of a port whose flush is done (R177). -/
theorem PortInv.shutdown (h : PortInv c t u) (he : u.txb.head = u.txb.tail) : PortInv c t u.shutdown := by
  rw [Port.shutdown_eq]
  exact { h with
    rx := h.rx.discard
    held := fun hn => absurd he hn
    dreie := by simp [Periph.dreie_eq]
    txcie := by simp [Periph.txcie_eq]
    ended := fun _ => ⟨rfl, rfl, rfl, he, rfl, rfl⟩
    armed := fun hn => absurd he hn
    fifo := fun _ => Nat.zero_le _
    reserved := ⟨BitVec.zero_and, BitVec.zero_and, h.reserved.2.2⟩ }

/-- `Configure` of a port that is not begun (R163). -/
theorem PortInv.configureRegs (h : PortInv c t u) (hb : u.begun = false) (d : BaudSetting) (cfg : Half) :
    PortInv c t (u.configureRegs d cfg) := by
  obtain ⟨-, -, -, he, -⟩ := h.ended hb
  obtain ⟨h6, h5, hres⟩ := configure_ctrla_bits cfg
  rw [Port.configureRegs_eq]
  exact { h with
    held := fun hn => absurd he hn
    dreie := fun _ => rfl
    txcie := fun hx => by rw [Periph.txcie_eq, h6] at hx; cases hx
    ended := fun hn => by cases hn
    armed := fun hn => absurd he hn
    reserved := ⟨hres, ctrlBValue_reserved d cfg, by simp [BitVec.and_assoc]⟩ }

/-- A turn of the line or of the environment that keeps the bound of RXFIFO. -/
theorem PortInv.lineFrame (h : PortInv c t u) {u' : Port} (hf : LineFrame u u')
    (hq : c.line = .reference → u'.uart.rxFifo.length ≤ c.rxFifoDepth) : PortInv c t u' := by
  rw [LineFrame] at hf
  rw [hf]
  exact { h with fifo := hq }

end

theorem Port.shutdown_begun (u : Port) : u.shutdown.begun = false := by rw [Port.shutdown_eq]

/-- A byte that arrives keeps the bound of RXFIFO (R284). -/
theorem rxArrive_length_le {depth : Nat} {l : List RxEntry} {e : RxEntry} {P : Prop} [Decidable P]
    (h : l.length ≤ depth) : (if P ∧ l.length < depth then l ++ [e] else l).length ≤ depth := by
  split
  · next hlt => rw [List.length_append]; exact hlt.2
  · exact h

/-- The blocked WRITE's port is begun and written. -/
theorem State.SeqInv.of_writeWait {s : State} (h : s.SeqInv) {p : Nat} {b : Byte} {c : PortParams} {u : Port}
    (hs : s.seq = .writeWait p b) (hl : s.lookup p = some (c, u)) : u.begun = true ∧ u.written = true := by
  rw [State.SeqInv, hs] at h
  obtain ⟨c', u', hl', hb, hw⟩ := h
  rw [hl] at hl'
  cases hl'
  exact ⟨hb, hw⟩

/-- Every Host step keeps the invariant of the port it changes. -/
theorem HostChange.portInv {s : State} {p : Nat} {c : PortParams} {u u' : Port} {q : Seq} (hw : s.params.Wf)
    (hs : s.SeqInv) (hl : s.lookup p = some (c, u)) (h : PortInv s.params c u) (hc : HostChange s p c u u' q) :
    PortInv s.params c u' := by
  cases hc with
  | popped v r hp =>
    have hne : u.rxb.head ≠ u.rxb.tail := by
      rcases u.rxb.tryPop_cases s.params.rxCap with ⟨-, he⟩ | ⟨hne, -⟩
      · rw [he] at hp; cases hp
      · exact hne
    have hb : u.begun = true := by
      by_contra hb
      obtain ⟨-, -, he, -⟩ := h.ended (by simpa using hb)
      exact hne he
    exact h.set_rxb (h.rx.tryPop hw.rx_cap hp) hb
  | bound idx hv => exact { h with pgi := hv }
  | configured d cfg hb => exact h.configureRegs hb d cfg
  | ended _ hf => exact h.shutdown (h.txb_empty_of_flushed hf)
  | reconfigured d cfg _ hf =>
    exact (h.shutdown (h.txb_empty_of_flushed hf)).configureRegs u.shutdown_begun d cfg
  | fast b hb => exact h.fastWrite hb b
  | pushed b hb ha => exact (h.set_written hb).pushByte hw hb rfl b (h.tx.not_full hw.tx_cap ha)
  | pushedLate b hq ha =>
    obtain ⟨hb, hwr⟩ := hs.of_writeWait hq hl
    exact h.pushByte hw hb hwr b (h.tx.not_full hw.tx_cap ha)
  | blocked b hb => exact (h.set_written hb).pollPort hw
  | polled => exact h.pollPort hw

/-- Every handler and environment step keeps the invariant of the port it changes. -/
theorem QuietChange.portInv {s : State} {c : PortParams} {u u' : Port} (hw : s.params.Wf)
    (h : PortInv s.params c u) (hc : QuietChange s u u') : PortInv s.params c u' := by
  cases hc with
  | rxc free hd =>
    obtain ⟨e, rest, hf⟩ := rxFifo_of_dispatchable hd
    have hlen : s.params.line = .reference → rest.length ≤ s.params.rxFifoDepth := fun hr =>
      Nat.le_of_succ_le (by simpa [hf] using h.fifo hr)
    have hfifo : PortInv s.params c { u with uart := { u.uart with rxFifo := rest } } := { h with fifo := hlen }
    rcases u.rxcBody_cases s.params.rxCap free hf with ⟨-, hu⟩ | ⟨-, hn, hu⟩ <;> rw [hu]
    · exact hfifo
    · exact hfifo.set_rxb (h.rx.pushed hw.rx_cap e.byte hn) (h.begun_of_dispatchable hd)
  | dre => exact h.dreStep hw
  | txc free hd =>
    have hb := h.begun_of_dispatchable hd
    obtain ⟨-, h6, h5, -, -, -, hres⟩ := txcValue_bits u.uart.ctrla
    rw [Port.txcBody_eq]
    exact { h with
      dreie := fun _ => hb
      txcie := fun hx => by rw [Periph.txcie_eq, h6] at hx; cases hx
      ended := fun he => by rw [hb] at he; cases he
      armed := fun hn => h5.trans (h.armed hn)
      fifo := fun _ => Nat.zero_le _
      reserved := ⟨hres, h.reserved.2⟩ }
  | lineLoad =>
    refine h.lineFrame (lineFrame_lineLoad u) fun hr => ?_
    rcases u.uart.lineLoad_cases with ⟨b, -, -, -, hu⟩ | hu <;> rw [hu] <;> exact h.fifo hr
  | lineShiftDone hr =>
    refine h.lineFrame (lineFrame_lineShiftDone _ u) fun _ => ?_
    rcases u.lineShiftDone_cases s.params.rxFifoDepth with ⟨-, hu⟩ | ⟨b, -, hu⟩ <;> rw [hu]
    · exact h.fifo hr
    · simpa using rxArrive_length_le (P := (u.uart.lbme && u.uart.rxen) = true) (h.fifo hr)
  | lineRx e hr =>
    refine h.lineFrame (lineFrame_lineRx _ u e) fun _ => ?_
    rw [Periph.lineRx_eq]
    exact rxArrive_length_le (h.fifo hr)
  | envDataEmpty | envTransmitComplete => exact { h with }
  | envReceive e hv => exact { h with fifo := fun hr => by rw [hv] at hr; cases hr }

/-! ### The sequencer and the whole state -/

/-- The port a blocked command names stays begun and written while neither changes on any port. -/
theorem State.SeqInv.of_kept {s t : State} (h : s.SeqInv) (hq : t.seq = s.seq)
    (hk : ∀ p c u, s.lookup p = some (c, u) →
      ∃ u', t.lookup p = some (c, u') ∧ u'.begun = u.begun ∧ u'.written = u.written) :
    t.SeqInv := by
  have keep : ∀ p, (∃ c u, s.lookup p = some (c, u) ∧ u.begun = true ∧ u.written = true) →
      ∃ c u, t.lookup p = some (c, u) ∧ u.begun = true ∧ u.written = true := by
    rintro p ⟨c, u, hl, hb, hw⟩
    obtain ⟨u', hl', hb', hw'⟩ := hk p c u hl
    exact ⟨c, u', hl', hb'.trans hb, hw'.trans hw⟩
  unfold State.SeqInv at h ⊢
  rw [hq]
  cases hs : s.seq with
  | ready => trivial
  | writeWait p b => rw [hs] at h; exact keep p h
  | flushWait p k => rw [hs] at h; exact keep p h

theorem State.seqInv_of_ready {s : State} (h : s.seq = .ready) : s.SeqInv := by
  rw [State.SeqInv, h]; trivial

/-- Replacing a port by one that is as begun and as written. -/
theorem State.SeqInv.of_setPort {s t : State} (h : s.SeqInv) (hq : t.seq = s.seq) (hp : t.params = s.params) {p : Nat}
    {c : PortParams} {u u' : Port} (hl : s.lookup p = some (c, u)) (ht : t.ports = s.ports.set p u')
    (hk : StatusKept u u') : t.SeqInv := by
  have hlt : ∀ r, t.lookup r = (s.setPort p u').lookup r := State.lookup_congr hp ht
  refine h.of_kept hq fun r d v hr => ?_
  by_cases hpr : p = r
  · subst hpr
    rw [hl] at hr
    cases hr
    exact ⟨u', by rw [hlt, State.lookup_setPort_same u' hl], hk.begun, hk.written⟩
  · exact ⟨v, by rw [hlt, State.lookup_setPort_ne u' hpr, hr], rfl, rfl⟩

/-- A command blocks only on an existing begun port that has been written (R45, R167, R172). -/
theorem HostCases.seqInv {s t : State} (hp : t.params = s.params) (hq : s.seq = .ready)
    (hb : ∀ p c u, s.lookup p = some (c, u) → u.written = true → u.begun = true) (h : HostCases s t) : t.SeqInv := by
  rcases h with ⟨-, -, -, hs | hs⟩ | ⟨p, k, c, u, hl, hw, ht, -, -, hs⟩ | ⟨p, c, u, u', hl, hc, ht, -⟩
  · exact State.seqInv_of_ready (hs.trans hq)
  · exact State.seqInv_of_ready hs
  · rw [State.SeqInv, hs]
    exact ⟨c, u, by rw [State.lookup_congr hp ht, hl], hb p c u hl hw, hw⟩
  · have ready : ∀ q, q = s.seq ∨ q = .ready → q = .ready := fun q h => h.elim (·.trans hq) id
    have lookup : t.lookup p = some (c, u') := by
      rw [State.lookup_congr (s := s.setPort p u') hp ht, State.lookup_setPort_same u' hl]
    generalize hs : t.seq = q at hc
    cases hc with
    | popped | bound | configured | fast | polled => exact State.seqInv_of_ready (hs.trans hq)
    | ended _ _ h => exact State.seqInv_of_ready (hs.trans (ready _ h))
    | reconfigured _ _ _ _ h => exact State.seqInv_of_ready (hs.trans (ready _ h))
    | pushed | pushedLate => exact State.seqInv_of_ready hs
    | blocked b hbegun =>
      obtain ⟨-, h1, h2⟩ := s.pollPort_status { u with written := true }
      rw [State.SeqInv, hs]
      exact ⟨c, _, lookup, h1.trans hbegun, h2⟩

/-- Every step keeps what the sequencer may hold. -/
theorem step_seqInv {s t : State} (hi : s.Inv) (h : step s = .next t) : t.SeqInv := by
  have hp : t.params = s.afterDraw.params := by rw [step_params h, State.afterDraw_params]
  have hsd : s.afterDraw.SeqInv := hi.seq.of_kept (by simp) fun p c u hl => ⟨u, by simpa using hl, rfl, rfl⟩
  rcases step_turn_cases h with ⟨i, rest, his, hic, hx⟩ | ⟨-, hs, hx⟩ | ⟨p, c, u, u', hl, hc, rfl⟩ | ht
  · refine HostCases.seqInv (s := { s.afterDraw with program := rest }) hp (by simpa using his.2.1)
      (fun p c u hl => ?_) (exec_command_cases hic hx).2
    rw [State.lookup_congr (s := s) (by simp) (by simp)] at hl
    exact (hi.ports p c u hl).begun_of_written
  · rcases spin_seq (by simpa using hs) hx with hq | ⟨p, c, u, hl, hq, -, -, ht⟩
    · exact State.seqInv_of_ready hq
    · exact hsd.of_setPort hq hp hl ht (s.afterDraw.pollPort_status u)
  · exact hsd.of_setPort rfl rfl (by simpa using hl) rfl hc.status
  · refine hi.seq.of_kept (by rw [ht]; simp) fun p c u hl => ⟨u, ?_, rfl, rfl⟩
    rw [State.lookup_congr (s := s) (by rw [ht]; simp) (by rw [ht]; simp), hl]

theorem maskedRoute_lt (width old mask code : Nat) : maskedRoute width old mask code < 2 ^ width := BitVec.isLt _

/-- Where the ports of `t` come from those of `s` by steps that keep `P`, all of them have `P`. -/
theorem step_forall_ports {s t : State} (h : step s = .next t) {P : PortParams → Port → Prop}
    (hs : ∀ p c u, s.lookup p = some (c, u) → P c u)
    (hc : ∀ p c u u', s.lookup p = some (c, u) → HostChange s p c u u' t.seq ∨ QuietChange s u u' → P c u') :
    ∀ p c u', t.lookup p = some (c, u') → P c u' := by
  intro p c u' hl
  obtain ⟨hcp, hu'⟩ := State.lookup_eq_some.mp hl
  rw [step_params h] at hcp
  rcases step_port_cases h hu' with hu | ⟨c', u, hl', hch⟩
  · exact hs p c u' (State.lookup_eq_some.mpr ⟨hcp, hu⟩)
  · obtain ⟨hcp', -⟩ := State.lookup_eq_some.mp hl'
    rw [hcp] at hcp'
    cases hcp'
    exact hc p c u u' hl' hch

/-- Settles O47: the step's cases, each of which keeps the invariant of the port it changes. -/
theorem stepKeepsStateInvariant : Obligations.StepKeepsStateInvariant := by
  intro s t hi h
  have hp := step_params h
  have hports : ∀ p c u', t.lookup p = some (c, u') → PortInv s.params c u' :=
    step_forall_ports h hi.ports fun p c u u' hl hc =>
      hc.elim (HostChange.portInv hi.params hi.seq hl (hi.ports p c u hl))
        (QuietChange.portInv hi.params (hi.ports p c u hl))
  refine ⟨hp ▸ hi.params, ?_, ?_, step_seqInv hi h, hp ▸ hports⟩
  · rw [step_ports_length h, hp, hi.count]
  · rw [hp]
    rcases step_routing h with ⟨hr, -⟩ | ⟨p, c, u, -, -, -, ⟨code, hr⟩, -⟩ <;> rw [hr]
    · exact hi.route
    · exact maskedRoute_lt _ _ _ _

end Sys2Proof.Machine
end

section
/-! SUPPORT. The invariant of one port under the reference peripheral (10_state.md R51 item 8, R44, R174, R339), and O48
from it. -/

namespace Sys2Proof.Machine

open Sys2Proof

section
variable {c : Params} {t : PortParams} {u : Port}

/-- A port whose flush is done has nothing left in the peripheral (R174). -/
theorem PortLineInv.empty_of_flushed (h : PortLineInv u) (hf : u.flushed) :
    u.uart.txHold = none ∧ u.uart.txShift = none := by
  rcases hf with hw | hd
  · exact h.idle hw
  · simp only [Periph.flushDone, Bool.and_eq_true] at hd
    exact h.complete hd.2

/-- A byte written to the empty TXDATA of a port that is written (R79, R90). -/
theorem PortLineInv.sendByte {u' : Port} (h : PortLineInv u) (hn : u.uart.txHold = none) (b : Byte)
    (hw : u'.written = true) (hc : u'.uart.txcif = false) (hh : u'.uart.txHold = some b)
    (hs : u'.uart.txShift = u.uart.txShift) (hl : u'.txLog = u.txLog ++ [b]) (ho : u'.lineOut = u.lineOut)
    (hq : u'.hd = true → u'.uart.rxcie = false) (hb : u'.begun = true) : PortLineInv u' where
  complete hx := by rw [hc] at hx; cases hx
  idle hx := by rw [hw] at hx; cases hx
  inFlight _ := Or.inr (Or.inl (by rw [hh]; exact Option.some_ne_none b))
  log := by simp [hl, ho, hh, hs, h.log, hn]
  hdQuiet hd hr := by rw [hq hd] at hr; cases hr
  endedFifo hx := by rw [hb] at hx; cases hx

/-- RXCIE after the arming of a WRITE (R168): clear on a half-duplex port. -/
theorem armed_rxcie (hd : u.hd = true) :
    (if u.hd then hdArmValue u.uart.ctrla else u.uart.ctrla).getLsbD 7 = false := by
  rw [if_pos hd]
  exact (hdArmValue_bits _).1

/-- `DreStep` with DREIF set (R169). -/
theorem PortLineInv.dreStep (hi : PortInv c t u) (h : PortLineInv u) (hn : u.uart.txHold = none) :
    PortLineInv (u.dreStep c.txCap) := by
  rcases u.dreStep_cases c.txCap with ⟨he, hu⟩ | ⟨hne, hu⟩ <;> rw [hu]
  · obtain ⟨h7, -⟩ := dreOffValue_bits u.uart.ctrla
    exact { h with hdQuiet := fun hd hr => h.hdQuiet hd (h7.symm.trans hr) }
  · obtain ⟨hw, hb⟩ := hi.held hne
    refine h.sendByte hn _ hw rfl rfl rfl rfl rfl (fun hd => ?_) hb
    exact eq_false_of_ne_true fun hr => hne (h.hdQuiet hd hr).1

theorem PortLineInv.pollPort {s : State} (hi : PortInv s.params t u) (h : PortLineInv u) :
    PortLineInv (s.pollPort u) := by
  rcases s.pollPort_cases u with hp | ⟨-, hn, hp⟩ <;> rw [hp]
  · exact h
  · exact h.dreStep hi hn

/-- `Shutdown` of a port whose flush is done (R177). -/
theorem PortLineInv.shutdown (h : PortLineInv u) (hf : u.flushed) : PortLineInv u.shutdown := by
  rw [Port.shutdown_eq]
  exact { h with
    complete := fun hx => by cases hx
    idle := fun _ => h.empty_of_flushed hf
    inFlight := fun hx => by cases hx
    hdQuiet := fun hx => by cases hx
    endedFifo := fun _ => rfl }

/-- `Configure` of a port that is not begun (R163). -/
theorem PortLineInv.configureRegs (hi : PortInv c t u) (h : PortLineInv u) (hb : u.begun = false) (d : BaudSetting)
    (cfg : Half) : PortLineInv (u.configureRegs d cfg) := by
  obtain ⟨-, -, -, he, hw, -⟩ := hi.ended hb
  rw [Port.configureRegs_eq]
  exact { h with
    idle := fun _ => h.idle hw
    inFlight := fun hx => by cases hx
    hdQuiet := fun _ _ => ⟨he, h.idle hw⟩
    endedFifo := fun hx => by cases hx }

/-- The fast path of WRITE (R166). -/
theorem PortLineInv.fastWrite (h : PortLineInv u) (hb : u.begun = true) (hn : u.uart.txHold = none) (b : Byte) :
    PortLineInv ({ u with written := true }.fastWrite b) := by
  rw [Port.fastWrite_eq]
  exact h.sendByte hn b rfl rfl rfl rfl rfl rfl (fun hd => armed_rxcie (u := u) hd) hb

/-- The push of a WRITE with a slot free, on a port that the WRITE marks as written (R166, R167). -/
theorem PortLineInv.pushByte {cap : Nat} (h : PortLineInv u) (hb : u.begun = true) (b : Byte)
    (hn : cursorNext cap u.txb.head ≠ u.txb.tail) : PortLineInv ({ u with written := true }.pushByte cap b) := by
  obtain ⟨h7, -⟩ := dreOnValue_bits (if u.hd then hdArmValue u.uart.ctrla else u.uart.ctrla)
  rw [Port.pushByte_eq (u := { u with written := true }) b hn]
  exact { h with
    idle := fun hx => by cases hx
    inFlight := fun _ => Or.inl hn
    hdQuiet := fun hd hr => by
      have hoff := h7.trans (armed_rxcie hd)
      rw [Periph.rxcie_eq, hoff] at hr
      cases hr
    endedFifo := fun hx => by rw [hb] at hx; cases hx }

end

/-- Every Host step keeps the line invariant of the port it changes. -/
theorem HostChange.portLineInv {s : State} {p : Nat} {c : PortParams} {u u' : Port} {q : Seq} (hw : s.params.Wf)
    (hs : s.SeqInv) (hl : s.lookup p = some (c, u)) (hi : PortInv s.params c u) (h : PortLineInv u)
    (hc : HostChange s p c u u' q) : PortLineInv u' := by
  cases hc with
  | popped | bound => exact { h with }
  | configured d cfg hb => exact h.configureRegs hi hb d cfg
  | ended _ hf => exact h.shutdown hf
  | reconfigured d cfg _ hf =>
    exact (h.shutdown hf).configureRegs (hi.shutdown (hi.txb_empty_of_flushed hf)) u.shutdown_begun d cfg
  | fast b hb _ hd => exact h.fastWrite hb (Option.isNone_iff_eq_none.mp hd) b
  | pushed b hb ha => exact h.pushByte hb b (hi.tx.not_full hw.tx_cap ha)
  | pushedLate b hq ha =>
    obtain ⟨hb, hwr⟩ := hs.of_writeWait hq hl
    have hu : { u with written := true } = u := by rw [← hwr]
    have hp := h.pushByte hb b (hi.tx.not_full hw.tx_cap ha)
    rwa [hu] at hp
  | blocked b _ ha =>
    rw [hi.set_written_of_held (hi.tx.head_ne_tail_of_full hw.tx_cap ha)]
    exact h.pollPort hi
  | polled => exact h.pollPort hi

/-- TXC is dispatched only when nothing is left to send: TXCIF is set, and neither RXC nor DRE is pending (R263). -/
theorem txc_drained {s : State} {c : PortParams} {u : Port} (hi : PortInv s.params c u) (h : PortLineInv u)
    (hd : s.dispatchable u.uart .txc = true) :
    u.txb.head = u.txb.tail ∧ u.uart.txHold = none ∧ u.uart.txShift = none := by
  obtain ⟨-, -, hp, hnone⟩ := State.dispatchable_iff.mp hd
  simp only [Periph.pending, Bool.and_eq_true] at hp
  obtain ⟨hh, hsh⟩ := h.complete hp.2
  simp only [Periph.noneAbove, Bool.and_eq_true] at hnone
  have hdre : u.uart.dreie = false := by simpa [Periph.pending, Periph.dreif, hh] using hnone.2
  exact ⟨hi.txb_empty_of_dreie hdre, hh, hsh⟩

/-- Every handler and every step of the reference line keeps the line invariant of the port it changes. -/
theorem QuietChange.portLineInv {s : State} {c : PortParams} {u u' : Port} (hr : s.params.line = .reference)
    (hi : PortInv s.params c u) (h : PortLineInv u) (hc : QuietChange s u u') : PortLineInv u' := by
  cases hc with
  | rxc free hd =>
    have hb := hi.begun_of_dispatchable hd
    obtain ⟨e, rest, hf⟩ := rxFifo_of_dispatchable hd
    rcases u.rxcBody_cases s.params.rxCap free hf with ⟨-, hu⟩ | ⟨-, -, hu⟩ <;> rw [hu]
    all_goals exact { h with endedFifo := fun hx => by rw [hb] at hx; cases hx }
  | dre hd =>
    obtain ⟨-, -, hp, -⟩ := State.dispatchable_iff.mp hd
    simp only [Periph.pending, Periph.dreif, Bool.and_eq_true, Option.isNone_iff_eq_none] at hp
    exact h.dreStep hi hp.2
  | txc free hd =>
    have hdone := txc_drained hi h hd
    rw [Port.txcBody_eq]
    exact { h with hdQuiet := fun _ _ => hdone, endedFifo := fun _ => rfl }
  | lineLoad =>
    rcases u.uart.lineLoad_cases with ⟨b, -, hs, hh, hu⟩ | hu <;> rw [hu]
    · exact { h with
        complete := fun hx => by rw [(h.complete hx).1] at hh; cases hh
        idle := fun hx => by rw [(h.idle hx).1] at hh; cases hh
        inFlight := fun _ => Or.inr (Or.inr (Or.inl (Option.some_ne_none b)))
        log := by simp [h.log, hs, hh]
        hdQuiet := fun hd hx => by rw [(h.hdQuiet hd hx).2.1] at hh; cases hh }
    · exact h
  | lineShiftDone =>
    rcases u.lineShiftDone_cases s.params.rxFifoDepth with ⟨-, hu⟩ | ⟨b, hs, hu⟩ <;> rw [hu]
    · exact h
    · exact {
        complete := fun hx => by
          rcases (Bool.or_eq_true _ _).mp hx with hx | hx
          · rw [(h.complete hx).2] at hs; cases hs
          · exact ⟨rfl, Option.isNone_iff_eq_none.mp hx⟩
        idle := fun hx => by rw [(h.idle hx).2] at hs; cases hs
        inFlight := fun _ => by
          cases hh : u.uart.txHold with
          | none => exact Or.inr (Or.inr (Or.inr (by simp)))
          | some b' => exact Or.inr (Or.inr (Or.inl (by simp)))
        log := by simp [h.log, hs]
        hdQuiet := fun hd hx => by rw [(h.hdQuiet hd hx).2.2] at hs; cases hs
        endedFifo := fun hx => by
          obtain ⟨-, -, -, -, hw, -⟩ := hi.ended hx
          rw [(h.idle hw).2] at hs
          cases hs }
  | lineRx e =>
    rw [Periph.lineRx_eq]
    refine { h with endedFifo := fun hx => ?_ }
    obtain ⟨-, hb, -⟩ := hi.ended hx
    have hoff : u.uart.rxen = false := by rw [Periph.rxen, hb]; rfl
    simpa [hoff] using h.endedFifo hx
  | envDataEmpty hv => rw [hr] at hv; cases hv
  | envTransmitComplete hv => rw [hr] at hv; cases hv
  | envReceive e hv => rw [hr] at hv; cases hv

/-- Settles O48: the step's cases, each of which keeps the line invariant of the port it changes. -/
theorem stepKeepsLineInvariant : Obligations.StepKeepsLineInvariant := by
  intro s t hi hline hr h
  refine step_forall_ports h hline fun p c u u' hl hc => ?_
  have hport := hi.ports p c u hl
  have hu := hline p c u hl
  exact hc.elim (HostChange.portLineInv hi.params hi.seq hl hport hu) (QuietChange.portLineInv hr hport hu)

end Sys2Proof.Machine
end

section
/-! SUPPORT. The bytes a ring buffer holds under push and pop (10_state.md R25), what reset leaves (R50), and O12, O45, O46
from it. -/

namespace Sys2Proof.Machine

open Sys2Proof

/-! ### The bytes held -/

/-- A sum of two cursors wraps at most once. -/
theorem mod_of_lt_two_mul {n cap : Nat} (h : n < 2 * cap) : n % cap = if n < cap then n else n - cap := by
  split
  · next hlt => exact Nat.mod_eq_of_lt hlt
  · next hge => rw [Nat.mod_eq_sub_mod (by omega), Nat.mod_eq_of_lt (by omega)]

section
variable {cap : Nat} {b : Ring}

/-- The slot after the last byte held is `head` (R25). -/
theorem Ring.tail_add_available (hc : LegalCap cap) (h : b.Wf cap) : (b.tail + b.available cap) % cap = b.head := by
  have hh := h.head
  have ht := h.tail
  rw [Ring.available_eq hc hh ht]
  split
  · rw [mod_of_lt_two_mul (by omega), if_pos (by omega)]; omega
  · rw [mod_of_lt_two_mul (by omega), if_neg (by omega)]; omega

/-- No byte held is in the slot at `head` (R25). -/
theorem Ring.slot_ne_head (hc : LegalCap cap) (h : b.Wf cap) {i : Nat} (hi : i < b.available cap) :
    (b.tail + i) % cap ≠ b.head := by
  have hh := h.head
  have ht := h.tail
  rw [Ring.available_eq hc hh ht] at hi
  rw [mod_of_lt_two_mul (by split at hi <;> omega)]
  split <;> split at hi <;> omega

theorem Ring.held_eq (hc : LegalCap cap) :
    b.held cap = (List.range (b.available cap)).map fun i => Memory.read b.data ((b.tail + i) % cap) := by
  simp only [Ring.held, hc.and_mask]

theorem Ring.held_of_empty (hc : LegalCap cap) (h : b.Wf cap) (he : b.head = b.tail) : b.held cap = [] := by
  rw [Ring.held_eq hc, (Ring.available_eq_zero hc h.head h.tail).mpr he]
  rfl

/-- A push makes one byte more (R141, R143). -/
theorem Ring.available_pushed (hc : LegalCap cap) (h : b.Wf cap) (m : Memory) (hn : cursorNext cap b.head ≠ b.tail) :
    Ring.available cap ⟨cursorNext cap b.head, b.tail, m⟩ = b.available cap + 1 := by
  have hh := h.head
  have ht := h.tail
  have hlt := cursorNext_lt hc b.head
  rw [Ring.available_eq (b := ⟨cursorNext cap b.head, b.tail, m⟩) hc hlt ht, Ring.available_eq hc hh ht]
  have hnext := cursorNext_cases hc hh
  dsimp only
  split at hnext <;> split <;> split <;> omega

/-- A pop makes one byte less (R142, R143). -/
theorem Ring.available_popped (hc : LegalCap cap) (h : b.Wf cap) (m : Memory) (hn : b.head ≠ b.tail) :
    b.available cap = Ring.available cap ⟨b.head, cursorNext cap b.tail, m⟩ + 1 := by
  have hh := h.head
  have ht := h.tail
  have hlt := cursorNext_lt hc b.tail
  rw [Ring.available_eq (b := ⟨b.head, cursorNext cap b.tail, m⟩) hc hh hlt, Ring.available_eq hc hh ht]
  have hnext := cursorNext_cases hc ht
  dsimp only
  split at hnext <;> split <;> split <;> omega

/-- A pushed byte is the newest of the bytes held (R25, R141). -/
theorem Ring.held_pushed (hc : LegalCap cap) (h : b.Wf cap) (v : Byte) (hn : cursorNext cap b.head ≠ b.tail) :
    Ring.held cap ⟨cursorNext cap b.head, b.tail, Memory.write b.data b.head v⟩ = b.held cap ++ [v] := by
  rw [Ring.held_eq hc, Ring.held_eq hc, Ring.available_pushed hc h _ hn, List.range_succ, List.map_append]
  congr 1
  · refine List.map_congr_left fun i hi => ?_
    rw [Memory.read_write h.data, if_neg (Ring.slot_ne_head hc h (List.mem_range.mp hi))]
  · rw [List.map_singleton, Memory.read_write h.data, if_pos (Ring.tail_add_available hc h)]

/-- A popped byte was the oldest of the bytes held (R25, R142). -/
theorem Ring.held_popped (hc : LegalCap cap) (h : b.Wf cap) (hn : b.head ≠ b.tail) :
    b.held cap = Memory.read b.data b.tail :: Ring.held cap ⟨b.head, cursorNext cap b.tail, b.data⟩ := by
  rw [Ring.held_eq hc, Ring.held_eq hc, Ring.available_popped hc h b.data hn, List.range_succ_eq_map, List.map_cons,
    List.map_map]
  congr 1
  · rw [Nat.add_zero, Nat.mod_eq_of_lt h.tail]
  · refine List.map_congr_left fun i _ => ?_
    simp only [Function.comp_apply, cursorNext_eq hc, Nat.mod_add_mod]
    congr 2
    omega

end

/-- Settles O12: what a push and a pop do to the bytes held. -/
theorem pushAppendsPopRemovesOldest : Obligations.PushAppendsPopRemovesOldest := by
  intro cap b r v hc h
  refine ⟨fun hp => ?_, fun hp => ?_, ?_⟩
  · rcases b.tryPush_cases cap v with ⟨-, he⟩ | ⟨hn, he⟩ <;> rw [he] at hp <;> cases hp
    exact Ring.held_pushed hc h v hn
  · rcases b.tryPop_cases cap with ⟨-, he⟩ | ⟨hn, he⟩ <;> rw [he] at hp <;> cases hp
    exact Ring.held_popped hc h hn
  · unfold Ring.front
    split
    · next he => rw [Ring.held_of_empty hc h he]; rfl
    · next hn => rw [Ring.held_popped hc h hn]; rfl

/-! ### Reset -/

theorem legalCap_pos {cap : Nat} (h : LegalCap cap) : 0 < cap := by
  have := h.two_le
  omega

/-- Every port of a reset machine is `Port.reset` (R50). -/
theorem State.mem_resetWith_ports {c : Params} {u : Port} (h : u ∈ (State.resetWith c).ports) : u = Port.reset := by
  obtain ⟨-, -, rfl⟩ := List.mem_map.mp h
  rfl

theorem Port.reset_isReset : Port.reset.IsReset where
  pgi := rfl
  st := ⟨rfl, rfl, rfl⟩
  cursors := ⟨rfl, rfl, rfl, rfl⟩
  ctrl := ⟨rfl, rfl⟩
  status := by decide
  hidden := ⟨rfl, rfl, rfl⟩
  ghosts := ⟨rfl, rfl⟩

theorem State.resetWith_isReset (c : Params) : (State.resetWith c).IsReset where
  count := List.length_map _
  ports u hu := by rw [State.mem_resetWith_ports hu]; exact Port.reset_isReset
  interrupts := ⟨rfl, rfl⟩
  seq := rfl

/-- Settles O45: reset leaves `Port.reset` on every port, in every configuration. -/
theorem resetValues : Obligations.ResetValues := by
  refine ⟨fun c => ⟨State.resetWith_isReset c, rfl, fun u hu => ?_⟩, State.resetWith_isReset _, rfl⟩
  rw [State.mem_resetWith_ports hu]
  rfl

theorem Ring.reset_wf {cap : Nat} (h : LegalCap cap) : Ring.reset.Wf cap :=
  ⟨legalCap_pos h, legalCap_pos h, rfl, fun _ he => by cases he⟩

theorem PortInv.reset {c : Params} {t : PortParams} (hc : c.Wf) (ht : 1 ≤ t.rows.length) : PortInv c t Port.reset where
  rx := Ring.reset_wf hc.rx_cap
  tx := Ring.reset_wf hc.tx_cap
  pgi := Or.inl ht
  held hn := absurd rfl hn
  dreie hx := by cases hx
  txcie hx := by cases hx
  ended _ := ⟨rfl, rfl, rfl, rfl, rfl, rfl⟩
  armed hn := absurd rfl hn
  fifo _ := Nat.zero_le _
  reserved := ⟨rfl, rfl, rfl⟩

theorem PortLineInv.reset : PortLineInv Port.reset where
  complete hx := by cases hx
  idle _ := ⟨rfl, rfl⟩
  inFlight hx := by cases hx
  log := rfl
  hdQuiet hx := by cases hx
  endedFifo _ := rfl

/-- The invariants hold after reset in a legal configuration (R50, R51). -/
theorem State.resetWith_invariants {c : Params} (hc : c.Wf) :
    (State.resetWith c).Inv ∧ (State.resetWith c).LineInv ∧ (State.resetWith c).memoryWf = true := by
  have port : ∀ p t u, (State.resetWith c).lookup p = some (t, u) → t ∈ c.ports ∧ u = Port.reset := by
    intro p t u hl
    obtain ⟨ht, hu⟩ := State.lookup_eq_some.mp hl
    exact ⟨List.mem_of_getElem? ht, State.mem_resetWith_ports (List.mem_of_getElem? hu)⟩
  refine ⟨⟨hc, List.length_map _, Nat.two_pow_pos _, trivial, fun p t u hl => ?_⟩, fun p t u hl => ?_, ?_⟩
  · obtain ⟨ht, rfl⟩ := port p t u hl
    exact PortInv.reset hc (hc.tables t ht).rows_pos
  · obtain ⟨-, rfl⟩ := port p t u hl
    exact PortLineInv.reset
  · refine State.memoryWf_iff.mpr ⟨fun p u hu => ?_, rfl⟩
    rw [State.mem_resetWith_ports (List.mem_of_getElem? hu)]
    exact ⟨rfl, rfl⟩

/-- The machine's own configuration is legal (R8). -/
theorem cfgT_legal : Config.cfgT.Wf where
  nports_pos := by decide
  nports_le := by decide
  rx_cap := ⟨4, by decide, by decide, rfl⟩
  tx_cap := ⟨4, by decide, by decide, rfl⟩
  f_clk := by decide
  route_width := by decide
  fifo_depth := by decide
  tables t ht := by
    rcases List.mem_pair.mp ht with rfl | rfl
    · exact ⟨by decide, by decide, by decide, by decide, by decide, by decide⟩
    · exact ⟨by decide, by decide, by decide, by decide, by decide, by decide⟩
  disjoint p q t t' hne hp hq := by
    have two : ∀ {i : Nat} {x : PortParams}, Config.cfgT.ports[i]? = some x → i < 2 := fun h =>
      (List.getElem?_eq_some_iff.mp h).1
    have hp2 := two hp
    have hq2 := two hq
    obtain ⟨rfl, rfl⟩ | ⟨rfl, rfl⟩ : (p = 0 ∧ q = 1) ∨ (p = 1 ∧ q = 0) := by omega
    all_goals cases hp; cases hq; decide

/-- Settles O46: the base case of the invariants of O47, O48 and O49. -/
theorem resetMeetsInvariants : Obligations.ResetMeetsInvariants :=
  ⟨fun _ hc => State.resetWith_invariants hc, State.resetWith_invariants cfgT_legal⟩

end Sys2Proof.Machine
end

section
/-! SUPPORT. The bits that STATUS and RXDATA read as (20_memory.md R76, R77), and O8 from them. -/

namespace Sys2Proof.Machine

open Sys2Proof

/-- STATUS reads RXCIF, TXCIF and DREIF in bits 7, 6 and 5, and 0 in the others (R35, R76). -/
theorem Periph.status_bit_iff (u : Periph) (i : Nat) :
    u.status.getLsbD i = true ↔
      (i = 7 ∧ u.rxFifo ≠ []) ∨ (i = 6 ∧ u.txcif = true) ∨ (i = 5 ∧ u.txHold = none) := by
  have bit : u.status.getLsbD i = BitVec.getLsbD (w := 1 + 1 + 1 + 5)
      (BitVec.ofBool u.rxcif ++ BitVec.ofBool u.txcif ++ BitVec.ofBool u.dreif ++ 0#5) i := rfl
  rw [bit]
  simp only [BitVec.getLsbD_append, BitVec.getLsbD_ofBool]
  rcases (by omega : i < 5 ∨ i = 5 ∨ i = 6 ∨ i = 7 ∨ 7 < i) with h | rfl | rfl | rfl | h
  · simp [h]
    omega
  · simp [Periph.dreif]
  · simp
  · simp [Periph.rxcif]
  · simp [show i - 5 ≠ 0 by omega, show i - 5 - 1 ≠ 0 by omega, show i - 5 - 1 - 1 ≠ 0 by omega]
    omega

/-- RXDATA reads the byte in bits 7:0, PERR in bit 9 and FERR in bit 10, and 0 in the others (R35, R77). -/
theorem RxEntry.word_bit_iff (e : RxEntry) (i : Nat) :
    e.word.getLsbD i = true ↔
      (i < 8 ∧ e.byte.getLsbD i = true) ∨ (i = 9 ∧ e.perr = true) ∨ (i = 10 ∧ e.ferr = true) := by
  rw [RxEntry.word_getLsbD]
  simp only [BitVec.getLsbD_append, BitVec.getLsbD_ofBool]
  rcases (by omega : i < 8 ∨ i = 8 ∨ i = 9 ∨ i = 10 ∨ 10 < i) with h | rfl | rfl | rfl | h
  · simp [h]
    omega
  · simp
  · simp
  · simp
  · simp [show ¬ i < 8 by omega, show i - 8 - 1 ≠ 0 by omega, show i - 8 - 1 - 1 ≠ 0 by omega]
    omega

/-- Settles O8: the bits of the two words read, and the register operations by their equations. -/
theorem registerAccessSideEffects : Obligations.RegisterAccessSideEffects := by
  intro u free v e rest
  refine ⟨rfl, fun i => ?_, ?_, fun hf => ?_⟩
  · have wide : (u.regRead free .status).1.getLsbD i = u.uart.status.getLsbD i := rfl
    rw [wide, Periph.status_bit_iff]
  · rw [Port.regWrite]
    cases v.getLsbD 6 <;> simp
  · have read : u.regRead free .rxdata = (e.word, { u with uart := { u.uart with rxFifo := rest } }) := by
      rw [Port.regRead, hf]
    rw [read]
    exact ⟨rfl, e.word_bit_iff⟩

end Sys2Proof.Machine
end

section
/-! SUPPORT. The bytes sent or buffered across one step (20_memory.md R91, 41_transfer_state_machine.md R171), and O51
from them. -/

namespace Sys2Proof.Machine

open Sys2Proof

/-! ### The accepted bytes of one port under each operation -/

section
variable {cap : Nat} {u : Port}

/-- The byte that `DreStep` moves from the buffer to TXDATA was the oldest one held (R169). -/
theorem Port.dreStep_accepted (hc : LegalCap cap) (h : u.txb.Wf cap) :
    (u.dreStep cap).accepted cap = u.accepted cap := by
  rcases u.dreStep_cases cap with ⟨-, hd⟩ | ⟨hn, hd⟩ <;> rw [hd]
  · rfl
  · simp only [Port.accepted, Ring.held_popped hc h hn, List.append_assoc, List.singleton_append]

/-- A push with a slot free appends its byte (R167). -/
theorem Port.pushByte_accepted (hc : LegalCap cap) (h : u.txb.Wf cap) (b : Byte)
    (hn : cursorNext cap u.txb.head ≠ u.txb.tail) : (u.pushByte cap b).accepted cap = u.accepted cap ++ [b] := by
  rw [Port.pushByte_eq b hn]
  simp only [Port.accepted, Ring.held_pushed hc h b hn, List.append_assoc]

/-- The fast path overtakes nothing, because nothing is held (R166). -/
theorem Port.fastWrite_accepted (hc : LegalCap cap) (h : u.txb.Wf cap) (b : Byte) (he : u.txb.head = u.txb.tail) :
    (u.fastWrite b).accepted cap = u.accepted cap ++ [b] := by
  rw [Port.fastWrite_eq]
  simp only [Port.accepted, Ring.held_of_empty hc h he, List.append_nil]

theorem Port.shutdown_accepted : u.shutdown.accepted cap = u.accepted cap := by
  rw [Port.shutdown_eq]; rfl

theorem Port.configureRegs_accepted (d : BaudSetting) (cfg : Half) :
    (u.configureRegs d cfg).accepted cap = u.accepted cap := by
  rw [Port.configureRegs_eq]; rfl

theorem LineFrame.accepted {u' : Port} (h : LineFrame u u') : u'.accepted cap = u.accepted cap := by
  rw [LineFrame] at h
  rw [h]; rfl

end

theorem State.pollPort_accepted {s : State} {u : Port} (hc : LegalCap s.params.txCap) (h : u.txb.Wf s.params.txCap) :
    (s.pollPort u).accepted s.params.txCap = u.accepted s.params.txCap := by
  rcases s.pollPort_cases u with hp | ⟨-, -, hp⟩ <;> rw [hp]
  exact Port.dreStep_accepted hc h

/-- No handler and no environment step accepts a byte or loses one (R171). -/
theorem QuietChange.accepted {s : State} {u u' : Port} (hc : LegalCap s.params.txCap) (hw : u.txb.Wf s.params.txCap)
    (h : QuietChange s u u') : u'.accepted s.params.txCap = u.accepted s.params.txCap := by
  cases h with
  | rxc free hd =>
    obtain ⟨e, rest, hf⟩ := rxFifo_of_dispatchable hd
    rcases u.rxcBody_cases s.params.rxCap free hf with ⟨-, h⟩ | ⟨-, -, h⟩ <;> rw [h] <;> rfl
  | dre => exact Port.dreStep_accepted hc hw
  | txc free => rw [Port.txcBody_eq]; rfl
  | lineLoad => exact (lineFrame_lineLoad u).accepted
  | lineShiftDone => exact (lineFrame_lineShiftDone _ u).accepted
  | lineRx e => exact (lineFrame_lineRx _ u e).accepted
  | envDataEmpty | envTransmitComplete | envReceive => rfl

/-! ### The accepted bytes of every port -/

/-- The transmit buffers are well formed under a legal capacity. -/
structure State.TransmitWf (s : State) : Prop where
  cap : LegalCap s.params.txCap
  ring : ∀ (p : Nat) (u : Port), s.ports[p]? = some u → u.txb.Wf s.params.txCap

theorem State.Inv.transmitWf {s : State} (h : s.Inv) : s.TransmitWf where
  cap := h.params.tx_cap
  ring p u hu := by
    have hlt : p < s.params.ports.length := by
      rw [← Params.nports, ← h.count]
      exact (List.getElem?_eq_some_iff.mp hu).1
    exact (h.ports p _ u (State.lookup_eq_some.mpr ⟨List.getElem?_eq_getElem hlt, hu⟩)).tx

theorem State.TransmitWf.congr {s s' : State} (h : s.TransmitWf) (hp : s'.params = s.params)
    (hq : s'.ports = s.ports) : s'.TransmitWf :=
  ⟨hp ▸ h.cap, hp ▸ hq ▸ h.ring⟩

/-- Every port keeps its accepted bytes in order, and gets at most one more at the end: on port `p` a byte `b` with
`o p b`. -/
def AcceptsOnly (o : Nat → Byte → Prop) (s t : State) : Prop :=
  ∀ (p : Nat) (u u' : Port), s.ports[p]? = some u → t.ports[p]? = some u' →
    u'.accepted s.params.txCap = u.accepted s.params.txCap ∨
    ∃ b, o p b ∧ u'.accepted s.params.txCap = u.accepted s.params.txCap ++ [b]

section
variable {o : Nat → Byte → Prop} {s t : State} {p : Nat} {u v : Port}

theorem AcceptsOnly.of_same (h : t.ports = s.ports) : AcceptsOnly o s t := by
  intro q u u' hu hu'
  rw [h, hu] at hu'
  cases hu'
  exact Or.inl rfl

theorem AcceptsOnly.of_ports {s0 : State} (hp : s0.params = s.params) (hq : s0.ports = s.ports)
    (h : AcceptsOnly o s0 t) : AcceptsOnly o s t := by
  simpa only [AcceptsOnly, hp, hq] using h

theorem AcceptsOnly.mono {o' : Nat → Byte → Prop} (h : AcceptsOnly o s t) (ho : ∀ p b, o p b → o' p b) :
    AcceptsOnly o' s t := fun p u u' hu hu' =>
  (h p u u' hu hu').imp_right fun ⟨b, hb, he⟩ => ⟨b, ho p b hb, he⟩

theorem AcceptsOnly.of_set (hu : s.ports[p]? = some u) (ht : t.ports = s.ports.set p v)
    (h : v.accepted s.params.txCap = u.accepted s.params.txCap ∨
      ∃ b, o p b ∧ v.accepted s.params.txCap = u.accepted s.params.txCap ++ [b]) : AcceptsOnly o s t := by
  intro q w w' hw hw'
  rw [ht] at hw'
  rcases ports_set_cases hw' with hs | ⟨rfl, rfl⟩
  · rw [hw] at hs
    cases hs
    exact Or.inl rfl
  · rw [hu] at hw
    cases hw
    exact h

/-- One port is replaced by one with the same accepted bytes. -/
theorem AcceptsOnly.of_set_kept (hu : s.ports[p]? = some u) (ht : t.ports = s.ports.set p v)
    (h : v.accepted s.params.txCap = u.accepted s.params.txCap) : AcceptsOnly o s t :=
  .of_set hu ht (Or.inl h)

/-- A command that only answers. -/
theorem AcceptsOnly.of_respond {a : Status} {x : Half} (h : (.next (s.respond a x) : Result) = .next t) :
    AcceptsOnly o s t := by
  cases h
  exact .of_same rfl

/-- A command on a port that does not exist only answers; on an existing port its rule runs. -/
theorem withPort_acceptsOnly {f : PortParams → Port → Result} (h : withPort s p f = .next t)
    (hf : ∀ c u, s.ports[p]? = some u → f c u = .next t → AcceptsOnly o s t) : AcceptsOnly o s t := by
  rcases withPort_cases h with ⟨-, rfl⟩ | ⟨c, u, hl, hu⟩
  · exact .of_same rfl
  · exact hf c u (State.lookup_eq_some.mp hl).2 hu

/-- `Configure` of port `p`, on a `v` with the accepted bytes that the port has (R163, R164). -/
theorem configure_acceptsOnly {baud : Long} {cfg : Half} {c : PortParams} (hu : s.ports[p]? = some u)
    (hv : v.accepted s.params.txCap = u.accepted s.params.txCap) (h : configure s p baud cfg c v = .next t) :
    AcceptsOnly o s t := by
  rcases configure_cases h with ⟨-, rfl⟩ | ⟨d, s1, -, hb, rfl⟩
  · exact .of_set_kept hu rfl hv
  · obtain ⟨-, hports, -⟩ := State.bindPins_frame hb
    refine .of_set_kept hu ?_ ((Port.configureRegs_accepted d cfg).trans hv)
    rw [State.respond_ports, State.setPort_ports, hports]

theorem continueWith_acceptsOnly {k : Cont} {c : PortParams} (hu : s.ports[p]? = some u)
    (h : continueWith s p k c u = .next t) : AcceptsOnly o s t := by
  cases k with
  | done => exact .of_respond h
  | thenEnd => cases h; exact .of_set_kept hu rfl Port.shutdown_accepted
  | thenEndBegin baud cfg => exact configure_acceptsOnly hu Port.shutdown_accepted h

theorem flushThen_acceptsOnly {k : Cont} {c : PortParams} (hu : s.ports[p]? = some u)
    (h : flushThen s p k c u = .next t) : AcceptsOnly o s t := by
  unfold flushThen at h
  split at h
  · exact continueWith_acceptsOnly hu h
  · cases h; exact .of_same rfl

/-- `WriteTry`, whether or not WRITE has marked the port first, accepts its byte, or blocks and accepts nothing
(R167). -/
theorem writeTry_acceptsOnly {b : Byte} (hw : s.TransmitWf) (hu : s.ports[p]? = some u) (ho : o p b)
    (hb : v.txb = u.txb) (hl : v.txLog = u.txLog) (h : writeTry s p b v = .next t) : AcceptsOnly o s t := by
  have hring : v.txb.Wf s.params.txCap := hb ▸ hw.ring p u hu
  have hsame : v.accepted s.params.txCap = u.accepted s.params.txCap := by rw [Port.accepted, hb, hl, Port.accepted]
  obtain ⟨-, -, -, -, -, ⟨-, ht, -⟩ | ⟨ha, ht, -⟩⟩ := writeTry_cases h
  · exact .of_set_kept hu ht ((State.pollPort_accepted hw.cap hring).trans hsame)
  · refine .of_set hu ht (Or.inr ⟨b, ho, ?_⟩)
    rw [Port.pushByte_accepted hw.cap hring b (hring.not_full hw.cap ha), hsame]

/-- A WRITE accepts its own byte, or blocks and accepts nothing (R166). -/
theorem writeBody_acceptsOnly {b : Byte} (hw : s.TransmitWf) (hu : s.ports[p]? = some u) (ho : o p b)
    (h : writeBody s p b u = .next t) : AcceptsOnly o s t := by
  unfold writeBody at h
  split at h
  · next hf =>
    cases h
    exact .of_set hu rfl (Or.inr ⟨b, ho,
      Port.fastWrite_accepted (u := { u with written := true }) hw.cap (hw.ring p u hu) b hf.1⟩)
  · exact writeTry_acceptsOnly (v := { u with written := true }) hw hu ho rfl rfl h

end

/-- A blocked command accepts a byte only as a WRITE that unblocks, and then its own (R167, R173). -/
theorem spin_acceptsOnly {s t : State} (hw : s.TransmitWf) (h : spin s = .next t) :
    AcceptsOnly (fun p b => s.seq = .writeWait p b) s t := by
  unfold spin at h
  split at h
  · cases h; exact .of_same rfl
  · next hs =>
    split at h
    · next hl => exact writeTry_acceptsOnly hw (State.lookup_eq_some.mp hl).2 hs rfl rfl h
    · cases h
  · split at h
    · next u hl =>
      have hu := (State.lookup_eq_some.mp hl).2
      unfold flushSpin at h
      split at h
      · exact (continueWith_acceptsOnly (s := s.unblock) hu h).of_ports rfl rfl
      · cases h
        exact .of_set_kept hu rfl (State.pollPort_accepted hw.cap (hw.ring _ u hu))
    · cases h

/-- Of the commands only WRITE accepts a byte, and only its own on its own port (R91, R166). -/
theorem exec_acceptsOnly {i : Instr} {s t : State} (hw : s.TransmitWf) (hi : i.isCommand = true)
    (h : exec i s = .next t) :
    AcceptsOnly (fun p b => ∃ q v, i = .write q v ∧ q.toNat = p ∧ v.setWidth 8 = b) s t := by
  cases i <;> simp only [exec, Instr.isCommand, Bool.false_eq_true] at h hi
  case write p v =>
    have own : ∃ q x, Instr.write p v = .write q x ∧ q.toNat = p.toNat ∧ x.setWidth 8 = writeByte v :=
      ⟨p, v, rfl, rfl, BitVec.setWidth_eq_extractLsb' (by decide)⟩
    refine withPort_acceptsOnly h fun c u hu hx => ?_
    split at hx <;> split at hx
    · exact writeBody_acceptsOnly hw hu own hx
    · split at hx
      · cases hx
      · exact writeBody_acceptsOnly hw hu own hx
    · cases hx
    · exact .of_respond hx
  case beginPort p baud cfg =>
    refine withPort_acceptsOnly h fun c u hu hx => ?_
    split at hx
    · exact flushThen_acceptsOnly hu hx
    · exact configure_acceptsOnly hu rfl hx
  case endPort p => exact withPort_acceptsOnly h fun c u hu hx => flushThen_acceptsOnly hu hx
  case flush p => exact withPort_acceptsOnly h fun c u hu hx => flushThen_acceptsOnly hu hx
  case avail p => exact withPort_acceptsOnly h fun c u _ hx => .of_respond hx
  case availw p => exact withPort_acceptsOnly h fun c u _ hx => .of_respond hx
  case usable p => exact withPort_acceptsOnly h fun c u _ hx => .of_respond hx
  case peek p =>
    refine withPort_acceptsOnly h fun c u _ hx => ?_
    split at hx <;> exact .of_respond hx
  case read p =>
    refine withPort_acceptsOnly h fun c u hu hx => ?_
    split at hx
    · exact .of_respond hx
    · cases hx; exact .of_set_kept hu rfl rfl
  case pins p tx rx =>
    refine withPort_acceptsOnly h fun c u hu hx => ?_
    split at hx
    · exact .of_respond hx
    · cases hx; exact .of_set_kept hu rfl rfl
  case swap p idx =>
    refine withPort_acceptsOnly h fun c u hu hx => ?_
    split at hx
    · cases hx; exact .of_set_kept hu rfl rfl
    · exact .of_respond hx
  case irqsave | irqrest => cases h; exact .of_same rfl
  case isrenter => unfold execIsrenter at h; split at h <;> cases h <;> exact .of_same rfl
  case isrexit => unfold execIsrexit at h; split at h <;> cases h <;> exact .of_same rfl

/-- A step accepts a byte only in the Host's turn, of the WRITE it unblocks or issues (R91, R171). -/
theorem step_acceptsOnly {s t : State} (hw : s.TransmitWf) (h : step s = .next t) :
    AcceptsOnly (fun p b => s.nextEvent = .host ∧
      (s.seq = .writeWait p b ∨ ∃ q v, s.issues (.write q v) ∧ q.toNat = p ∧ v.setWidth 8 = b)) s t := by
  rcases step_turn_cases h with ⟨i, rest, his, hi, hx⟩ | ⟨he, -, hx⟩ | ⟨p, c, u, u', hl, hc, rfl⟩ | ht
  · have hs := exec_acceptsOnly (hw.congr (by simp) (by simp)) hi hx
    refine (hs.mono ?_).of_ports (by simp) (by simp)
    rintro p b ⟨q, v, rfl, hq, hv⟩
    exact ⟨his.1, Or.inr ⟨q, v, his, hq, hv⟩⟩
  · have hs := spin_acceptsOnly (hw.congr (by simp) (by simp)) hx
    refine (hs.mono ?_).of_ports (by simp) (by simp)
    exact fun p b hq => ⟨he, Or.inl (by simpa using hq)⟩
  · have hu := (State.lookup_eq_some.mp hl).2
    exact .of_set_kept hu (by simp) (hc.accepted hw.cap (hw.ring p u hu))
  · exact .of_same (by rw [ht]; simp)

/-- Settles O51: the buffers of a state of the invariant are well formed, so that `step_acceptsOnly` says what the step
accepts. -/
theorem transmitOrderIsWriteOrder : Obligations.TransmitOrderIsWriteOrder := by
  intro s t hi h p u u' hu hu'
  refine (step_acceptsOnly hi.transmitWf h p u u' hu hu').imp_right ?_
  rintro ⟨b, ⟨he, ho⟩, hb⟩
  exact ⟨b, hb, he, ho⟩

end Sys2Proof.Machine
end

section
/-! SUPPORT. The opcode map as a table: each row of R104 beside the reader of its format (30_encoding.md R101 to R107), and
O1, O2, O3 from it. -/

namespace Sys2Proof

/-! ### Words and masks, field by field -/

/-- Two words are equal when their four fields are (R101). -/
theorem commandWord_ext_iff {v w : CommandWord} :
    v = w ↔ opField v = opField w ∧ portField v = portField w ∧ a16Field v = a16Field w ∧ a32Field v = a32Field w := by
  refine ⟨by rintro rfl; simp, fun ⟨hop, hport, h16, h32⟩ => ?_⟩
  rw [← commandWord_fields v, hop, hport, h16, h32, commandWord_fields]

@[simp] theorem byte_and_whole (x : Byte) : x &&& 0xFF#8 = x := BitVec.and_allOnes
@[simp] theorem half_and_whole (x : Half) : x &&& 0xFFFF#16 = x := BitVec.and_allOnes
@[simp] theorem long_and_whole (x : Long) : x &&& 0xFFFFFFFF#32 = x := BitVec.and_allOnes

/-- A mask that covers the whole opcode, and a pattern that asks 0 of the other fields as far as masked (R102). -/
theorem and_mask_eq_iff (w : CommandWord) (op port : Byte) (a16 : Half) (a32 : Long) :
    w &&& commandWord 0xFF#8 port a16 a32 = commandWord op 0#8 0#16 0#32 ↔
      opField w = op ∧ portField w &&& port = 0#8 ∧ a16Field w &&& a16 = 0#16 ∧ a32Field w &&& a32 = 0#32 := by
  have fields (m : CommandWord) :
      opField (w &&& m) = opField w &&& opField m ∧ portField (w &&& m) = portField w &&& portField m ∧
      a16Field (w &&& m) = a16Field w &&& a16Field m ∧ a32Field (w &&& m) = a32Field w &&& a32Field m :=
    ⟨BitVec.extractLsb'_and, BitVec.extractLsb'_and, BitVec.extractLsb'_and, BitVec.extractLsb'_and⟩
  obtain ⟨hop, hport, h16, h32⟩ := fields (commandWord 0xFF#8 port a16 a32)
  rw [commandWord_ext_iff, hop, hport, h16, h32]
  simp

/-- A mask of a field's upper bits asks exactly that these are 0. -/
theorem and_upper_eq_zero_iff {n k : Nat} (x : BitVec (n + k)) :
    x &&& (BitVec.allOnes n ++ 0#k) = 0#(n + k) ↔ x.extractLsb' k n = 0#n := by
  conv_lhs => rw [← BitVec.extractLsb'_append_extractLsb' (x := x)]
  rw [BitVec.and_append, BitVec.and_allOnes, BitVec.and_zero, ← BitVec.zero_append_zero, BitVec.append_left_inj]

@[simp] theorem half_and_upperByte_iff (x : Half) : x &&& 0xFF00#16 = 0#16 ↔ x.extractLsb' 8 8 = 0#8 :=
  and_upper_eq_zero_iff (n := 8) (k := 8) x

@[simp] theorem half_and_upper15_iff (x : Half) : x &&& 0xFFFE#16 = 0#16 ↔ x.extractLsb' 1 15 = 0#15 :=
  and_upper_eq_zero_iff (n := 15) (k := 1) x

/-- `a16` is its two bytes (formats N and S of R102). -/
theorem half_bytes (x : Half) : x.extractLsb' 8 8 ++ x.extractLsb' 0 8 = x :=
  BitVec.extractLsb'_append_extractLsb' (w := 8) (len := 8)

@[simp] theorem upperByte_append (a b : Byte) : (a ++ b : Half).extractLsb' 8 8 = a := BitVec.extractLsb'_append_eq_left
@[simp] theorem lowerByte_append (a b : Byte) : (a ++ b : Half).extractLsb' 0 8 = b := BitVec.extractLsb'_append_eq_right

/-- `a16` is its upper 15 bits and bit 0 (format R of R102). -/
theorem half_bit (x : Half) : x.extractLsb' 1 15 ++ BitVec.ofBool (x.getLsbD 0) = x := by
  have bit : x.extractLsb' 0 1 = BitVec.ofBool (x.getLsbD 0) := by
    ext i hi
    simp [show i = 0 by omega]
  rw [← bit]
  exact BitVec.extractLsb'_append_extractLsb' (w := 15) (len := 1)

/-! ### A row and the reader of its format -/

/-- A row of R104 and the reader of its format agree: among the words of the row's opcode the reader accepts those the row
selects, and what it reads is written as that word and has the row's mnemonic. -/
structure RowReads (r : CommandRow) (read : CommandWord → Except DecodeError Instr) : Prop where
  selects_iff (w : CommandWord) : w &&& r.mask = r.pattern ↔ opField w = opField r.pattern ∧ ∃ i, read w = .ok i
  encode_eq {w : CommandWord} {i : Instr} : opField w = opField r.pattern → read w = .ok i → encode i = .command w
  mnemonic_eq {w : CommandWord} {i : Instr} : read w = .ok i → r.mnemonic = i.mnemonic

section Formats

variable {name : String} {port : Byte} {a16 : Half} {a32 : Long}

/-- A format that accepts a word under the condition `ok` and then reads `mk w` agrees with its row when `ok` says that the
fields under the row's mask are 0, and `mk w` is written with the word's own fields. -/
theorem rowReads_of_fields {op : Byte} {read : CommandWord → Except DecodeError Instr} {mk : CommandWord → Instr}
    {ok : CommandWord → Prop} [DecidablePred ok]
    (reads : ∀ w, read w = if ok w then .ok (mk w) else .error (.unusedField (opField w)))
    (masks : ∀ w, portField w &&& port = 0#8 ∧ a16Field w &&& a16 = 0#16 ∧ a32Field w &&& a32 = 0#32 ↔ ok w)
    (writes : ∀ w, ok w → encode (mk w) = .command (commandWord op (portField w) (a16Field w) (a32Field w)))
    (names : ∀ w, (mk w).mnemonic = name) :
    RowReads ⟨name, commandWord op 0#8 0#16 0#32, commandWord 0xFF#8 port a16 a32⟩ read := by
  have accepts (w : CommandWord) (i : Instr) : read w = .ok i ↔ ok w ∧ mk w = i := by
    rw [reads]
    split <;> simp_all
  refine ⟨fun w => ?_, fun {w i} hop hi => ?_, fun {w i} hi => ?_⟩
  · simp [and_mask_eq_iff, masks, accepts]
  · obtain ⟨hok, rfl⟩ := (accepts w i).mp hi
    simp only [opField_commandWord] at hop
    rw [writes w hok, ← hop, commandWord_fields]
  · obtain ⟨-, rfl⟩ := (accepts w i).mp hi
    exact (names w).symm

theorem rowReads_B (op : Byte) (mk : Byte → Long → Half → Instr)
    (writes : ∀ p l a, encode (mk p l a) = .command (commandWord op p a l)) (names : ∀ p l a, (mk p l a).mnemonic = name) :
    RowReads ⟨name, commandWord op 0#8 0#16 0#32, commandWord 0xFF#8 0#8 0#16 0#32⟩ (decodeB · mk) :=
  rowReads_of_fields (ok := fun _ => True) (fun _ => (if_pos trivial).symm) (by simp) (fun _ _ => writes _ _ _)
    (fun _ => names _ _ _)

theorem rowReads_P (op : Byte) (mk : Byte → Instr)
    (writes : ∀ p, encode (mk p) = .command (commandWord op p 0#16 0#32)) (names : ∀ p, (mk p).mnemonic = name) :
    RowReads ⟨name, commandWord op 0#8 0#16 0#32, commandWord 0xFF#8 0#8 0xFFFF#16 0xFFFFFFFF#32⟩ (decodeP · mk) :=
  rowReads_of_fields (fun _ => rfl) (by simp) (fun _ ⟨h16, h32⟩ => by rw [writes, h16, h32]) (fun _ => names _)

theorem rowReads_W (op : Byte) (mk : Byte → Long → Instr)
    (writes : ∀ p l, encode (mk p l) = .command (commandWord op p 0#16 l)) (names : ∀ p l, (mk p l).mnemonic = name) :
    RowReads ⟨name, commandWord op 0#8 0#16 0#32, commandWord 0xFF#8 0#8 0xFFFF#16 0#32⟩ (decodeW · mk) :=
  rowReads_of_fields (fun _ => rfl) (by simp) (fun _ h16 => by rw [writes, h16]) (fun _ => names _ _)

theorem rowReads_N (op : Byte) (mk : Byte → Byte → Byte → Instr)
    (writes : ∀ p tx rx, encode (mk p tx rx) = .command (commandWord op p (tx ++ rx) 0#32))
    (names : ∀ p tx rx, (mk p tx rx).mnemonic = name) :
    RowReads ⟨name, commandWord op 0#8 0#16 0#32, commandWord 0xFF#8 0#8 0#16 0xFFFFFFFF#32⟩ (decodeN · mk) :=
  rowReads_of_fields (fun _ => rfl) (by simp) (fun _ h32 => by rw [writes, half_bytes, h32]) (fun _ => names _ _ _)

theorem rowReads_S (op : Byte) (mk : Byte → Byte → Instr)
    (writes : ∀ p idx, encode (mk p idx) = .command (commandWord op p (0#8 ++ idx) 0#32))
    (names : ∀ p idx, (mk p idx).mnemonic = name) :
    RowReads ⟨name, commandWord op 0#8 0#16 0#32, commandWord 0xFF#8 0#8 0xFF00#16 0xFFFFFFFF#32⟩ (decodeS · mk) :=
  rowReads_of_fields (fun _ => rfl) (by simp) (fun _ ⟨hhi, h32⟩ => by rw [writes, ← hhi, half_bytes, h32])
    (fun _ => names _ _)

theorem rowReads_G (op : Byte) (i : Instr) (writes : encode i = .command (commandWord op 0#8 0#16 0#32)) :
    RowReads ⟨i.mnemonic, commandWord op 0#8 0#16 0#32, commandWord 0xFF#8 0xFF#8 0xFFFF#16 0xFFFFFFFF#32⟩ (decodeG · i) :=
  rowReads_of_fields (fun _ => rfl) (by simp) (fun _ ⟨hport, h16, h32⟩ => by rw [writes, hport, h16, h32]) (fun _ => rfl)

theorem rowReads_R (op : Byte) (mk : Bool → Instr)
    (writes : ∀ b, encode (mk b) = .command (commandWord op 0#8 (0#15 ++ BitVec.ofBool b) 0#32))
    (names : ∀ b, (mk b).mnemonic = name) :
    RowReads ⟨name, commandWord op 0#8 0#16 0#32, commandWord 0xFF#8 0xFF#8 0xFFFE#16 0xFFFFFFFF#32⟩ (decodeR · mk) :=
  rowReads_of_fields (fun _ => rfl) (by simp)
    (fun _ ⟨hport, hhi, h32⟩ => by rw [writes, ← hhi, half_bit, hport, h32]) (fun _ => names _)

end Formats

/-! ### The opcode map as a table of rows and readers -/

/-- R104: beside each row of the table, the reader of its format. -/
def commandReaders : List (CommandRow × (CommandWord → Except DecodeError Instr)) :=
  commandTable.zip [
    (decodeB · .beginPort), (decodeP · .endPort), (decodeP · .avail), (decodeP · .availw), (decodeP · .peek),
    (decodeP · .read), (decodeW · .write), (decodeP · .flush), (decodeP · .usable), (decodeN · .pins), (decodeS · .swap),
    (decodeG · .irqsave), (decodeR · .irqrest), (decodeG · .isrenter), (decodeG · .isrexit)]

theorem commandReaders_rows : commandReaders.map Prod.fst = commandTable := rfl

/-- Every row of R104 agrees with its reader. -/
theorem rowReads_of_mem : ∀ x ∈ commandReaders, RowReads x.1 x.2 := by
  simp only [commandReaders, commandTable, List.zip_cons_cons, List.zip_nil_right, List.forall_mem_cons]
  exact ⟨rowReads_B 0x01#8 .beginPort (fun _ _ _ => rfl) (fun _ _ _ => rfl),
    rowReads_P 0x02#8 .endPort (fun _ => rfl) (fun _ => rfl),
    rowReads_P 0x03#8 .avail (fun _ => rfl) (fun _ => rfl),
    rowReads_P 0x04#8 .availw (fun _ => rfl) (fun _ => rfl),
    rowReads_P 0x05#8 .peek (fun _ => rfl) (fun _ => rfl),
    rowReads_P 0x06#8 .read (fun _ => rfl) (fun _ => rfl),
    rowReads_W 0x07#8 .write (fun _ _ => rfl) (fun _ _ => rfl),
    rowReads_P 0x08#8 .flush (fun _ => rfl) (fun _ => rfl),
    rowReads_P 0x09#8 .usable (fun _ => rfl) (fun _ => rfl),
    rowReads_N 0x0A#8 .pins (fun _ _ _ => rfl) (fun _ _ _ => rfl),
    rowReads_S 0x0B#8 .swap (fun _ _ => rfl) (fun _ _ => rfl),
    rowReads_G 0x10#8 .irqsave rfl,
    rowReads_R 0x11#8 .irqrest (fun _ => rfl) (fun _ => rfl),
    rowReads_G 0x12#8 .isrenter rfl,
    rowReads_G 0x13#8 .isrexit rfl, by simp⟩

/-- The decoder looks the opcode up in the table and leaves the word to the reader found there (R104, R105). -/
theorem decodeCommand_eq_lookup (w : CommandWord) :
    decodeCommand w = ((commandReaders.find? fun x => opField w = opField x.1.pattern).map fun x => x.2 w).getD
      (.error (.unknownOpcode (opField w))) := by
  have chain (x : CommandRow × (CommandWord → Except DecodeError Instr)) (l) (q : CommandRow × _ → Bool) (d) :
      (((x :: l).find? q).map fun x => x.2 w).getD d = if q x then x.2 w else ((l.find? q).map fun x => x.2 w).getD d := by
    rw [List.find?_cons]
    cases q x <;> rfl
  simp only [commandReaders, commandTable, List.zip_cons_cons, List.zip_nil_right, chain, decide_eq_true_eq]
  rfl

/-- What the decoder reads, the reader beside the row of the word's opcode reads. -/
theorem exists_reader_of_decodeCommand {w : CommandWord} {i : Instr} (h : decodeCommand w = .ok i) :
    ∃ x ∈ commandReaders, opField w = opField x.1.pattern ∧ x.2 w = .ok i := by
  rw [decodeCommand_eq_lookup] at h
  cases hf : commandReaders.find? fun x => opField w = opField x.1.pattern with
  | none => simp [hf] at h
  | some x => exact ⟨x, List.mem_of_find?_eq_some hf, by simpa using List.find?_some hf, by simpa [hf] using h⟩

/-! ### Decode and encode agree -/

/-- A command word that decodes is the encoding of what it reads as. -/
theorem encode_of_decodeCommand {w : CommandWord} {i : Instr} (h : decodeCommand w = .ok i) : encode i = .command w := by
  obtain ⟨x, hx, hop, hi⟩ := exists_reader_of_decodeCommand h
  exact (rowReads_of_mem x hx).encode_eq hop hi

/-- A vector id that decodes is the encoding of the handler it names. -/
theorem encode_of_decodeVector {v : VectorId} {i : Instr} (h : decodeVector v = .ok i) : encode i = .vector v := by
  have named {k : BitVec 2} (hk : v.extractLsb' 0 2 = k) : Encoding.vector (vectorId (v.extractLsb' 2 6) k) = .vector v :=
    congrArg _ (hk ▸ BitVec.extractLsb'_append_extractLsb' (w := 6) (len := 2))
  unfold decodeVector at h
  split at h
  · next hk => cases h; exact named hk
  · split at h
    · next hk => cases h; exact named hk
    · split at h
      · next hk => cases h; exact named hk
      · cases h

/-- Decoding gives back every instruction from its encoding. -/
theorem decode_encode (i : Instr) : decode (encode i) = .ok i := by
  cases i with
  | beginPort p baud cfg => simp [decode, encode, decodeCommand, decodeB]
  | write p v => simp [decode, encode, decodeCommand, decodeW]
  | pins p tx rx => simp [decode, encode, decodeCommand, decodeN]
  | swap p idx => simp [decode, encode, decodeCommand, decodeS]
  | irqrest on => cases on <;> rfl
  | irqsave | isrenter | isrexit => rfl
  | rxc p | dre p | txc p => simp [decode, encode, decodeVector]
  | endPort p | avail p | availw p | peek p | read p | flush p | usable p =>
    simp [decode, encode, decodeCommand, decodeP]

/-- Settles O1: what decodes is encoded so, by the readers of the opcode map, and what is encoded decodes. -/
theorem decodeEncodeAgree : Obligations.DecodeEncodeAgree := by
  intro e i
  refine ⟨fun h => ?_, fun h => h ▸ decode_encode i⟩
  cases e with
  | command w => exact encode_of_decodeCommand h
  | vector v => exact encode_of_decodeVector h

/-! ### The row a word selects -/

/-- A word that decodes selects the row of its mnemonic (R107). -/
theorem exists_row_of_decodeCommand {w : CommandWord} {i : Instr} (h : decodeCommand w = .ok i) :
    ∃ r ∈ commandTable, w &&& r.mask = r.pattern ∧ r.mnemonic = i.mnemonic := by
  obtain ⟨x, hx, hop, hi⟩ := exists_reader_of_decodeCommand h
  have hr := rowReads_of_mem x hx
  exact ⟨x.1, commandReaders_rows ▸ List.mem_map_of_mem hx, (hr.selects_iff w).mpr ⟨hop, i, hi⟩, hr.mnemonic_eq hi⟩

/-- A word that selects a row has its opcode, and decodes. -/
theorem decodes_of_selects {w : CommandWord} {r : CommandRow} (hr : r ∈ commandTable) (h : w &&& r.mask = r.pattern) :
    opField w = opField r.pattern ∧ ∃ i, decodeCommand w = .ok i := by
  rw [← commandReaders_rows] at hr
  obtain ⟨x, hx, rfl⟩ := List.mem_map.mp hr
  have hx := rowReads_of_mem x hx
  obtain ⟨hop, i, hi⟩ := (hx.selects_iff w).mp h
  have hw : decode (.command w) = .ok i := hx.encode_eq hop hi ▸ decode_encode i
  exact ⟨hop, i, hw⟩

/-- The rows of the opcode map have different opcodes, so that a word selects at most one. -/
theorem selected_rows_eq {w : CommandWord} {r : CommandRow} (hr : r ∈ commandTable) (h : w &&& r.mask = r.pattern) :
    commandTable.filter (fun r => w &&& r.mask = r.pattern) = [r] := by
  have ops : (commandTable.map fun r => opField r.pattern).Nodup := by decide
  refine List.perm_singleton.mp ((List.perm_ext_iff_of_nodup (ops.of_map.filter _) (List.nodup_singleton r)).mpr ?_)
  intro r'
  simp only [List.mem_filter, decide_eq_true_eq, List.mem_singleton]
  refine ⟨fun ⟨hr', h'⟩ => ?_, by rintro rfl; exact ⟨hr, h⟩⟩
  exact List.inj_on_of_nodup_map ops hr' hr ((decodes_of_selects hr' h').1.symm.trans (decodes_of_selects hr h).1)

/-- Settles O2: the row is that of the reader which read the word, and a word that does not decode selects none. -/
theorem everyWordSelectsOneRowOrIsIllegal : Obligations.EveryWordSelectsOneRowOrIsIllegal := by
  intro w
  cases h : decodeCommand w with
  | ok i =>
    obtain ⟨r, hr, hw, hname⟩ := exists_row_of_decodeCommand h
    exact ⟨r, selected_rows_eq hr hw, hname⟩
  | error e =>
    refine List.filter_eq_nil_iff.mpr fun r hr hw => ?_
    obtain ⟨-, i, hi⟩ := decodes_of_selects hr (of_decide_eq_true hw)
    simp [h] at hi

/-- Settles O3: the sample words, each decoded by computation. -/
theorem sampleWordsDecode : Obligations.SampleWordsDecode := by
  unfold Obligations.SampleWordsDecode
  decide

end Sys2Proof
end

section
/-! SUPPORT. What the words of 30_encoding.md do where a port does not exist (R105) and under the assembler (R110), and O5, O4
from it. -/

namespace Sys2Proof.Machine

open Sys2Proof

/-- A port number from NPORTS on names no port (R21). -/
theorem State.lookup_eq_none_of_nports_le {s : State} {p : Nat} (h : s.params.nports ≤ p) : s.lookup p = none := by
  simp [State.lookup, List.getElem?_eq_none (show s.params.ports.length ≤ p from h)]

/-- A command on a port that does not exist answers ILLEGAL (R105). -/
theorem exec_of_lookup_none {i : Instr} {s : State} {p : Nat} (hi : i.isCommand = true) (hp : i.port? = some p)
    (h : s.lookup p = none) : exec i s = .next s.illegal := by
  cases i with
  | irqsave | irqrest | isrenter | isrexit => cases hp
  | rxc | dre | txc => cases hi
  | beginPort | endPort | avail | availw | peek | read | write | flush | usable | pins | swap =>
    cases hp
    exact withPort_of_none h

/-- Settles O5: a word that selects no row does not decode, and a command on a port that does not exist finds none. -/
theorem illegalWordsChangeNothing : Obligations.IllegalWordsChangeNothing := by
  rintro s w (hrows | ⟨i, p, hi, hp, hle⟩)
  · cases h : decodeCommand w with
    | error e => simp only [issue, h]; rfl
    | ok i =>
      obtain ⟨r, hr, hw, -⟩ := exists_row_of_decodeCommand h
      exact absurd hw (hrows r hr)
  · have hx : issue w s = exec i s := by simp only [issue, hi]
    rw [hx, exec_of_lookup_none (decodeCommand_isCommand hi) hp (State.lookup_eq_none_of_nports_le hle)]
    rfl

/-- The byte that WRITE sends is its operand narrowed to 8 bits (R103). -/
theorem writeByte_eq_setWidth (v : Long) : writeByte v = v.setWidth 8 :=
  (BitVec.setWidth_eq_extractLsb' (by decide)).symm

/-- Settles O4: the two short forms are assembled as their expansions, and WRITE's rule looks at `v[7:0]` alone. -/
theorem pseudoInstructionsExpand : Obligations.PseudoInstructionsExpand := by
  refine ⟨fun p baud => rfl, fun p => rfl, fun s p v w h => ?_⟩
  have byte : writeByte v = writeByte w := by simp only [writeByte_eq_setWidth, h]
  simp only [exec, execWrite, byte]

end Sys2Proof.Machine
end

section
/-! SUPPORT. The ring-buffer primitives one use at a time and in sequence (40_ring_buffer.md R141 to R147), and O9, O10, O11,
O13 from them. -/

namespace Sys2Proof.Machine

open Sys2Proof

/-! ### One push, one pop -/

section
variable {cap : Nat} {b r : Ring} {v : Byte}

/-- `available` is the number of bytes held (R143). -/
@[simp] theorem Ring.held_length (cap : Nat) (b : Ring) : (b.held cap).length = b.available cap := by
  simp [Ring.held]

/-- No byte is held exactly when the cursors meet (R25). -/
theorem Ring.held_eq_nil_iff (hc : LegalCap cap) (h : b.Wf cap) : b.held cap = [] ↔ b.head = b.tail := by
  rw [← List.length_eq_zero_iff, Ring.held_length, Ring.available_eq_zero hc h.head h.tail]

/-- The two counts share the capacity minus one (R144). -/
theorem Ring.available_add_availableForWrite (hc : LegalCap cap) (b : Ring) :
    b.available cap + b.availableForWrite cap = cap - 1 := by
  have := b.available_lt hc
  unfold Ring.availableForWrite
  omega

/-- `available` by the cursors, as R143 writes it. -/
theorem Ring.available_eq_cursors (hc : LegalCap cap) (h : b.Wf cap) :
    b.available cap = if b.tail ≤ b.head then b.head - b.tail else cap - b.tail + b.head := by
  have ht := h.tail
  rw [Ring.available_eq hc h.head ht]
  split <;> omega

theorem Ring.tryPush_eq_none_iff : b.tryPush cap v = none ↔ cursorNext cap b.head = b.tail := by
  rcases b.tryPush_cases cap v with ⟨he, hp⟩ | ⟨hn, hp⟩
  · exact iff_of_true hp he
  · exact iff_of_false (by simp [hp]) hn

theorem Ring.tryPop_eq_none_iff : b.tryPop cap = none ↔ b.head = b.tail := by
  rcases b.tryPop_cases cap with ⟨he, hp⟩ | ⟨hn, hp⟩
  · exact iff_of_true hp he
  · exact iff_of_false (by simp [hp]) hn

/-- A push that is taken makes one byte more (R141, R143). -/
theorem Ring.available_of_tryPush (hc : LegalCap cap) (h : b.Wf cap) (hp : b.tryPush cap v = some r) :
    r.available cap = b.available cap + 1 := by
  have held := (pushAppendsPopRemovesOldest cap b r v hc h).1 hp
  simpa using congrArg List.length held

/-- A pop that answers makes one byte less (R142, R143). -/
theorem Ring.available_of_tryPop (hc : LegalCap cap) (h : b.Wf cap) (hp : b.tryPop cap = some (v, r)) :
    b.available cap = r.available cap + 1 := by
  have held := (pushAppendsPopRemovesOldest cap b r v hc h).2.1 hp
  simpa using congrArg List.length held

/-- `front` is the oldest byte held (R145). -/
theorem Ring.front_eq_head? (hc : LegalCap cap) (h : b.Wf cap) : b.front = (b.held cap).head? :=
  (pushAppendsPopRemovesOldest cap b b 0#8 hc h).2.2

/-- The oldest byte held comes out, and the rest stays (R142). -/
theorem Ring.tryPop_of_held_cons (hc : LegalCap cap) (h : b.Wf cap) {rest : List Byte} (hh : b.held cap = v :: rest) :
    b.tryPop cap = some (v, ⟨b.head, cursorNext cap b.tail, b.data⟩) ∧
      Ring.held cap ⟨b.head, cursorNext cap b.tail, b.data⟩ = rest := by
  rcases b.tryPop_cases cap with ⟨he, -⟩ | ⟨hn, hp⟩
  · simp [Ring.held_of_empty hc h he] at hh
  · obtain ⟨rfl, rfl⟩ := List.cons_eq_cons.mp ((Ring.held_popped hc h hn).symm.trans hh)
    exact ⟨hp, rfl⟩

/-- A buffer that holds fewer than `cap - 1` bytes takes one more, as the newest (R141, R144). -/
theorem Ring.exists_tryPush_of_lt (hc : LegalCap cap) (h : b.Wf cap) (ha : b.available cap < cap - 1) (v : Byte) :
    ∃ r, b.tryPush cap v = some r ∧ r.Wf cap ∧ r.held cap = b.held cap ++ [v] := by
  have room : b.availableForWrite cap ≠ 0 := by
    have := b.available_add_availableForWrite hc
    omega
  rcases b.tryPush_cases cap v with ⟨he, -⟩ | ⟨hn, hp⟩
  · exact absurd he (h.not_full hc room)
  · exact ⟨_, hp, h.pushed hc v hn, Ring.held_pushed hc h v hn⟩

end

/-- Settles O9: the two cases of `tryPush`, with the mask read as the remainder. -/
theorem tryPushStoresAtHead : Obligations.TryPushStoresAtHead := by
  intro cap b v hc h
  rw [← cursorNext_eq hc]
  refine ⟨Ring.tryPush_eq_none_iff.mpr, fun hn => ?_⟩
  rcases b.tryPush_cases cap v with ⟨he, -⟩ | ⟨-, hp⟩
  · exact absurd he hn
  · refine ⟨_, hp, h.pushed hc v hn, rfl, rfl, ?_, fun i hi => ?_⟩
    · rw [Memory.read_write h.data, if_pos rfl]
    · rw [Memory.read_write h.data, if_neg hi]

/-- Settles O10: the two cases of `tryPop`, with the mask read as the remainder. -/
theorem tryPopAdvancesTail : Obligations.TryPopAdvancesTail := by
  intro cap b hc h
  rw [← cursorNext_eq hc]
  refine ⟨Ring.tryPop_eq_none_iff.mpr, fun hn => ?_⟩
  rcases b.tryPop_cases cap with ⟨he, -⟩ | ⟨-, hp⟩
  · exact absurd he hn
  · exact ⟨_, hp, h.popped hc, rfl, rfl, rfl⟩

/-- Settles O11: `available` is the length of the bytes held and leaves the rest of `cap - 1` to `availableForWrite`. -/
theorem availableCountsHeldBytes : Obligations.AvailableCountsHeldBytes := by
  intro cap b hc h
  refine ⟨Ring.available_eq_cursors hc h, (Ring.held_length cap b).symm, Nat.le_sub_one_of_lt (b.available_lt hc),
    b.available_add_availableForWrite hc, ?_⟩
  simp only [Ring.availableForWrite_eq_zero hc h.head h.tail, Ring.tryPush_eq_none_iff, forall_const]

/-! ### Sequences of pushes and pops -/

section
variable {cap : Nat}

/-- Bytes that fit are all taken, and are held behind those there before (R147). -/
theorem Ring.exists_pushAll (hc : LegalCap cap) (bytes : List Byte) {b : Ring} (h : b.Wf cap)
    (fits : b.available cap + bytes.length ≤ cap - 1) :
    ∃ full, b.pushAll cap bytes = some full ∧ full.Wf cap ∧ full.held cap = b.held cap ++ bytes := by
  induction bytes generalizing b with
  | nil => exact ⟨b, rfl, h, (List.append_nil _).symm⟩
  | cons v vs ih =>
    rw [List.length_cons] at fits
    obtain ⟨r, hp, hr, held⟩ := Ring.exists_tryPush_of_lt hc h (by omega) v
    have count := Ring.available_of_tryPush hc h hp
    obtain ⟨full, hall, hfull, hheld⟩ := ih hr (by omega)
    refine ⟨full, ?_, hfull, ?_⟩
    · simp only [Ring.pushAll, hp, hall]
    · rw [hheld, held, List.append_assoc, List.singleton_append]

/-- Popping as often as there are bytes held gives them in order and leaves the buffer empty (R147). -/
theorem Ring.exists_popAll (hc : LegalCap cap) (bytes : List Byte) {b : Ring} (h : b.Wf cap) (hh : b.held cap = bytes) :
    ∃ left, b.popAll cap bytes.length = some (bytes, left) ∧ left.head = left.tail := by
  induction bytes generalizing b with
  | nil => exact ⟨b, rfl, (Ring.held_eq_nil_iff hc h).mp hh⟩
  | cons v vs ih =>
    obtain ⟨hp, hrest⟩ := Ring.tryPop_of_held_cons hc h hh
    obtain ⟨left, hall, hleft⟩ := ih (h.popped hc) hrest
    exact ⟨left, by simp only [List.length_cons, Ring.popAll, hp, hall, Option.map_some], hleft⟩

/-- A count that starts at the number of bytes held stays it, whatever is pushed and popped (R147). -/
theorem Ring.useAll_count (hc : LegalCap cap) (uses : List RingUse) {b : Ring} {n : Int} (h : b.Wf cap)
    (hn : n = b.available cap) : (b.useAll cap n uses).2 = (b.useAll cap n uses).1.available cap := by
  induction uses generalizing b n with
  | nil => exact hn
  | cons use uses ih =>
    cases use with
    | push v =>
      cases hp : b.tryPush cap v with
      | none => simpa only [Ring.useAll, hp] using ih h hn
      | some r =>
        have count := Ring.available_of_tryPush hc h hp
        simpa only [Ring.useAll, hp] using ih (h.tryPush hc hp) (by omega)
    | pop =>
      cases hp : b.tryPop cap with
      | none => simpa only [Ring.useAll, hp] using ih h hn
      | some q =>
        have count := Ring.available_of_tryPop hc h hp
        simpa only [Ring.useAll, hp] using ih (h.tryPop hc hp) (by omega)

end

/-- Settles O13: an empty buffer holds exactly what is pushed, gives it back in order, and counts its uses. -/
theorem ringBufferIsFifo : Obligations.RingBufferIsFifo := by
  intro cap b hc h he
  have none_held : b.available cap = 0 := (Ring.available_eq_zero hc h.head h.tail).mpr he
  refine ⟨fun bytes fits => ?_, fun uses => ?_, Ring.tryPop_eq_none_iff.mpr he⟩
  · obtain ⟨full, hpush, hfull, held⟩ := Ring.exists_pushAll hc bytes h (by omega)
    rw [Ring.held_of_empty hc h he, List.nil_append] at held
    obtain ⟨left, hpop, hleft⟩ := Ring.exists_popAll hc bytes hfull held
    exact ⟨full, left, hpush, hpop, hleft⟩
  · have count := Ring.useAll_count hc uses (n := 0) h (by omega)
    have bound := (b.useAll cap 0 uses).1.available_lt hc
    exact ⟨count, by omega⟩

end Sys2Proof.Machine
end

section
/-! SUPPORT. The receive-side commands on an existing port (40_ring_buffer.md R148 to R151), and O14, O15, O16 from them. -/

namespace Sys2Proof.Machine

open Sys2Proof

/-- The word an instruction is written as decodes to it (R107). -/
theorem encodes_of_encode {i : Instr} {w : CommandWord} (h : encode i = .command w) : Encodes w i := by
  have hd : decode (.command w) = .ok i := h ▸ decode_encode i
  exact ⟨hd, h⟩

section
variable {s : State} {p : Byte} {c : PortParams} {u : Port}

theorem exec_avail (hl : s.lookup p.toNat = some (c, u)) :
    exec (.avail p) s = .next (s.respond .ok (BitVec.ofNat 16 (u.rxb.available s.params.rxCap))) :=
  withPort_of_lookup hl

theorem exec_availw (hl : s.lookup p.toNat = some (c, u)) :
    exec (.availw p) s = .next (s.respond .ok (BitVec.ofNat 16 (u.txb.availableForWrite s.params.txCap))) :=
  withPort_of_lookup hl

/-- PEEK on an empty receive buffer (R150). -/
theorem exec_peek_of_front_none (hl : s.lookup p.toNat = some (c, u)) (hf : u.rxb.front = none) :
    exec (.peek p) s = .next (s.respond .ok EMPTY16) := by
  simp only [exec, execPeek, withPort_of_lookup hl, hf]

/-- PEEK on a receive buffer that holds something (R150). -/
theorem exec_peek_of_front {v : Byte} (hl : s.lookup p.toNat = some (c, u)) (hf : u.rxb.front = some v) :
    exec (.peek p) s = .next (s.respond .ok (v.setWidth 16)) := by
  simp only [exec, execPeek, withPort_of_lookup hl, hf]

/-- READ on an empty receive buffer (R151). -/
theorem exec_read_of_tryPop_none (hl : s.lookup p.toNat = some (c, u)) (hp : u.rxb.tryPop s.params.rxCap = none) :
    exec (.read p) s = .next (s.respond .ok EMPTY16) := by
  simp only [exec, execRead, withPort_of_lookup hl, hp]

/-- READ on a receive buffer that holds something (R151). -/
theorem exec_read_of_tryPop {v : Byte} {r : Ring} (hl : s.lookup p.toNat = some (c, u))
    (hp : u.rxb.tryPop s.params.rxCap = some (v, r)) :
    exec (.read p) s = .next ((s.setPort p.toNat { u with rxb := r }).respond .ok (v.setWidth 16)) := by
  simp only [exec, execRead, withPort_of_lookup hl, hp]

end

/-- Settles O14: each command answers its count, which the cursors give. -/
theorem availAndAvailwAnswerCounts : Obligations.AvailAndAvailwAnswerCounts := by
  intro s p c u hl
  refine ⟨fun hc h => ⟨encodes_of_encode rfl, ?_⟩, fun hc h => ⟨encodes_of_encode rfl, ?_⟩⟩
  · rw [exec_avail hl, Ring.available_eq_cursors hc h]
    rfl
  · rw [exec_availw hl, Ring.availableForWrite, Ring.available_eq_cursors hc h]
    rfl

/-- Settles O15: PEEK answers `front`, which is the oldest byte held. -/
theorem peekAnswersOldest : Obligations.PeekAnswersOldest := by
  intro s p c u hl hc h
  have front := Ring.front_eq_head? hc h
  refine ⟨encodes_of_encode rfl, fun hh => ?_, fun v rest hh => ?_⟩
  · rw [hh, List.head?_nil] at front
    exact exec_peek_of_front_none hl front
  · rw [hh, List.head?_cons] at front
    exact exec_peek_of_front hl front

/-- Settles O16: READ pops, which gives the oldest byte held and moves the read cursor alone. -/
theorem readConsumesOldest : Obligations.ReadConsumesOldest := by
  intro s p c u hl hc h
  rw [← cursorNext_eq hc]
  refine ⟨encodes_of_encode rfl, fun hh => ?_, fun v rest hh => ?_⟩
  · exact exec_read_of_tryPop_none hl (Ring.tryPop_eq_none_iff.mpr ((Ring.held_eq_nil_iff hc h).mp hh))
  · exact exec_read_of_tryPop hl (Ring.tryPop_of_held_cons hc h hh).1

end Sys2Proof.Machine
end

section
/-! SUPPORT. What half duplex keeps out of the receive buffer (41_transfer_state_machine.md R168, R182): when RXCIE is set,
what leaves the wire and what enters the buffer, and O52 from it. -/

namespace Sys2Proof.Machine

open Sys2Proof

section
variable {s : State} {p : Nat} {c : PortParams} {u u' : Port}

/-! ### LINE_OUT -/

theorem State.pollPort_lineOut (s : State) (u : Port) : (s.pollPort u).lineOut = u.lineOut := by
  rcases s.pollPort_cases u with h | ⟨-, -, h⟩ <;> rw [h]
  rcases u.dreStep_cases s.params.txCap with ⟨-, h⟩ | ⟨-, h⟩ <;> rw [h]

/-- No command and no spin puts a byte on the wire (R44, R273). -/
theorem HostChange.lineOut {q : Seq} (h : HostChange s p c u u' q) : u'.lineOut = u.lineOut := by
  cases h with
  | popped | bound | configured => rfl
  | ended => rw [Port.shutdown_eq]
  | reconfigured => rw [Port.configureRegs_eq, Port.shutdown_eq]
  | fast => rw [Port.fastWrite_eq]
  | pushed | pushedLate => rw [Port.pushByte, Port.enableDre_eq, Port.armIfHalfDuplex_eq]
  | blocked => exact s.pollPort_lineOut { u with written := true }
  | polled => exact s.pollPort_lineOut u

/-- A byte leaves the wire only at the end of its shift, which leaves CTRLA as it is (R282). -/
theorem QuietChange.lineOut_cases (h : QuietChange s u u') :
    u'.lineOut = u.lineOut ∨ (u.uart.txShift ≠ none ∧ u'.uart.ctrla = u.uart.ctrla) := by
  cases h with
  | rxc free hd =>
    obtain ⟨e, rest, hf⟩ := rxFifo_of_dispatchable hd
    rcases u.rxcBody_cases s.params.rxCap free hf with ⟨-, h⟩ | ⟨-, -, h⟩ <;> rw [h] <;> exact Or.inl rfl
  | dre => rcases u.dreStep_cases s.params.txCap with ⟨-, h⟩ | ⟨-, h⟩ <;> rw [h] <;> exact Or.inl rfl
  | txc free => rw [Port.txcBody_eq]; exact Or.inl rfl
  | lineShiftDone =>
    rcases u.lineShiftDone_cases s.params.rxFifoDepth with ⟨-, h⟩ | ⟨b, hs, h⟩ <;> rw [h]
    · exact Or.inl rfl
    · exact Or.inr ⟨by rw [hs]; exact Option.some_ne_none b, rfl⟩
  | lineLoad | lineRx | envDataEmpty | envTransmitComplete | envReceive => exact Or.inl rfl

/-! ### RXCIE -/

/-- RXCIE is set by the change only with nothing left in RXFIFO. -/
def RxcieRaisedEmpty (u u' : Port) : Prop :=
  u.uart.rxcie = false → u'.uart.rxcie = true → u'.uart.rxFifo = []

theorem RxcieRaisedEmpty.of_kept (h : u'.uart.rxcie = u.uart.rxcie) : RxcieRaisedEmpty u u' := by
  intro hoff hon
  rw [h, hoff] at hon
  cases hon

theorem Port.dreStep_rxcie (cap : Nat) (u : Port) : (u.dreStep cap).uart.rxcie = u.uart.rxcie := by
  rcases u.dreStep_cases cap with ⟨-, h⟩ | ⟨-, h⟩ <;> rw [h]
  · exact (dreOffValue_bits _).1
  · rfl

theorem State.pollPort_rxcie (s : State) (u : Port) : (s.pollPort u).uart.rxcie = u.uart.rxcie := by
  rcases s.pollPort_cases u with h | ⟨-, -, h⟩ <;> rw [h]
  exact u.dreStep_rxcie _

/-- The arming of a WRITE never sets RXCIE (R168). -/
theorem armed_rxcie_of_off {hd : Bool} {a : Byte} (h : a.getLsbD 7 = false) :
    (if hd then hdArmValue a else a).getLsbD 7 = false := by
  cases hd
  · exact h
  · exact (hdArmValue_bits a).1

theorem Port.pushByte_rxcie {cap : Nat} {b : Byte} (h : u.uart.rxcie = false) :
    (u.pushByte cap b).uart.rxcie = false := by
  rw [Port.pushByte, Port.enableDre_eq, Port.armIfHalfDuplex_eq]
  exact (dreOnValue_bits _).1.trans (armed_rxcie_of_off h)

/-- The Host sets RXCIE only in BEGIN, on a port whose RXFIFO is empty (R163, R177). -/
theorem HostChange.rxcieRaisedEmpty {q : Seq} (hf : u.begun = false → u.uart.rxFifo = [])
    (h : HostChange s p c u u' q) : RxcieRaisedEmpty u u' := by
  cases h with
  | popped | bound => exact .of_kept rfl
  | configured d cfg hb => exact fun _ _ => hf hb
  | ended => rw [Port.shutdown_eq]; exact fun _ _ => rfl
  | reconfigured => rw [Port.configureRegs_eq, Port.shutdown_eq]; exact fun _ _ => rfl
  | fast b =>
    intro hoff hon
    rw [Port.fastWrite_eq] at hon
    exact absurd hon (ne_true_of_eq_false (armed_rxcie_of_off hoff))
  | pushed b => exact fun hoff hon => absurd hon (ne_true_of_eq_false (Port.pushByte_rxcie hoff))
  | pushedLate b => exact fun hoff hon => absurd hon (ne_true_of_eq_false (Port.pushByte_rxcie hoff))
  | blocked => exact .of_kept (s.pollPort_rxcie { u with written := true })
  | polled => exact .of_kept (s.pollPort_rxcie u)

/-- Of the handlers and the line, TXC alone sets RXCIE, after it has emptied RXFIFO (R266). -/
theorem QuietChange.rxcieRaisedEmpty (h : QuietChange s u u') : RxcieRaisedEmpty u u' := by
  cases h with
  | rxc free hd =>
    obtain ⟨e, rest, hf⟩ := rxFifo_of_dispatchable hd
    rcases u.rxcBody_cases s.params.rxCap free hf with ⟨-, h⟩ | ⟨-, -, h⟩ <;> rw [h] <;> exact .of_kept rfl
  | dre => exact .of_kept (u.dreStep_rxcie _)
  | txc free => rw [Port.txcBody_eq]; exact fun _ _ => rfl
  | lineLoad => exact .of_kept (by rw [Periph.rxcie_eq, lineFrame_lineLoad u]; rfl)
  | lineShiftDone => exact .of_kept (by rw [Periph.rxcie_eq, lineFrame_lineShiftDone s.params.rxFifoDepth u]; rfl)
  | lineRx e => exact .of_kept (by rw [Periph.rxcie_eq, lineFrame_lineRx s.params.rxFifoDepth u e]; rfl)
  | envDataEmpty | envTransmitComplete | envReceive => exact .of_kept rfl

/-! ### The receive buffer -/

/-- No handler and no line step fills the receive buffer while RXCIE is 0 (R261, R264). -/
theorem QuietChange.rxb_of_rxcie (hr : u.uart.rxcie = false) (h : QuietChange s u u') : u'.rxb = u.rxb := by
  cases h with
  | rxc free hd =>
    obtain ⟨-, -, hp, -⟩ := State.dispatchable_iff.mp hd
    simp [Periph.pending, hr] at hp
  | dre => rcases u.dreStep_cases s.params.txCap with ⟨-, h⟩ | ⟨-, h⟩ <;> rw [h]
  | txc free => rw [Port.txcBody_eq]
  | lineShiftDone => rw [lineFrame_lineShiftDone s.params.rxFifoDepth u]
  | lineLoad | lineRx | envDataEmpty | envTransmitComplete | envReceive => rfl

/-- No command and no spin fills the receive buffer (R26). -/
theorem HostChange.rxb_head_data {q : Seq} (h : HostChange s p c u u' q) :
    u'.rxb.head = u.rxb.head ∧ u'.rxb.data = u.rxb.data :=
  Decidable.byContradiction fun hn => h.buffers.rx_head (not_and_or.mp hn)

end

/-- Settles O52: only the end of a shift reaches the wire, for which `hdQuiet` says that RXCIE is 0; only BEGIN and TXC set
RXCIE, with RXFIFO empty; and only RXC fills the receive buffer, which needs RXCIE. -/
theorem echoNeverReachesReceiveBuffer : Obligations.EchoNeverReachesReceiveBuffer := by
  intro s t hi hline hr h p u u' hu hu'
  rcases step_port_cases h hu' with hs | ⟨c, u0, hl, hc⟩
  · rw [hu] at hs
    cases hs
    exact ⟨fun _ hn => absurd rfl hn, RxcieRaisedEmpty.of_kept rfl, fun _ => ⟨rfl, rfl⟩⟩
  · rw [(State.lookup_eq_some.mp hl).2] at hu
    cases hu
    have hport := hline p c u hl
    rcases hc with hc | hc
    · exact ⟨fun _ hn => absurd hc.lineOut hn, hc.rxcieRaisedEmpty hport.endedFifo, fun _ => hc.rxb_head_data⟩
    · refine ⟨fun hd hn => ?_, hc.rxcieRaisedEmpty, fun hoff => ?_⟩
      · obtain ⟨hshift, hctrl⟩ := hc.lineOut_cases.resolve_left hn
        have hoff : u.uart.ctrla.getLsbD 7 = false :=
          eq_false_of_ne_true fun hon => hshift (hport.hdQuiet hd hon).2.2
        exact ⟨hoff, hctrl ▸ hoff⟩
      · rw [hc.rxb_of_rxcie hoff]
        exact ⟨rfl, rfl⟩

end Sys2Proof.Machine
end

section
/-! SUPPORT. The commands of the Transfer State Machine and their spins, an equation per case (41_transfer_state_machine.md
R162 to R180), and O6, O17, O27, O28, O29 from them. -/

namespace Sys2Proof.Machine

open Sys2Proof

/-! ### The flush conditions -/

theorem Periph.flushDone_iff {u : Periph} :
    u.flushDone = true ↔ u.ctrla.getLsbD 5 = false ∧ u.txcif = true := by
  simp only [Periph.flushDone, Periph.dreie_eq, Bool.and_eq_true, Bool.not_eq_true']

theorem Port.flushed_iff {u : Port} :
    u.flushed ↔ u.written = false ∨ (u.uart.ctrla.getLsbD 5 = false ∧ u.uart.txcif = true) := by
  rw [Port.flushed, Periph.flushDone_iff]

theorem Port.not_flushed {u : Port} (hw : u.written = true)
    (hd : ¬ (u.uart.ctrla.getLsbD 5 = false ∧ u.uart.txcif = true)) : ¬ u.flushed :=
  fun hf => hd ((Port.flushed_iff.mp hf).resolve_left (ne_false_of_eq_true hw))

section
variable {s : State} {c : PortParams} {u : Port}

/-! ### Flush, shutdown and configure -/

/-- A flush that need not wait continues at once (R172). -/
theorem flushThen_of_flushed {p : Nat} {k : Cont} (h : u.flushed) :
    flushThen s p k c u = continueWith s p k c u := by
  rw [flushThen, if_pos]
  simpa [Port.flushed] using h

/-- A flush that must wait blocks (R172). -/
theorem flushThen_of_not_flushed {p : Nat} {k : Cont} (h : ¬ u.flushed) :
    flushThen s p k c u = .next (s.block (.flushWait p k)) := by
  rw [flushThen, if_neg]
  simpa [Port.flushed] using h

/-- A port that has been shut down is left as it is by another `Shutdown` (R177). -/
theorem Port.shutdown_shutdown (u : Port) : u.shutdown.shutdown = u.shutdown := by
  simp only [Port.shutdown_eq]

theorem Port.shutdown_flushed (u : Port) : u.shutdown.flushed :=
  Or.inl (by rw [Port.shutdown_eq])

/-- `Configure` at an unrepresentable rate (R164). -/
theorem configure_of_invalid {p : Nat} {baud : Long} {cfg : Half} (h : baudDivisor s.params baud.toNat = none) :
    configure s p baud cfg c u = .next ((s.setPort p u).respond .fail 0#16) := by
  simp only [configure, h]

/-- `Configure` at a representable rate (R163). -/
theorem configure_of_valid {p : Nat} {baud : Long} {cfg : Half} {d : BaudSetting} {s1 : State}
    (h : baudDivisor s.params baud.toNat = some d) (hb : s.bindPins c u.pgi cfg = some s1) :
    configure s p baud cfg c u = .next ((s1.setPort p (u.configureRegs d cfg)).respond .ok 0#16) := by
  simp only [configure, h, hb]

/-- The binding of `Configure` on a port bound to no row (R163). -/
theorem State.bindPins_none {cfg : Half} : s.bindPins c MUX_IDX_NONE cfg = some (s.routeMasked c c.muxNoneCode) :=
  if_pos rfl

/-- The binding of `Configure` on a port bound to a row (R163). -/
theorem State.bindPins_row {pgi : Byte} {cfg : Half} {r : Row} (hn : pgi ≠ MUX_IDX_NONE)
    (hr : c.rows[pgi.toNat]? = some r) :
    s.bindPins c pgi cfg = some (s.applyPinConfiguration c r (enableMask cfg)) := by
  rw [State.bindPins, if_neg hn, hr, Option.map_some]

/-- The binding of `Configure` looks at neither the ports nor the response, and keeps both. -/
theorem State.bindPins_setPort_respond {p : Nat} {cfg : Half} {pgi : Byte} {v : Port} {a : Status} {x : Half} :
    ((s.setPort p v).respond a x).bindPins c pgi cfg =
      (s.bindPins c pgi cfg).map fun s1 => (s1.setPort p v).respond a x := by
  unfold State.bindPins
  split
  · rfl
  · cases c.rows[pgi.toNat]? <;> rfl

/-- `Configure` writes the port and the response itself, whatever they were before. -/
theorem configure_setPort_respond {p : Nat} {baud : Long} {cfg : Half} {v : Port} {a : Status} {x : Half} :
    configure ((s.setPort p v).respond a x) p baud cfg c u = configure s p baud cfg c u := by
  have overwrite : ∀ (s1 : State) (w : Port) (b : Status) (y : Half),
      (((s1.setPort p v).respond a x).setPort p w).respond b y = (s1.setPort p w).respond b y := fun s1 w b y => by
    simp [State.setPort, State.respond]
  simp only [configure, State.respond_params, State.setPort_params, State.bindPins_setPort_respond, overwrite]
  cases baudDivisor s.params baud.toNat with
  | none => rfl
  | some d => cases s.bindPins c u.pgi cfg <;> simp [overwrite]

/-! ### The commands -/

theorem exec_begin_of_not_begun {p : Byte} {baud : Long} {cfg : Half} (hl : s.lookup p.toNat = some (c, u))
    (hb : u.begun = false) : exec (.beginPort p baud cfg) s = configure s p.toNat baud cfg c u := by
  simp [exec, execBegin, withPort_of_lookup hl, hb]

theorem exec_begin_of_begun {p : Byte} {baud : Long} {cfg : Half} (hl : s.lookup p.toNat = some (c, u))
    (hb : u.begun = true) : exec (.beginPort p baud cfg) s = flushThen s p.toNat (.thenEndBegin baud cfg) c u := by
  simp [exec, execBegin, withPort_of_lookup hl, hb]

theorem exec_end {p : Byte} (hl : s.lookup p.toNat = some (c, u)) :
    exec (.endPort p) s = flushThen s p.toNat .thenEnd c u :=
  withPort_of_lookup hl

/-- END of a port whose flush is done (R176). -/
theorem exec_end_of_flushed {p : Byte} (hl : s.lookup p.toNat = some (c, u)) (hf : u.flushed) :
    exec (.endPort p) s = .next ((s.setPort p.toNat u.shutdown).respond .ok 0#16) := by
  rw [exec_end hl, flushThen_of_flushed hf]
  rfl

theorem exec_flush {p : Byte} (hl : s.lookup p.toNat = some (c, u)) :
    exec (.flush p) s = flushThen s p.toNat .done c u :=
  withPort_of_lookup hl

theorem exec_usable {p : Byte} (hl : s.lookup p.toNat = some (c, u)) :
    exec (.usable p) s = .next (s.respond .ok 1#16) :=
  withPort_of_lookup hl

/-! ### One iteration of a blocked flush -/

theorem spin_of_flushWait {p : Nat} {k : Cont} (hs : s.seq = .flushWait p k) (hl : s.lookup p = some (c, u)) :
    spin s = flushSpin s p k c u := by
  simp only [spin, hs, hl]

/-- The spin that finds the flush done continues (R173). -/
theorem spin_flush_of_done {p : Nat} {k : Cont} (hs : s.seq = .flushWait p k) (hl : s.lookup p = some (c, u))
    (hd : u.uart.flushDone = true) : spin s = continueWith s.unblock p k c u := by
  rw [spin_of_flushWait hs hl, flushSpin, if_pos hd]

/-- The spin that does not find the flush done only polls (R173). -/
theorem spin_flush_of_not_done {p : Nat} {k : Cont} (hs : s.seq = .flushWait p k) (hl : s.lookup p = some (c, u))
    (hd : ¬ u.uart.flushDone = true) : spin s = .next (s.setPort p (s.pollPort u)) := by
  rw [spin_of_flushWait hs hl, flushSpin, if_neg hd]

/-- A blocked flush goes on only in the spin that finds it done (R173). -/
theorem spin_flush_completes {t : State} {p : Nat} {k : Cont} (hs : s.seq = .flushWait p k) (h : spin s = .next t)
    (hq : t.seq ≠ s.seq) :
    ∃ c u, s.lookup p = some (c, u) ∧ u.uart.flushDone = true ∧ continueWith s.unblock p k c u = .next t := by
  cases hl : s.lookup p with
  | none => simp [spin, hs, hl] at h
  | some e =>
    obtain ⟨c, u⟩ := e
    by_cases hd : u.uart.flushDone = true
    · exact ⟨c, u, rfl, hd, by rw [← spin_flush_of_done hs hl hd, h]⟩
    · rw [spin_flush_of_not_done hs hl hd] at h
      cases h
      exact absurd rfl hq

end

/-- Settles O6: the turn drawn is the Host's or the Irq agent's, and the word decodes. -/
theorem stepRunsDecodedInstruction : Obligations.StepRunsDecodedInstruction := by
  refine ⟨fun s w rest i he hs hp hd => ?_, fun s v i he hd => ?_⟩
  · simp only [step, he, runEvent, hostTurn, State.afterDraw_seq, State.afterDraw_program, hs, hp, issue, hd]
  · simp only [step, he, runEvent, irqTurn, hd]

/-- Settles O17: USABLE answers on every port that exists. -/
theorem usableAnswersOne : Obligations.UsableAnswersOne :=
  fun _ _ _ _ hl => ⟨encodes_of_encode rfl, exec_usable hl⟩

/-- Settles O27: the two cases of `FlushThen` with nothing to continue with. -/
theorem flushCompletesOrWaits : Obligations.FlushCompletesOrWaits := by
  intro s p c u hl
  rw [exec_flush hl]
  refine ⟨encodes_of_encode rfl, fun hf => ?_, fun hw hd => ?_⟩
  · rw [flushThen_of_flushed (Port.flushed_iff.mpr hf)]
    rfl
  · exact flushThen_of_not_flushed (Port.not_flushed hw hd)

/-- Settles O28: END flushes first, and `Shutdown` is what follows. -/
theorem endShutsDownPort : Obligations.EndShutsDownPort := by
  intro s p c u hl
  refine ⟨encodes_of_encode rfl, fun hf => ?_, fun hw hd => ?_⟩
  · rw [exec_end_of_flushed hl (Port.flushed_iff.mpr hf), Port.shutdown_eq]
    rfl
  · rw [exec_end hl]
    exact flushThen_of_not_flushed (Port.not_flushed hw hd)

/-- END on a port that END has just shut down changes nothing (R178). -/
theorem exec_end_of_ended {s : State} {p : Byte} {c : PortParams} {u : Port} (hl : s.lookup p.toNat = some (c, u)) :
    exec (.endPort p) ((s.setPort p.toNat u.shutdown).respond .ok 0#16) =
      .next ((s.setPort p.toNat u.shutdown).respond .ok 0#16) := by
  have hl' := State.lookup_setPort_same u.shutdown hl
  rw [exec_end_of_flushed (s := (s.setPort p.toNat u.shutdown).respond .ok 0#16) hl' u.shutdown_flushed,
    Port.shutdown_shutdown]
  simp [State.setPort, State.respond]

/-- AVAIL on an empty receive buffer (R148). -/
theorem exec_avail_of_empty {s : State} {p : Byte} {c : PortParams} {u : Port} (hl : s.lookup p.toNat = some (c, u))
    (hc : LegalCap s.params.rxCap) (hw : u.rxb.Wf s.params.rxCap) (he : u.rxb.head = u.rxb.tail) :
    exec (.avail p) s = .next { s with response := some ⟨.ok, 0#16⟩ } := by
  rw [exec_avail hl, (Ring.available_eq_zero hc hw.head hw.tail).mpr he]
  rfl

/-- AVAILW on an empty transmit buffer (R149). -/
theorem exec_availw_of_empty {s : State} {p : Byte} {c : PortParams} {u : Port} (hl : s.lookup p.toNat = some (c, u))
    (hc : LegalCap s.params.txCap) (hw : u.txb.Wf s.params.txCap) (he : u.txb.head = u.txb.tail) :
    exec (.availw p) s = .next { s with response := some ⟨.ok, BitVec.ofNat 16 (s.params.txCap - 1)⟩ } := by
  rw [exec_availw hl, Ring.availableForWrite, (Ring.available_eq_zero hc hw.head hw.tail).mpr he]
  rfl

/-- Settles O29: `Shutdown` is idempotent, and END on a port just begun leaves both its buffers empty. -/
theorem endIsIdempotent : Obligations.EndIsIdempotent := by
  refine ⟨fun s t p c u hl hf h => ?_, fun s t p hs h hq => ?_, ?_⟩
  · rw [exec_end_of_flushed hl (Port.flushed_iff.mpr hf)] at h
    cases h
    exact exec_end_of_ended hl
  · obtain ⟨c, u, hl, -, hk⟩ := spin_flush_completes hs h (by rw [hq, hs]; exact Seq.noConfusion)
    cases hk
    exact exec_end_of_ended (s := s.unblock) hl
  · intro s t p baud cfg c u hl hb hrc htc hrx htx he h hr
    rw [exec_begin_of_not_begun hl hb] at h
    rcases configure_cases h with ⟨-, rfl⟩ | ⟨d, s1, -, hbind, rfl⟩
    · cases hr
    · obtain ⟨hp, hq, -⟩ := State.bindPins_frame hbind
      have hl1 : s1.lookup p.toNat = some (c, u) := by rw [State.lookup_congr hp hq, hl]
      rw [← hp] at hrc htc hrx htx ⊢
      have hlt := State.lookup_setPort_same (u.configureRegs d cfg) hl1
      have hle := State.lookup_setPort_same (u.configureRegs d cfg).shutdown hlt
      refine ⟨_, exec_end_of_flushed (s := (s1.setPort p.toNat (u.configureRegs d cfg)).respond .ok 0#16) hlt
        (Or.inl rfl), rfl, ?_, ?_⟩
      · exact exec_avail_of_empty hle hrc (by rw [Port.shutdown_eq]; exact hrx.discard) (by rw [Port.shutdown_eq])
      · exact exec_availw_of_empty hle htc (by rw [Port.shutdown_eq]; exact htx) (by rw [Port.shutdown_eq]; exact he)

end Sys2Proof.Machine
end

section
/-! SUPPORT. What `Configure` writes in terms of the Configuration Decoder, a blocked flush spin by spin, and O20, O21, O22,
O30, O53 (41_transfer_state_machine.md R162 to R165, R172 to R174). -/

namespace Sys2Proof.Machine

open Sys2Proof

/-! ### The registers `Configure` writes -/

/-- CTRLA of the decoder has no reserved bit, so that the write of it keeps every bit (R31, R224). -/
theorem ctrlAOf_and_mask (cfg : Half) : ctrlAOf cfg &&& 0xEB#8 = ctrlAOf cfg := by
  have all : ∀ (rx lb : Bool) (m : BitVec 2),
      (byteBit rx 7 ||| byteBit lb 3 ||| m.setWidth 8) &&& 0xEB#8 = byteBit rx 7 ||| byteBit lb 3 ||| m.setWidth 8 := by
    decide
  exact all _ _ _

/-- CTRLB of the decoder with the double-speed bit has no reserved bit (R32, R225). -/
theorem ctrlBValue_eq (d : BaudSetting) (cfg : Half) :
    ctrlBValue d cfg = ctrlBOf cfg ||| (if d.clk2x then 0x02#8 else 0x00#8) := by
  have all : ∀ rx tx od x2 : Bool,
      (byteBit rx 7 ||| byteBit tx 6 ||| byteBit od 3 ||| byteBit x2 1) &&& 0xCE#8 =
        byteBit rx 7 ||| byteBit tx 6 ||| byteBit od 3 ||| (if x2 then 0x02#8 else 0x00#8) := by decide
  exact all _ _ _ _

theorem frameFormatOf_and_mask (cfg : Half) : frameFormatOf cfg &&& 0xFB#8 = frameFormatOf cfg := by
  rw [frameFormatOf, BitVec.and_assoc]
  rfl

/-- The register part of `Configure` writes the decoder's outputs as they are (R163, R221). -/
theorem Port.configureRegs_decoded (u : Port) (d : BaudSetting) (cfg : Half) :
    u.configureRegs d cfg =
      { u with
        uart := { u.uart with
          baud := d.reg
          ctrlc := (decodeConfig cfg).frameFormat
          ctrla := (decodeConfig cfg).ctrlA
          ctrlb := (decodeConfig cfg).ctrlB ||| (if d.clk2x then 0x02#8 else 0x00#8) }
        written := false
        hd := (decodeConfig cfg).isHD
        begun := true } := by
  rw [Port.configureRegs_eq, ctrlAOf_and_mask, ctrlBValue_eq, frameFormatOf_and_mask]
  rfl

/-- Settles O20: `Configure` of an existing port that is not begun, for each kind of binding. -/
theorem beginConfiguresPort : Obligations.BeginConfiguresPort := by
  intro s p baud cfg c u d hl hb hd
  rw [exec_begin_of_not_begun hl hb]
  refine ⟨fun hn => ?_, fun r hn hr => ?_⟩
  · have hbind : s.bindPins c u.pgi cfg = some (s.routeMasked c c.muxNoneCode) := by
      rw [hn]
      exact State.bindPins_none
    rw [configure_of_valid hd hbind, Port.configureRegs_decoded]
    rfl
  · rw [configure_of_valid hd (State.bindPins_row hn hr), Port.configureRegs_decoded]
    rfl

/-- Settles O21: `Configure` puts back the port it was given, which after the implicit END is the one shut down. -/
theorem beginFailsOnInvalidBaud : Obligations.BeginFailsOnInvalidBaud := by
  intro s p baud cfg c u hl hd
  refine ⟨fun hb => ?_, fun hb hf => ?_⟩
  · rw [exec_begin_of_not_begun hl hb, configure_of_invalid hd, State.setPort_self hl]
    rfl
  · rw [exec_begin_of_begun hl hb, flushThen_of_flushed (Port.flushed_iff.mpr hf), continueWith,
      configure_of_invalid hd, Port.shutdown_eq]
    rfl

/-- BEGIN on a port that END has just shut down configures it as BEGIN's own `Continue` does (R165, R172). -/
theorem exec_begin_of_ended {s : State} {p : Byte} {baud : Long} {cfg : Half} {c : PortParams} {u : Port}
    (hl : s.lookup p.toNat = some (c, u)) :
    exec (.beginPort p baud cfg) ((s.setPort p.toNat u.shutdown).respond .ok 0#16) =
      continueWith s p.toNat (.thenEndBegin baud cfg) c u := by
  have hl' := State.lookup_setPort_same u.shutdown hl
  rw [exec_begin_of_not_begun (s := (s.setPort p.toNat u.shutdown).respond .ok 0#16) hl' u.shutdown_begun]
  exact configure_setPort_respond

/-- Settles O22: both flush alike, and after the flush BEGIN does what it does on the port that END leaves. -/
theorem beginRestartsLikeEndThenBegin : Obligations.BeginRestartsLikeEndThenBegin := by
  intro s p baud cfg c u hl hb
  refine ⟨fun hf => ?_, fun hw hd => ?_, fun h5 hx => ?_, fun hd => ?_⟩
  · have hu := Port.flushed_iff.mpr hf
    refine ⟨_, exec_end_of_flushed hl hu, ?_⟩
    rw [exec_begin_of_begun hl hb, flushThen_of_flushed hu, exec_begin_of_ended hl]
  · rw [exec_end hl, exec_begin_of_begun hl hb]
    have hu := Port.not_flushed hw hd
    exact ⟨flushThen_of_not_flushed hu, flushThen_of_not_flushed hu⟩
  · have hdone := Periph.flushDone_iff.mpr ⟨h5, hx⟩
    have spins := fun k => spin_flush_of_done (s := { s with seq := .flushWait p.toNat k }) rfl hl hdone
    exact ⟨_, spins .thenEnd, (spins _).trans (exec_begin_of_ended (s := s.unblock) hl).symm⟩
  · have hdone := fun hx => hd (Periph.flushDone_iff.mp hx)
    have spins := fun k => spin_flush_of_not_done (s := { s with seq := .flushWait p.toNat k }) rfl hl hdone
    exact ⟨_, spins .thenEnd, rfl, spins _⟩

/-- Settles O53: the spin that completes the flush has found `FlushDone`, and the invariants say what that leaves. -/
theorem completedFlushHasDrained : Obligations.CompletedFlushHasDrained := by
  intro s t p k hi hline hr hs h hq
  rcases step_turn_cases h with ⟨i, rest, his, -⟩ | ⟨-, -, hx⟩ | ⟨q, c, u, u', -, -, rfl⟩ | ht
  · obtain ⟨-, hready, -⟩ := his
    rw [hs] at hready
    cases hready
  · obtain ⟨c, u, hl, hd, -⟩ := spin_flush_completes (by simpa using hs) hx (by simpa using hq)
    rw [State.lookup_afterDraw] at hl
    have hport := hline p c u hl
    obtain ⟨h5, htx⟩ := Periph.flushDone_iff.mp hd
    obtain ⟨hhold, hshift⟩ := hport.complete htx
    exact ⟨c, u, hl, (hi.ports p c u hl).txb_empty_of_dreie h5, h5, htx, hhold, hshift,
      by simp [hport.log, hhold, hshift]⟩
  · exact absurd (by simp) hq
  · exact absurd (by rw [ht]; simp) hq

end Sys2Proof.Machine
end

section
/-! SUPPORT. WRITE, its spins and the polls in the terms of 41_transfer_state_machine.md R166 to R173, and O23, O24, O25, O26,
O30 from them. -/

namespace Sys2Proof.Machine

open Sys2Proof

/-! ### CTRLA with its reserved bits 0 -/

section
variable {a : Byte}

/-- Where the reserved bits of CTRLA are 0, masking them out changes nothing (R31). -/
theorem and_mask_of_reserved (h : a &&& 0x14#8 = 0#8) : a &&& 0xEB#8 = a := by
  calc a &&& 0xEB#8 = (a &&& 0x14#8) ||| (a &&& 0xEB#8) := by rw [h, BitVec.zero_or]
    _ = a &&& 0xFF#8 := BitVec.and_or_distrib_left.symm
    _ = a := BitVec.and_allOnes

theorem and_and_mask_of_reserved (h : a &&& 0x14#8 = 0#8) (m : Byte) : (a &&& m) &&& 0xEB#8 = a &&& m := by
  rw [BitVec.and_assoc, BitVec.and_comm m, ← BitVec.and_assoc, and_mask_of_reserved h]

theorem dreOffValue_eq (h : a &&& 0x14#8 = 0#8) : dreOffValue a = a &&& 0xDF#8 :=
  and_and_mask_of_reserved h _

theorem dreOnValue_eq (h : a &&& 0x14#8 = 0#8) : dreOnValue a = a ||| 0x20#8 := by
  rw [dreOnValue, BitVec.and_or_distrib_right, and_mask_of_reserved h]
  rfl

theorem hdArmValue_eq (h : a &&& 0x14#8 = 0#8) : hdArmValue a = (a &&& 0x7F#8) ||| 0x40#8 := by
  rw [hdArmValue, BitVec.and_or_distrib_right, and_and_mask_of_reserved h]
  rfl

/-- CTRLA after the arming of a WRITE (R168). -/
theorem armed_eq (h : a &&& 0x14#8 = 0#8) (hd : Bool) :
    (if hd then hdArmValue a else a) = if hd then (a &&& 0x7F#8) ||| 0x40#8 else a := by
  rw [hdArmValue_eq h]

/-- CTRLA after the arming of a WRITE and `DREIE <- 1` (R167, R168). -/
theorem dreOn_armed_eq (h : a &&& 0x14#8 = 0#8) (hd : Bool) :
    dreOnValue (if hd then hdArmValue a else a) = (if hd then (a &&& 0x7F#8) ||| 0x40#8 else a) ||| 0x20#8 := by
  have reserved : (if hd then hdArmValue a else a) &&& 0x14#8 = 0#8 := by
    obtain ⟨-, -, -, -, -, -, hres⟩ := hdArmValue_bits a
    cases hd
    · exact h
    · exact hres
  rw [dreOnValue_eq reserved, armed_eq h]

end

/-! ### The poll and the bytes of a WRITE -/

theorem State.mustPoll_iff {s : State} : s.mustPoll = true ↔ s.gie = false ∨ s.iexec = true := by
  simp [State.mustPoll]

section
variable {s : State} {p : Nat} {b : Byte} {c : PortParams} {u : Port}

/-- When the poll of a blocked command drains (R13, R170). -/
theorem State.pollPort_eq (s : State) (u : Port) :
    s.pollPort u = if (s.gie = false ∨ s.iexec = true) ∧ u.uart.txHold = none then u.dreStep s.params.txCap else u := by
  rw [State.pollPort, Port.pollDrain, ← ite_and]
  exact if_congr (and_congr State.mustPoll_iff Option.isNone_iff_eq_none) rfl rfl

/-- The poll of a port with bytes buffered (R167, R170). -/
theorem State.pollPort_of_held (hc : LegalCap s.params.txCap) (hn : u.txb.head ≠ u.txb.tail) :
    s.pollPort u =
      if (s.gie = false ∨ s.iexec = true) ∧ u.uart.txHold = none then
        { u with
          txb := ⟨u.txb.head, (u.txb.tail + 1) % s.params.txCap, u.txb.data⟩
          uart := { u.uart with txcif := false, txHold := some (Memory.read u.txb.data u.txb.tail) }
          txLog := u.txLog ++ [Memory.read u.txb.data u.txb.tail] }
      else u := by
  rcases u.dreStep_cases s.params.txCap with ⟨he, -⟩ | ⟨-, hd⟩
  · exact absurd he hn
  · rw [State.pollPort_eq, hd, cursorNext_eq hc]

/-- `DreStep` on a port whose CTRLA has its reserved bits 0 (R169). -/
theorem Port.dreStep_of_reserved {cap : Nat} (hc : LegalCap cap) (hr : u.uart.ctrla &&& 0x14#8 = 0#8) :
    u.dreStep cap =
      if u.txb.head = u.txb.tail then { u with uart := { u.uart with ctrla := u.uart.ctrla &&& 0xDF#8 } }
      else { u with
        txb := ⟨u.txb.head, (u.txb.tail + 1) % cap, u.txb.data⟩
        uart := { u.uart with txcif := false, txHold := some (Memory.read u.txb.data u.txb.tail) }
        txLog := u.txLog ++ [Memory.read u.txb.data u.txb.tail] } := by
  rcases u.dreStep_cases cap with ⟨he, hd⟩ | ⟨hn, hd⟩
  · rw [if_pos he, hd, dreOffValue_eq hr]
  · rw [if_neg hn, hd, cursorNext_eq hc]

/-- The fast path on a port whose CTRLA has its reserved bits 0 (R166). -/
theorem Port.fastWrite_of_reserved (hr : u.uart.ctrla &&& 0x14#8 = 0#8) :
    u.fastWrite b =
      { u with
        uart := { u.uart with
          ctrla := if u.hd then (u.uart.ctrla &&& 0x7F#8) ||| 0x40#8 else u.uart.ctrla
          txcif := false
          txHold := some b }
        txLog := u.txLog ++ [b] } := by
  rw [Port.fastWrite_eq, armed_eq hr]

/-- The push on a port whose CTRLA has its reserved bits 0 (R167). -/
theorem Port.pushByte_of_reserved {cap : Nat} (hc : LegalCap cap) (hr : u.uart.ctrla &&& 0x14#8 = 0#8)
    (hn : (u.txb.head + 1) % cap ≠ u.txb.tail) :
    u.pushByte cap b =
      { u with
        txb := ⟨(u.txb.head + 1) % cap, u.txb.tail, Memory.write u.txb.data u.txb.head b⟩
        uart := { u.uart with
          ctrla := (if u.hd then (u.uart.ctrla &&& 0x7F#8) ||| 0x40#8 else u.uart.ctrla) ||| 0x20#8 } } := by
  rw [← cursorNext_eq hc] at hn ⊢
  rw [Port.pushByte_eq b hn, dreOn_armed_eq hr]

/-! ### The paths of WRITE -/

/-- `availableForWrite` is 0 exactly when the next head is the tail (R144, R146). -/
theorem Ring.Wf.availableForWrite_eq_zero_iff {cap : Nat} {r : Ring} (hc : LegalCap cap) (h : r.Wf cap) :
    r.availableForWrite cap = 0 ↔ (r.head + 1) % cap = r.tail := by
  rw [Ring.availableForWrite_eq_zero hc h.head h.tail, cursorNext_eq hc]

/-- A full buffer holds something (R146). -/
theorem Ring.Wf.held_of_full {cap : Nat} {r : Ring} (hc : LegalCap cap) (h : r.Wf cap)
    (hf : (r.head + 1) % cap = r.tail) : r.head ≠ r.tail :=
  h.head_ne_tail_of_full hc ((h.availableForWrite_eq_zero_iff hc).mpr hf)

/-- `WriteTry` on a full buffer: it polls and blocks, or goes on blocking (R167, R170). -/
theorem writeTry_of_full (hc : LegalCap s.params.txCap) (hw : u.txb.Wf s.params.txCap)
    (hf : (u.txb.head + 1) % s.params.txCap = u.txb.tail) :
    writeTry s p b u = .next { s with
      ports := s.ports.set p
        (if (s.gie = false ∨ s.iexec = true) ∧ u.uart.txHold = none then
          { u with
            txb := ⟨u.txb.head, (u.txb.tail + 1) % s.params.txCap, u.txb.data⟩
            uart := { u.uart with txcif := false, txHold := some (Memory.read u.txb.data u.txb.tail) }
            txLog := u.txLog ++ [Memory.read u.txb.data u.txb.tail] }
         else u)
      seq := .writeWait p b
      response := none } := by
  rw [writeTry, if_pos ((hw.availableForWrite_eq_zero_iff hc).mpr hf), State.pollPort_of_held hc (hw.held_of_full hc hf)]
  rfl

/-- `WriteTry` with a slot free pushes and answers (R167). -/
theorem writeTry_of_room (hc : LegalCap s.params.txCap) (hw : u.txb.Wf s.params.txCap)
    (hr : u.uart.ctrla &&& 0x14#8 = 0#8) (hn : (u.txb.head + 1) % s.params.txCap ≠ u.txb.tail) :
    writeTry s p b u = .next { s with
      ports := s.ports.set p { u with
        txb := ⟨(u.txb.head + 1) % s.params.txCap, u.txb.tail, Memory.write u.txb.data u.txb.head b⟩
        uart := { u.uart with
          ctrla := (if u.hd then (u.uart.ctrla &&& 0x7F#8) ||| 0x40#8 else u.uart.ctrla) ||| 0x20#8 } }
      seq := .ready
      response := some ⟨.ok, 1#16⟩ } := by
  rw [writeTry, if_neg (mt (hw.availableForWrite_eq_zero_iff hc).mp hn), Port.pushByte_of_reserved hc hr hn]
  rfl

/-- The body of WRITE with the buffer and the data register empty: the fast path (R166). -/
theorem writeBody_of_empty (he : u.txb.head = u.txb.tail) (hh : u.uart.txHold = none)
    (hr : u.uart.ctrla &&& 0x14#8 = 0#8) :
    writeBody s p b u = .next { s with
      ports := s.ports.set p { u with
        written := true
        uart := { u.uart with
          ctrla := if u.hd then (u.uart.ctrla &&& 0x7F#8) ||| 0x40#8 else u.uart.ctrla
          txcif := false
          txHold := some b }
        txLog := u.txLog ++ [b] }
      response := some ⟨.ok, 1#16⟩ } := by
  rw [writeBody, if_pos ⟨he, Option.isNone_iff_eq_none.mpr hh⟩,
    Port.fastWrite_of_reserved (u := { u with written := true }) hr]
  rfl

/-- The body of WRITE with something left to send: the slow path (R166). -/
theorem writeBody_of_not_empty (h : ¬ (u.txb.head = u.txb.tail ∧ u.uart.txHold = none)) :
    writeBody s p b u = writeTry s p b { u with written := true } :=
  if_neg fun he => h ⟨he.1, Option.isNone_iff_eq_none.mp he.2⟩

/-- The body of WRITE on a full buffer takes the slow path (R166). -/
theorem writeBody_of_full (hc : LegalCap s.params.txCap) (hw : u.txb.Wf s.params.txCap)
    (hf : (u.txb.head + 1) % s.params.txCap = u.txb.tail) :
    writeBody s p b u = writeTry s p b { u with written := true } :=
  writeBody_of_not_empty fun he => hw.held_of_full hc hf he.1

end

section
variable {s : State} {p : Byte} {v : Long} {c : PortParams} {u : Port}

/-- WRITE as R166 defines it: on a begun port with the transmitter on. -/
theorem exec_write (hl : s.lookup p.toNat = some (c, u)) (hb : u.begun = true) (ht : u.uart.ctrlb.getLsbD 6 = true) :
    exec (.write p v) s = writeBody s p.toNat (v.setWidth 8) u := by
  have hon : u.uart.txen = true := ht
  simp [exec, execWrite, withPort_of_lookup hl, hb, hon, writeByte_eq_setWidth]

/-- WRITE on a port that is not begun, refused (U1). -/
theorem exec_write_of_not_begun_refuse (hl : s.lookup p.toNat = some (c, u)) (hb : u.begun = false)
    (hm : s.params.misuse = .refuse) : exec (.write p v) s = .refused .writeNotBegun := by
  simp [exec, execWrite, withPort_of_lookup hl, hb, hm]

/-- WRITE on a port that is not begun, in the total machine (U1). -/
theorem exec_write_of_not_begun_total (hl : s.lookup p.toNat = some (c, u)) (hb : u.begun = false)
    (hm : s.params.misuse = .total) : exec (.write p v) s = .next (s.respond .fail 0#16) := by
  simp [exec, execWrite, withPort_of_lookup hl, hb, hm]

/-- WRITE on a begun port with the transmitter off, refused (U2). -/
theorem exec_write_of_txOff_refuse (hl : s.lookup p.toNat = some (c, u)) (hb : u.begun = true)
    (ht : u.uart.ctrlb.getLsbD 6 = false) (hm : s.params.misuse = .refuse) :
    exec (.write p v) s = .refused .writeTransmitterOff := by
  have hoff : u.uart.txen = false := ht
  simp [exec, execWrite, withPort_of_lookup hl, hb, hoff, hm]

/-- WRITE on a begun port in the total machine: R166's rule, whether the transmitter is on or off (U2). -/
theorem exec_write_of_begun_total (hl : s.lookup p.toNat = some (c, u)) (hb : u.begun = true)
    (hm : s.params.misuse = .total) : exec (.write p v) s = writeBody s p.toNat (v.setWidth 8) u := by
  simp [exec, execWrite, withPort_of_lookup hl, hb, hm, writeByte_eq_setWidth]

end

theorem spin_of_writeWait {s : State} {p : Nat} {b : Byte} {c : PortParams} {u : Port} (hs : s.seq = .writeWait p b)
    (hl : s.lookup p = some (c, u)) : spin s = writeTry s p b u := by
  simp only [spin, hs, hl]

/-- Settles O23: WRITE's body with everything empty. -/
theorem writeFastPath : Obligations.WriteFastPath := by
  intro s p v c u hl hb ht hr he hh
  exact ⟨encodes_of_encode rfl, (exec_write hl hb ht).trans (writeBody_of_empty he hh hr)⟩

/-- Settles O24: the slow path of WRITE's body with a slot free. -/
theorem writePushesOntoBuffer : Obligations.WritePushesOntoBuffer := by
  intro s p v c u hl hb ht hr hc hw hne hn
  rw [exec_write hl hb ht, writeBody_of_not_empty hne]
  exact writeTry_of_room (u := { u with written := true }) hc hw hr hn

/-- Settles O25: `WriteTry` in the step that issues the WRITE and in each spin. -/
theorem fullBufferBlocksWrite : Obligations.FullBufferBlocksWrite := by
  refine ⟨fun s p v c u hl hb ht hc hw hf => ?_, fun s p b c u hs hl hr hc hw => ?_⟩
  · rw [exec_write hl hb ht, writeBody_of_full hc hw hf]
    exact writeTry_of_full (u := { u with written := true }) hc hw hf
  · rw [spin_of_writeWait hs hl]
    refine ⟨fun hf => ?_, fun hn => writeTry_of_room hc hw hr hn⟩
    rw [writeTry_of_full hc hw hf, ← hs]

/-! ### The line with the transmitter off -/

/-- LineLoad is not enabled while the transmitter is off (R281). -/
theorem Periph.lineLoad_of_txOff {u : Periph} (ht : u.ctrlb.getLsbD 6 = false) : u.lineLoad = u := by
  rcases u.lineLoad_cases with ⟨b, hon, -⟩ | h
  · rw [Periph.txen, ht] at hon
    cases hon
  · exact h

/-- LineShiftDone is not enabled while nothing is shifted out (R282). -/
theorem Port.lineShiftDone_of_none {u : Port} (depth : Nat) (hs : u.uart.txShift = none) : u.lineShiftDone depth = u := by
  rcases u.lineShiftDone_cases depth with ⟨-, h⟩ | ⟨b, hb, -⟩
  · exact h
  · rw [hs] at hb
    cases hb

/-- An environment step that leaves its port as it is changes nothing. -/
theorem State.environment_of_kept {s : State} {view : LineView} {p : Nat} {f : Port → Port} {c : PortParams} {u : Port}
    (hl : s.lookup p = some (c, u)) (hf : f u = u) : s.environment view p f = s := by
  rcases s.environment_cases view p f with h | ⟨c', u', hl', -, h⟩ <;> rw [h]
  rw [hl] at hl'
  cases hl'
  rw [hf, State.setPort_self hl]

/-- The port after an environment step on it: as it was, or changed by the step. -/
theorem State.lookup_environment {s : State} {view : LineView} {p : Nat} {f : Port → Port} {c : PortParams} {u : Port}
    (hl : s.lookup p = some (c, u)) :
    ∃ u', (s.environment view p f).lookup p = some (c, u') ∧ (u' = u ∨ u' = f u) := by
  rcases s.environment_cases view p f with h | ⟨c', u', hl', -, h⟩ <;> rw [h]
  · exact ⟨u, hl, Or.inl rfl⟩
  · rw [hl] at hl'
    cases hl'
    exact ⟨f u, State.lookup_setPort_same _ hl, Or.inr rfl⟩

/-- Settles O26: the two machines of a misused WRITE, and the line steps that the transmitter's state does not enable. -/
theorem misusedWriteRefusedOrTotal : Obligations.MisusedWriteRefusedOrTotal := by
  refine ⟨fun s p v c u hl => ⟨fun hb hm => ?_, fun hb hm => ?_, fun hb ht hm => ?_, fun hb ht hm hr hc hw => ?_⟩,
    fun s p c u hl ht hs => ⟨?_, ?_, fun b perr ferr => ?_⟩⟩
  · exact exec_write_of_not_begun_refuse hl hb hm
  · exact exec_write_of_not_begun_total hl hb hm
  · exact exec_write_of_txOff_refuse hl hb ht hm
  · rw [exec_write_of_begun_total hl hb hm]
    refine ⟨fun he hh => writeBody_of_empty he hh hr, fun hne hn => ?_, fun hf => ?_⟩
    · rw [writeBody_of_not_empty hne]
      exact writeTry_of_room (u := { u with written := true }) hc hw hr hn
    · rw [writeBody_of_full hc hw hf]
      exact writeTry_of_full (u := { u with written := true }) hc hw hf
  · exact congrArg _ (State.environment_of_kept hl (by rw [Periph.lineLoad_of_txOff ht]))
  · exact congrArg _ (State.environment_of_kept hl (Port.lineShiftDone_of_none _ hs))
  · obtain ⟨u', hl', hu⟩ := State.lookup_environment (view := .reference)
      (f := fun u => { u with uart := u.uart.lineRx s.params.rxFifoDepth ⟨b, perr, ferr⟩ }) hl
    refine ⟨_, u', rfl, hl', ?_⟩
    rcases hu with rfl | rfl
    · rfl
    · rw [Periph.lineRx_eq]

/-- Settles O30: `FlushSpin` continues, or polls, which without the need or with DREIF clear changes nothing. -/
theorem flushSpinIteration : Obligations.FlushSpinIteration := by
  intro s p k c u hs hl
  refine ⟨fun h5 hx => ?_, fun hd hp => ?_, fun hd hm hh hr hc hw => ?_⟩
  · rw [spin_flush_of_done hs hl (Periph.flushDone_iff.mpr ⟨h5, hx⟩)]
    cases k <;> rfl
  · rw [spin_flush_of_not_done hs hl (mt Periph.flushDone_iff.mp hd), State.pollPort_eq, if_neg hp, State.setPort_self hl]
  · rw [spin_flush_of_not_done hs hl (mt Periph.flushDone_iff.mp hd), State.pollPort_eq, if_pos ⟨hm, hh⟩,
      Port.dreStep_of_reserved hc hr]
    rfl

end Sys2Proof.Machine
end

section
/-! SUPPORT. The Pin Binding Resolver's scan, the gated routing write bit by bit and the pins of a row, and O35, O36, O37,
O38, O19 from them (42_pin_binding_resolver.md R200 to R211). -/

namespace Sys2Proof.Machine

open Sys2Proof

/-! ### Resolution -/

/-- When a row matches a requested pair, in R201's own words. -/
theorem rowMatches_iff {tx rx : Byte} {r : Row} :
    rowMatches tx rx r = true ↔
      r.txPin ≠ 0xFF#8 ∧ r.txPin = tx ∧ (rx = 0xFF#8 ∨ r.txPin.toNat + 1 = rx.toNat) := by
  simp only [rowMatches, Bool.and_eq_true, bne_iff_ne, Bool.or_eq_true, beq_iff_eq, and_assoc, NOT_A_PIN]
  refine and_congr_right fun hn => ?_
  rw [rowRxPin, NOT_A_PIN, if_neg hn, RX_OFFSET]

/-- A row matches (tx, tx + 1) exactly when it has that transmit pin: below NOT_A_PIN the sum does not wrap (R202). -/
theorem rowMatches_adjacent_iff {tx : Byte} {r : Row} (hn : tx ≠ 0xFF#8) :
    rowMatches tx (tx + 1#8) r = true ↔ r.txPin = tx := by
  rw [rowMatches_iff]
  refine ⟨fun ⟨_, htx, _⟩ => htx, ?_⟩
  rintro rfl
  exact ⟨hn, rfl, Or.inr (by bv_omega)⟩

section
variable {tx rx : Byte}

/-- The scan stops at the first row that matches (R201). -/
theorem scanRows_of_first {rows : List Row} {i : Nat} {r : Row} (hr : rows[i]? = some r) (hm : rowMatches tx rx r = true)
    (before : ∀ (j : Nat) (r' : Row), j < i → rows[j]? = some r' → ¬ rowMatches tx rx r' = true) (k : Nat) :
    scanRows tx rx k rows = BitVec.ofNat 8 (k + i) := by
  induction rows generalizing i k with
  | nil => simp at hr
  | cons r₀ rest ih =>
    rw [scanRows]
    cases i with
    | zero =>
      obtain rfl : r₀ = r := by simpa using hr
      rw [if_pos hm, Nat.add_zero]
    | succ i =>
      rw [if_neg (before 0 r₀ i.succ_pos rfl),
        ih (by simpa using hr) (fun j r' hj hr' => before (j + 1) r' (Nat.succ_lt_succ hj) (by simpa using hr')),
        Nat.add_right_comm, Nat.add_assoc]

/-- The scan answers NOT_A_MUX when no row matches (R201). -/
theorem scanRows_of_no_match {rows : List Row} (h : ∀ r ∈ rows, ¬ rowMatches tx rx r = true) (k : Nat) :
    scanRows tx rx k rows = NOT_A_MUX := by
  induction rows generalizing k with
  | nil => rfl
  | cons r rest ih =>
    obtain ⟨hr, hrest⟩ := List.forall_mem_cons.mp h
    rw [scanRows, if_neg hr, ih hrest]

variable {c : PortParams}

/-- Away from the two sentinels the resolver is the scan, whose index fits a byte in a table of legal length (R201). -/
theorem resolveMuxFromPins_of_first (hs : ¬ (tx = 0xFF#8 ∧ rx = 0xFF#8)) (hlen : c.rows.length ≤ 127) {i : Nat} {r : Row}
    (hr : c.rows[i]? = some r) (hm : rowMatches tx rx r = true)
    (before : ∀ (j : Nat) (r' : Row), j < i → c.rows[j]? = some r' → ¬ rowMatches tx rx r' = true) :
    (resolveMuxFromPins c tx rx).toNat = i := by
  have hi : i < c.rows.length := (List.getElem?_eq_some_iff.mp hr).1
  rw [resolveMuxFromPins, NOT_A_PIN, if_neg hs, scanRows_of_first hr hm before, Nat.zero_add, BitVec.toNat_ofNat]
  exact Nat.mod_eq_of_lt (by omega)

theorem resolveMuxFromPins_of_no_match (hs : ¬ (tx = 0xFF#8 ∧ rx = 0xFF#8))
    (h : ∀ r ∈ c.rows, ¬ rowMatches tx rx r = true) : resolveMuxFromPins c tx rx = 0xFF#8 := by
  rw [resolveMuxFromPins, NOT_A_PIN, if_neg hs, scanRows_of_no_match h, NOT_A_MUX]

/-- The two sentinels ask for the "none" index (R201). -/
theorem resolveMuxFromPins_sentinels (c : PortParams) : resolveMuxFromPins c 0xFF#8 0xFF#8 = 0x80#8 :=
  if_pos ⟨rfl, rfl⟩

end

/-- Settles O35: the scan with its matching condition spelt out. -/
theorem resolverFindsFirstRow : Obligations.ResolverFindsFirstRow := by
  intro c tx rx hlen hit
  have hit_iff : ∀ r, rowMatches tx rx r = true ↔ hit r := fun r => rowMatches_iff
  refine ⟨?_, fun hs => ⟨fun i r hr hm before => ?_, fun hno => ?_⟩⟩
  · rintro ⟨rfl, rfl⟩
    exact resolveMuxFromPins_sentinels c
  · exact resolveMuxFromPins_of_first hs hlen hr ((hit_iff r).mpr hm)
      fun j r' hj hr' => mt (hit_iff r').mp (before j r' hj hr')
  · exact resolveMuxFromPins_of_no_match hs fun r hr => mt (hit_iff r).mp (hno r hr)

/-- Settles O36: of the pair (tx, tx + 1), only the transmit pin decides. -/
theorem resolverAdjacentPair : Obligations.ResolverAdjacentPair := by
  intro c tx
  refine ⟨resolveMuxFromPins_sentinels c, fun hlen hn i r hr htx before => ?_, fun hno => ?_⟩
  · exact resolveMuxFromPins_of_first (fun hs => hn hs.1) hlen hr ((rowMatches_adjacent_iff hn).mpr htx)
      fun j r' hj hr' => mt (rowMatches_adjacent_iff hn).mp (before j r' hj hr')
  · have hs : ¬ (tx = 0xFF#8 ∧ tx + 1#8 = 0xFF#8) := by
      rintro ⟨rfl, h⟩
      exact absurd h (by decide)
    refine resolveMuxFromPins_of_no_match hs fun r hr hm => ?_
    obtain ⟨-, htx, -⟩ := rowMatches_iff.mp hm
    exact hno r hr htx

/-! ### The gated routing write -/

/-- Gated writes under disjoint masks commute: each bit is of at most one of the masks (R207, R322). -/
theorem maskedRoute_comm {width old mask code mask' code' : Nat} (hd : mask &&& mask' = 0) :
    maskedRoute width (maskedRoute width old mask code) mask' code' =
      maskedRoute width (maskedRoute width old mask' code') mask code := by
  refine Nat.eq_of_testBit_eq fun j => ?_
  have one : (mask.testBit j && mask'.testBit j) = false := by rw [← Nat.testBit_and, hd, Nat.zero_testBit]
  simp only [maskedRoute_testBit]
  by_cases hj : j < width
  · cases hm : mask.testBit j with
    | true =>
      have hm' : mask'.testBit j = false := by rwa [hm, Bool.true_and] at one
      simp [hm']
    | false => simp [hj]
  · simp [hj]

/-- Settles O37: `RouteMasked` bit by bit, and the commutation that follows. -/
theorem routeWriteIsGated : Obligations.RouteWriteIsGated := by
  intro width old mask code
  refine ⟨maskedRoute_lt width old mask code, fun j hj => ?_, fun mask' code' hd => maskedRoute_comm hd⟩
  rw [maskedRoute_testBit]
  cases mask.testBit j <;> simp [hj]

/-! ### The pins of a row -/

section
variable {t : List (Nat × PinCfg)}

/-- A line of R205's table that leaves its pin unchanged when its condition is false. -/
theorem pinConfig_if_wf (h : sparseWf PinCfg.unlisted t = true) (b : Bool) (pin : Nat) (dir : PinDir) (q : Pull) :
    sparseWf PinCfg.unlisted (if b then pinConfig t pin dir q else t) = true := by
  cases b
  · exact h
  · exact pinConfig_wf h pin dir q

theorem sparseRead_pinConfig_if (h : sparseWf PinCfg.unlisted t = true) {pin : Nat} (hp : pin ≤ 254) (b : Bool)
    (dir : PinDir) (q : Pull) (i : Nat) :
    sparseRead PinCfg.unlisted (if b then pinConfig t pin dir q else t) i =
      if b = true ∧ i = pin then ⟨dir, q⟩ else sparseRead PinCfg.unlisted t i := by
  cases b
  · simp
  · simp [sparseRead_pinConfig h, hp]

/-- A row with no pins touches no pin (R206, D9). -/
theorem configureRowPins_of_no_pin {c : Params} {r : Row} {m : Byte} (hn : r.txPin = 0xFF#8) :
    configureRowPins c r m t = t :=
  if_pos hn

/-- The transmit pin under an enable mask, the two lines of R205's table that always write it. -/
def txPinCfg (m : Byte) : PinCfg :=
  if maskTxen m && !maskOpenDrain m then ⟨.output, .off⟩ else ⟨.input, .on⟩

/-- The pins of a row that has some, its derived pins written out (R204, R206). -/
theorem configureRowPins_of_pin {c : Params} {r : Row} {m : Byte} (hn : r.txPin ≠ 0xFF#8) :
    configureRowPins c r m t =
      let t1 := pinConfig t r.txPin.toNat (txPinCfg m).dir (txPinCfg m).pull
      let t2 := if maskRxen m && !maskLoopback m then pinConfig t1 (r.txPin.toNat + 1) .input .on else t1
      if maskRs485 m then pinConfig t2 (r.txPin.toNat + c.xdirOffset) .output .off else t2 := by
  have hrx : rowRxPin r = r.txPin.toNat + 1 := if_neg hn
  have hdir : rowDirPin c r = r.txPin.toNat + c.xdirOffset := if_neg hn
  rw [configureRowPins, NOT_A_PIN, if_neg hn, hrx, hdir, txPinCfg]
  cases maskTxen m && !maskOpenDrain m <;> rfl

/-- The pins of a row after R206's three writes, the last one first. -/
theorem sparseRead_configureRowPins {c : Params} {r : Row} {m : Byte} (h : sparseWf PinCfg.unlisted t = true)
    (hn : r.txPin ≠ 0xFF#8) (hdir : r.txPin.toNat + c.xdirOffset ≤ 254) (hrx : r.txPin.toNat + 1 ≤ 254) (i : Nat) :
    sparseRead PinCfg.unlisted (configureRowPins c r m t) i =
      if maskRs485 m = true ∧ i = r.txPin.toNat + c.xdirOffset then ⟨.output, .off⟩
      else if (maskRxen m && !maskLoopback m) = true ∧ i = r.txPin.toNat + 1 then ⟨.input, .on⟩
      else if i = r.txPin.toNat then txPinCfg m
      else sparseRead PinCfg.unlisted t i := by
  have htx : r.txPin.toNat ≤ 254 := Nat.le_of_succ_le hrx
  have wf_tx := pinConfig_wf h r.txPin.toNat (txPinCfg m).dir (txPinCfg m).pull
  have wf_rx := pinConfig_if_wf wf_tx (maskRxen m && !maskLoopback m) (r.txPin.toNat + 1) .input .on
  rw [configureRowPins_of_pin hn, sparseRead_pinConfig_if wf_rx hdir, sparseRead_pinConfig_if wf_tx hrx,
    sparseRead_pinConfig h]
  simp only [htx, and_true]

end

/-- Settles O38: the write of ROUTE is `RouteMasked`, the pins are those of R206's writes. -/
theorem pinConfigurationTable : Obligations.PinConfigurationTable := by
  intro s c r m id hwf hpins
  refine ⟨rfl, ?_⟩
  rw [State.pin, State.applyPinConfiguration_pins]
  by_cases hn : r.txPin = 0xFF#8
  · rw [configureRowPins_of_no_pin hn, if_pos hn, State.pin]
  · obtain ⟨hdir, hrx⟩ := hpins hn
    rw [sparseRead_configureRowPins hwf hn hdir hrx, if_neg hn]
    simp only [txPinCfg, maskTxen, maskOpenDrain, maskRxen, maskLoopback, maskRs485, Bool.and_eq_true, Bool.not_eq_true',
      and_assoc, State.pin]

/-! ### The binding commands -/

section
variable {s : State} {p : Byte} {c : PortParams} {u : Port}

/-- PINS of a pair that resolves to nothing (R208, R210). -/
theorem exec_pins_of_not_found {tx rx : Byte} (hl : s.lookup p.toNat = some (c, u))
    (hr : resolveMuxFromPins c tx rx = NOT_A_MUX) : exec (.pins p tx rx) s = .next (s.respond .fail 0#16) := by
  rw [exec, execPins, withPort_of_lookup hl, if_pos hr]

/-- PINS of a pair that resolves (R210). -/
theorem exec_pins_of_found {tx rx : Byte} (hl : s.lookup p.toNat = some (c, u))
    (hr : resolveMuxFromPins c tx rx ≠ NOT_A_MUX) :
    exec (.pins p tx rx) s =
      .next ((s.setPort p.toNat { u with pgi := resolveMuxFromPins c tx rx }).respond .ok
        ((resolveMuxFromPins c tx rx).setWidth 16)) := by
  rw [exec, execPins, withPort_of_lookup hl, if_neg hr]

/-- SWAP to a row or to no pins (R211). -/
theorem exec_swap_of_valid {idx : Byte} (hl : s.lookup p.toNat = some (c, u))
    (hi : idx.toNat < c.rows.length ∨ idx = MUX_IDX_NONE) :
    exec (.swap p idx) s = .next ((s.setPort p.toNat { u with pgi := idx }).respond .ok (idx.setWidth 16)) := by
  rw [exec, execSwap, withPort_of_lookup hl, if_pos hi]

/-- SWAP to an index that names nothing (R211). -/
theorem exec_swap_of_invalid {idx : Byte} (hl : s.lookup p.toNat = some (c, u))
    (hi : ¬ (idx.toNat < c.rows.length ∨ idx = MUX_IDX_NONE)) :
    exec (.swap p idx) s = .next (s.respond .fail 0#16) := by
  rw [exec, execSwap, withPort_of_lookup hl, if_neg hi]

end

/-- Settles O19: both outcomes of each command. -/
theorem bindingCommandsWritePinGroup : Obligations.BindingCommandsWritePinGroup := by
  intro s p c u hl
  refine ⟨fun tx rx => ⟨encodes_of_encode rfl, exec_pins_of_not_found hl, exec_pins_of_found hl⟩,
    fun idx => ⟨encodes_of_encode rfl, exec_swap_of_valid hl, fun hlen hn => exec_swap_of_invalid hl ?_⟩⟩
  exact not_or.mpr ⟨Nat.not_lt.mpr hlen, hn⟩

end Sys2Proof.Machine
end

section
/-! SUPPORT. The outputs of the Configuration Decoder and the enable mask bit by bit (43_configuration_decoder.md R221 to R229),
the default divisor as a nearest quotient (R230 to R232), and O39, O40, O41, O42 from them. -/

namespace Sys2Proof.Machine

open Sys2Proof

/-! ### The Configuration Decoder, bit by bit -/

/-- The mask of CTRLC clears bit 2 alone (R115). -/
theorem frameFormatMask_bit_iff (i : Nat) : (0xFB#8 : Byte).getLsbD i = true ↔ i < 8 ∧ i ≠ 2 := by
  by_cases h : i < 8
  · have all : ∀ j : Fin 8, (0xFB#8 : Byte).getLsbD j = true ↔ j.val ≠ 2 := by decide
    simpa [h] using all ⟨i, h⟩
  · simp [h, BitVec.getLsbD_of_ge (0xFB#8 : Byte) i (Nat.le_of_not_lt h)]

/-- The frame format is the low byte without bit 2 (R222). -/
theorem frameFormatOf_bit_iff (cfg : Half) (i : Nat) :
    (frameFormatOf cfg).getLsbD i = true ↔ i < 8 ∧ i ≠ 2 ∧ cfg.getLsbD i = true := by
  simp only [frameFormatOf, BitVec.getLsbD_and, BitVec.getLsbD_extractLsb', Nat.zero_add, Bool.and_eq_true,
    decide_eq_true_eq, frameFormatMask_bit_iff]
  tauto

/-- RS485SEL in the low bits of a byte (R112, R224). -/
theorem rs485Field_bit_iff (cfg : Half) (i : Nat) :
    ((cfgRs485 cfg).setWidth 8).getLsbD i = true ↔
      (i = 1 ∧ cfg.getLsbD 15 = true) ∨ (i = 0 ∧ cfg.getLsbD 14 = true) := by
  rw [cfgRs485, BitVec.getLsbD_setWidth, BitVec.getLsbD_extractLsb']
  rcases (by omega : i = 0 ∨ i = 1 ∨ 2 ≤ i) with rfl | rfl | h
  · simp
  · simp
  · simp [show ¬ i < 2 by omega, show i ≠ 0 by omega, show i ≠ 1 by omega]

/-- CTRLA gets RXCIE, LBME and RS485 and nothing else (R224). -/
theorem ctrlAOf_bit_iff (cfg : Half) (i : Nat) :
    (ctrlAOf cfg).getLsbD i = true ↔
      (i = 7 ∧ cfg.getLsbD 11 = false) ∨ (i = 3 ∧ cfg.getLsbD 8 = true) ∨
      (i = 1 ∧ cfg.getLsbD 15 = true) ∨ (i = 0 ∧ cfg.getLsbD 14 = true) := by
  simp only [ctrlAOf, BitVec.getLsbD_or, Bool.or_eq_true, rs485Field_bit_iff, or_assoc]
  simp [wantsRxOf, cfgRxOff, cfgLoopback, and_comm]

/-- CTRLB gets RXEN, TXEN and ODME and nothing else (R225). -/
theorem ctrlBOf_bit_iff (cfg : Half) (i : Nat) :
    (ctrlBOf cfg).getLsbD i = true ↔
      (i = 7 ∧ cfg.getLsbD 11 = false) ∨ (i = 6 ∧ cfg.getLsbD 10 = false) ∨ (i = 3 ∧ cfg.getLsbD 9 = true) := by
  simp [ctrlBOf, cfgRxOff, cfgTxOff, cfgOpenDrain, or_assoc, and_comm]

/-- Settles O39: the three registers bit by bit; the two flags are the fields themselves. -/
theorem configDecoderBits : Obligations.ConfigDecoderBits := fun cfg i =>
  ⟨frameFormatOf_bit_iff cfg i, ctrlAOf_bit_iff cfg i, ctrlBOf_bit_iff cfg i, rfl, rfl⟩

/-! ### The enable mask -/

/-- RS485SEL is not 0 when one of its two bits is set (R117). -/
theorem cfgRs485_ne_zero (cfg : Half) : (cfgRs485 cfg != 0#2) = (cfg.getLsbD 15 || cfg.getLsbD 14) := by
  have all : ∀ m : BitVec 2, (m != 0#2) = (m.getLsbD 1 || m.getLsbD 0) := by decide
  rw [all, cfgRs485]
  simp

/-- The five bits of the enable mask, and nothing above them (R120). -/
theorem enableMask_bit_iff (cfg : Half) (i : Nat) :
    (enableMask cfg).getLsbD i = true ↔
      (i = 0 ∧ cfg.getLsbD 10 = false) ∨ (i = 1 ∧ cfg.getLsbD 11 = false) ∨ (i = 2 ∧ cfg.getLsbD 8 = true) ∨
      (i = 3 ∧ cfg.getLsbD 9 = true) ∨ (i = 4 ∧ (cfg.getLsbD 15 || cfg.getLsbD 14) = true) := by
  simp [enableMask, cfgRs485_ne_zero, cfgTxOff, cfgRxOff, cfgLoopback, cfgOpenDrain, or_assoc, and_comm]

/-- Settles O40: both sides of each equation are the same bit of the Configuration Word. -/
theorem enableMaskAgreesWithDecode : Obligations.EnableMaskAgreesWithDecode := by
  intro cfg
  refine ⟨?txen, ?rxen, ?loopback, ?openDrain, ?rs485, fun i hi => ?upper⟩
  case upper =>
    rw [Bool.eq_false_iff, ne_eq, enableMask_bit_iff]
    omega
  all_goals rw [Bool.eq_iff_iff, enableMask_bit_iff]
  case txen | rxen | openDrain =>
    rw [decodeConfig, ctrlBOf_bit_iff]
    simp
  case loopback =>
    rw [decodeConfig, ctrlAOf_bit_iff]
    simp
  case rs485 => simp

/-! ### The default divisor -/

/-- `n / b` rounded to nearest, as R232 writes it. -/
def nearestQuotient (n b : Nat) : Nat := (n + b / 2) / b

/-- Rounding to nearest, without a division. -/
theorem nearestQuotient_bounds (n : Nat) {b : Nat} (hb : 0 < b) :
    nearestQuotient n b * b ≤ n + b / 2 ∧ n + b / 2 < (nearestQuotient n b + 1) * b :=
  ⟨Nat.div_mul_le_self _ _, (Nat.div_lt_iff_lt_mul hb).mp (Nat.lt_succ_self _)⟩

theorem nearestQuotient_lt_iff {n b k : Nat} (hb : 0 < b) : nearestQuotient n b < k ↔ n + b / 2 < k * b :=
  Nat.div_lt_iff_lt_mul hb

/-- Where the normal-speed value is below 64, the double-speed value fits its register. -/
theorem nearestQuotient_double_lt {f baud : Nat} (hb : 0 < baud) (h : nearestQuotient (4 * f) baud < 64) :
    nearestQuotient (8 * f) baud < 128 := by
  rw [nearestQuotient_lt_iff hb] at h ⊢
  omega

/-- R232 case by case. -/
theorem standardDivisor_eq (f baud : Nat) :
    standardDivisor f baud =
      if baud = 0 ∨ 65535 < nearestQuotient (4 * f) baud then none
      else if 64 ≤ nearestQuotient (4 * f) baud then some ⟨BitVec.ofNat 16 (nearestQuotient (4 * f) baud), false⟩
      else if 64 ≤ nearestQuotient (8 * f) baud then some ⟨BitVec.ofNat 16 (nearestQuotient (8 * f) baud), true⟩
      else none := by
  by_cases hb : baud = 0
  · rw [standardDivisor, if_pos hb, if_pos (.inl hb)]
  · simp only [standardDivisor, hb, if_false, false_or]
    rfl

/-- The two valid answers of R232: neither value wraps in its 16-bit register. -/
theorem standardDivisor_cases {f baud : Nat} {d : BaudSetting} (h : standardDivisor f baud = some d) :
    0 < baud ∧
      ((d.clk2x = false ∧ 64 ≤ nearestQuotient (4 * f) baud ∧ d.reg.toNat = nearestQuotient (4 * f) baud) ∨
       (d.clk2x = true ∧ nearestQuotient (4 * f) baud < 64 ∧ 64 ≤ nearestQuotient (8 * f) baud ∧
         d.reg.toNat = nearestQuotient (8 * f) baud)) := by
  rw [standardDivisor_eq] at h
  split at h
  · cases h
  next hvalid =>
  obtain ⟨hb, hfits⟩ := not_or.mp hvalid
  refine ⟨Nat.pos_of_ne_zero hb, ?_⟩
  split at h
  next hnormal =>
    cases h
    exact .inl ⟨rfl, hnormal, Nat.mod_eq_of_lt (by omega)⟩
  next hnormal =>
    split at h
    next hdouble =>
      cases h
      have hlt := nearestQuotient_double_lt (Nat.pos_of_ne_zero hb) (Nat.lt_of_not_le hnormal)
      exact .inr ⟨rfl, Nat.lt_of_not_le hnormal, hdouble, Nat.mod_eq_of_lt (by omega)⟩
    · cases h

/-- Which rates R232 makes invalid. -/
theorem standardDivisor_eq_none_iff (f baud : Nat) :
    standardDivisor f baud = none ↔
      baud = 0 ∨ 65535 < nearestQuotient (4 * f) baud ∨
      (nearestQuotient (4 * f) baud < 64 ∧ nearestQuotient (8 * f) baud < 64) := by
  rw [standardDivisor_eq]
  split
  next hinvalid => exact ⟨fun _ => hinvalid.imp_right .inl, fun _ => rfl⟩
  next hvalid =>
    split_ifs with hnormal hdouble
    · simp only [false_iff]
      omega
    · simp only [false_iff]
      omega
    · simp only [true_iff]
      omega

/-- Settles O42: the register holds the nearest quotient of the speed in use. -/
theorem defaultDivisorRoundsToNearest : Obligations.DefaultDivisorRoundsToNearest := by
  refine fun f baud => ⟨fun d h => ?_, standardDivisor_eq_none_iff f baud⟩
  obtain ⟨hb, ⟨hspeed, hge, hreg⟩ | ⟨hspeed, hnormal, hge, hreg⟩⟩ := standardDivisor_cases h
  · obtain ⟨hle, hlt⟩ := nearestQuotient_bounds (4 * f) hb
    simpa [hspeed, hreg] using ⟨hge, hle, hlt⟩
  · obtain ⟨hle, hlt⟩ := nearestQuotient_bounds (8 * f) hb
    simpa [hspeed, hreg] using ⟨hge, hle, hlt, (nearestQuotient_lt_iff hb).mp hnormal⟩

/-! ### The bound of double speed -/

/-- The bound `B1(f)` of R231 (b) for each choice of `BaudDivisor`. -/
def doubleSpeedBound : Divisor → Nat → Nat
  | .standard, f => 8 * f / 127
  | .free, f => Config.divisorBound f

/-- The normal-speed value of R232 falls below 64 exactly above `8 f / 127`: `4 f + baud / 2 < 64 baud` doubled. -/
theorem nearestQuotient_lt_64_iff {f baud : Nat} (hb : 0 < baud) :
    nearestQuotient (4 * f) baud < 64 ↔ doubleSpeedBound .standard f < baud := by
  rw [nearestQuotient_lt_iff hb, doubleSpeedBound]
  omega

theorem standardDivisor_clk2x_iff {f baud : Nat} {d : BaudSetting} (h : standardDivisor f baud = some d) :
    d.clk2x = true ↔ doubleSpeedBound .standard f < baud := by
  obtain ⟨hb, hcases⟩ := standardDivisor_cases h
  rw [← nearestQuotient_lt_64_iff hb]
  obtain ⟨hspeed, hge, -⟩ | ⟨hspeed, hnormal, -, -⟩ := hcases
  · simp [hspeed, hge]
  · simp [hspeed, hnormal]

theorem freeDivisor_clk2x_iff {f baud : Nat} {d : BaudSetting} (h : freeDivisor f baud = some d) :
    d.clk2x = true ↔ doubleSpeedBound .free f < baud := by
  obtain ⟨-, rfl⟩ : _ ∧ _ = d := by simpa [freeDivisor] using h
  exact decide_eq_true_iff

/-- Settles O41: the bound is `8 f / 127` for the default and the free value `Config.divisorBound` otherwise. -/
theorem doubleSpeedAboveBound : Obligations.DoubleSpeedAboveBound := by
  refine fun k => ⟨doubleSpeedBound k, fun c baud d hk h => ?_⟩
  rw [baudDivisor, hk] at h
  cases k with
  | standard => exact standardDivisor_clk2x_iff h
  | free => exact freeDivisor_clk2x_iff h

end Sys2Proof.Machine
end

section
/-! SUPPORT. The system commands on both values of their bit (44_system_ops.md R240 to R243), and O18 from them. -/

namespace Sys2Proof.Machine

open Sys2Proof

/-- A bit zero-extended to the value field of a response (R106, R240). -/
theorem setWidth_ofBool_half (b : Bool) : ((BitVec.ofBool b).setWidth 16 : Half) = if b then 1#16 else 0#16 := by
  cases b <;> rfl

/-- The word of IRQREST carries its operand in bit 32, the lowest of the 16-bit field (R241). -/
theorem encode_irqrest (on : Bool) :
    encode (.irqrest on) = .command (if on then 0x1100000100000000#64 else 0x1100000000000000#64) := by
  cases on <;> rfl

/-- IRQSAVE clears GIE and answers what it was (R240). -/
theorem exec_irqsave (s : State) :
    exec .irqsave s = .next ({ s with gie := false }.respond .ok (if s.gie then 1#16 else 0#16)) := by
  rw [exec, execIrqsave, setWidth_ofBool_half]

/-- IRQREST writes its operand to GIE (R241). -/
theorem exec_irqrest (on : Bool) (s : State) : exec (.irqrest on) s = .next ({ s with gie := on }.respond .ok 0#16) :=
  rfl

section
variable {s : State}

/-- ISRENTER outside an interrupt context (R242). -/
theorem exec_isrenter_of_outside (h : s.iexec = false) :
    exec .isrenter s = .next ({ s with iexec := true }.respond .ok 0#16) := by
  rw [exec, execIsrenter, if_neg (Bool.eq_false_iff.mp h)]

/-- ISRENTER inside an interrupt context: contexts do not nest (R242). -/
theorem exec_isrenter_of_inside (h : s.iexec = true) : exec .isrenter s = .next (s.respond .fail 0#16) := by
  rw [exec, execIsrenter, if_pos h]

/-- ISREXIT inside an interrupt context (R243). -/
theorem exec_isrexit_of_inside (h : s.iexec = true) :
    exec .isrexit s = .next ({ s with iexec := false }.respond .ok 0#16) := by
  rw [exec, execIsrexit, if_pos h]

/-- ISREXIT outside an interrupt context has nothing to leave (R243). -/
theorem exec_isrexit_of_outside (h : s.iexec = false) : exec .isrexit s = .next (s.respond .fail 0#16) := by
  rw [exec, execIsrexit, if_neg (Bool.eq_false_iff.mp h)]

end

/-- Settles O18: GIE for IRQSAVE and IRQREST, and ISRENTER and ISREXIT on both values of IEXEC. -/
theorem systemCommandsChangeTheirBit : Obligations.SystemCommandsChangeTheirBit := by
  intro s
  have outside (h : s.iexec = false) := And.intro (exec_isrenter_of_outside h) (exec_isrexit_of_outside h)
  have inside (h : s.iexec = true) := And.intro (exec_isrenter_of_inside h) (exec_isrexit_of_inside h)
  exact ⟨⟨encodes_of_encode rfl, exec_irqsave s⟩, fun on => ⟨encodes_of_encode (encode_irqrest on), exec_irqrest on s⟩,
    encodes_of_encode rfl, encodes_of_encode rfl, outside, inside⟩

end Sys2Proof.Machine
end

section
/-! SUPPORT. That every step has a next state, but for a misused WRITE in the refusing machine (60_exceptions.md R250,
20_memory.md R74), and O50 from it. -/

namespace Sys2Proof.Machine

open Sys2Proof

/-- The result is a next state: neither a fault nor a refusal. -/
def Advances (r : Result) : Prop := ∃ t, r = .next t

theorem advances_next (t : State) : Advances (.next t) := ⟨t, rfl⟩

/-- The result is a next state, or a refusal for which `P` holds. -/
def AdvancesUnless (P : Prop) (r : Result) : Prop := Advances r ∨ (P ∧ ∃ x, r = .refused x)

theorem AdvancesUnless.imp {P Q : Prop} {r : Result} (h : AdvancesUnless P r) (hpq : P → Q) : AdvancesUnless Q r :=
  Or.imp_right (And.imp_left hpq) h

/-- Every port is bound to a row of its table or to none (R21). -/
def State.PortsBound (s : State) : Prop :=
  ∀ p c u, s.lookup p = some (c, u) → u.pgi.toNat < c.rows.length ∨ u.pgi = MUX_IDX_NONE

theorem State.PortsBound.congr {s s' : State} (h : s.PortsBound) (hp : s'.params = s.params) (hq : s'.ports = s.ports) :
    s'.PortsBound :=
  fun p c u hl => h p c u (State.lookup_congr hp hq p ▸ hl)

theorem State.Inv.portsBound {s : State} (h : s.Inv) : s.PortsBound := fun p c u hl => (h.ports p c u hl).pgi

/-! ### The stages of the Transfer State Machine -/

section
variable {s : State} {p : Nat} {c : PortParams} {u : Port}

/-- The binding of `Configure` finds its row, so that `TableRow` is never called outside the table (R74). -/
theorem State.exists_bindPins {pgi : Byte} (h : pgi.toNat < c.rows.length ∨ pgi = MUX_IDX_NONE) (cfg : Half) :
    ∃ s1, s.bindPins c pgi cfg = some s1 := by
  by_cases hn : pgi = MUX_IDX_NONE
  · exact ⟨_, hn ▸ State.bindPins_none⟩
  · exact ⟨_, State.bindPins_row hn (List.getElem?_eq_getElem (h.resolve_right hn))⟩

theorem configure_advances (h : u.pgi.toNat < c.rows.length ∨ u.pgi = MUX_IDX_NONE) (baud : Long) (cfg : Half) :
    Advances (configure s p baud cfg c u) := by
  cases hd : baudDivisor s.params baud.toNat with
  | none => exact ⟨_, configure_of_invalid hd⟩
  | some d =>
    obtain ⟨s1, hb⟩ := s.exists_bindPins h cfg
    exact ⟨_, configure_of_valid hd hb⟩

theorem continueWith_advances (h : u.pgi.toNat < c.rows.length ∨ u.pgi = MUX_IDX_NONE) (k : Cont) :
    Advances (continueWith s p k c u) := by
  cases k with
  | done | thenEnd => exact advances_next _
  | thenEndBegin baud cfg => exact configure_advances (by rwa [Port.shutdown_pgi]) baud cfg

theorem flushThen_advances (h : u.pgi.toNat < c.rows.length ∨ u.pgi = MUX_IDX_NONE) (k : Cont) :
    Advances (flushThen s p k c u) := by
  by_cases hf : u.flushed
  · rw [flushThen_of_flushed hf]
    exact continueWith_advances h k
  · exact ⟨_, flushThen_of_not_flushed hf⟩

theorem writeTry_advances (s : State) (p : Nat) (b : Byte) (u : Port) : Advances (writeTry s p b u) := by
  unfold writeTry
  split <;> exact advances_next _

theorem writeBody_advances (s : State) (p : Nat) (b : Byte) (u : Port) : Advances (writeBody s p b u) := by
  unfold writeBody
  split
  · exact advances_next _
  · exact writeTry_advances _ _ _ _

/-- A blocked command names an existing port, so that its spin has a next state (R45, R180). -/
theorem spin_advances (hq : s.SeqInv) (hb : s.PortsBound) : Advances (spin s) := by
  cases hs : s.seq with
  | ready => exact ⟨s, by rw [spin, hs]⟩
  | writeWait p b =>
    rw [State.SeqInv, hs] at hq
    obtain ⟨c, u, hl, -, -⟩ := hq
    rw [spin_of_writeWait hs hl]
    exact writeTry_advances s p b u
  | flushWait p k =>
    rw [State.SeqInv, hs] at hq
    obtain ⟨c, u, hl, -, -⟩ := hq
    by_cases hd : u.uart.flushDone = true
    · rw [spin_flush_of_done hs hl hd]
      exact continueWith_advances (hb p c u hl) k
    · exact ⟨_, spin_flush_of_not_done hs hl hd⟩

end

/-! ### Commands and handlers -/

section
variable {s : State}

theorem withPort_advances {p : Nat} {f : PortParams → Port → Result}
    (h : ∀ c u, s.lookup p = some (c, u) → Advances (f c u)) : Advances (withPort s p f) := by
  cases hl : s.lookup p with
  | none => exact ⟨_, withPort_of_none hl⟩
  | some x => exact withPort_of_lookup (t := x.1) (u := x.2) hl ▸ h x.1 x.2 hl

theorem runHandler_advances (s : State) (p : Nat) (k : Source) (body : Port → Port) :
    Advances (runHandler s p k body) := by
  unfold runHandler
  split
  · split <;> exact advances_next _
  · exact advances_next _

/-- The instruction is a WRITE that the refusing machine gives no meaning: on a port that is not begun, or whose
transmitter is off (R166, U1, U2). -/
def State.MisusedWrite (s : State) (i : Instr) : Prop :=
  s.params.misuse = .refuse ∧ ∃ p v c u, i = .write p v ∧ s.lookup p.toNat = some (c, u) ∧
    (u.begun = false ∨ u.uart.ctrlb.getLsbD 6 = false)

theorem State.MisusedWrite.congr {s' : State} {i : Instr} (h : s'.MisusedWrite i) (hp : s'.params = s.params)
    (hq : s'.ports = s.ports) : s.MisusedWrite i := by
  obtain ⟨hm, p, v, c, u, hi, hl, hu⟩ := h
  exact ⟨hp ▸ hm, p, v, c, u, hi, State.lookup_congr hp hq _ ▸ hl, hu⟩

/-- WRITE (R166): a next state in the total machine and on every port it is defined for. -/
theorem exec_write_advances (s : State) (p : Byte) (v : Long) :
    AdvancesUnless (s.MisusedWrite (.write p v)) (exec (.write p v) s) := by
  cases hl : s.lookup p.toNat with
  | none => exact Or.inl ⟨_, withPort_of_none hl⟩
  | some x =>
    obtain ⟨c, u⟩ := x
    cases hm : s.params.misuse with
    | total =>
      left
      cases hb : u.begun with
      | true => rw [exec_write_of_begun_total hl hb hm]; exact writeBody_advances _ _ _ _
      | false => exact ⟨_, exec_write_of_not_begun_total hl hb hm⟩
    | refuse =>
      cases hb : u.begun with
      | false =>
        exact Or.inr ⟨⟨hm, p, v, c, u, rfl, hl, Or.inl hb⟩, _, exec_write_of_not_begun_refuse hl hb hm⟩
      | true =>
        cases ht : u.uart.ctrlb.getLsbD 6 with
        | false =>
          exact Or.inr ⟨⟨hm, p, v, c, u, rfl, hl, Or.inr ht⟩, _, exec_write_of_txOff_refuse hl hb ht hm⟩
        | true => left; rw [exec_write hl hb ht]; exact writeBody_advances _ _ _ _

/-- Every instruction has a next state, but for a misused WRITE (R104, R250). -/
theorem exec_advances (hb : s.PortsBound) (i : Instr) : AdvancesUnless (s.MisusedWrite i) (exec i s) := by
  cases i with
  | write p v => exact exec_write_advances s p v
  | beginPort p baud cfg =>
    refine Or.inl (withPort_advances fun c u hl => ?_)
    split
    · exact flushThen_advances (hb _ c u hl) _
    · exact configure_advances (hb _ c u hl) baud cfg
  | endPort p => exact Or.inl (withPort_advances fun c u hl => flushThen_advances (hb _ c u hl) _)
  | flush p => exact Or.inl (withPort_advances fun c u hl => flushThen_advances (hb _ c u hl) _)
  | avail p | availw p | usable p => exact Or.inl (withPort_advances fun _ _ _ => advances_next _)
  | peek p | read p | pins p tx rx | swap p idx =>
    refine Or.inl (withPort_advances fun _ _ _ => ?_)
    split <;> exact advances_next _
  | irqsave | irqrest on => exact Or.inl (advances_next _)
  | isrenter =>
    cases hx : s.iexec with
    | false => exact Or.inl ⟨_, exec_isrenter_of_outside hx⟩
    | true => exact Or.inl ⟨_, exec_isrenter_of_inside hx⟩
  | isrexit =>
    cases hx : s.iexec with
    | false => exact Or.inl ⟨_, exec_isrexit_of_outside hx⟩
    | true => exact Or.inl ⟨_, exec_isrexit_of_inside hx⟩
  | rxc p | dre p | txc p => exact Or.inl (runHandler_advances _ _ _ _)

/-! ### The turns of the agents -/

/-- The Irq agent's turn (R261): a handler, or a reserved vector id. -/
theorem irqTurn_advances (v : VectorId) (s : State) : Advances (irqTurn v s) := by
  unfold irqTurn
  rcases decodeVector_cases v with ⟨p, hv⟩ | ⟨p, hv⟩ | ⟨p, hv⟩ | ⟨e, hv⟩ <;> rw [hv]
  · exact runHandler_advances _ _ _ _
  · exact runHandler_advances _ _ _ _
  · exact runHandler_advances _ _ _ _
  · exact advances_next s

/-- The Host's turn (R180) has a next state, but for a misused WRITE that it issues. -/
theorem hostTurn_advances (hq : s.SeqInv) (hb : s.PortsBound) :
    AdvancesUnless
      (∃ i, s.seq = .ready ∧ (∃ w rest, s.program = w :: rest ∧ decodeCommand w = .ok i) ∧ s.MisusedWrite i)
      (hostTurn s) := by
  unfold hostTurn
  split
  · next hs =>
    split
    · exact Or.inl (advances_next s)
    · next w rest hp =>
      unfold issue
      split
      · next i hd =>
        have hx := exec_advances (s := { s with program := rest }) (hb.congr rfl rfl) i
        exact hx.imp fun hm => ⟨i, hs, ⟨w, rest, hp, hd⟩, hm.congr rfl rfl⟩
      · exact Or.inl (advances_next _)
  · exact Or.inl (spin_advances hq hb)

/-- A step from a state of the invariant has a next state, but for a misused WRITE that it issues. -/
theorem step_advances (hi : s.Inv) : AdvancesUnless (∃ i, s.issues i ∧ s.MisusedWrite i) (step s) := by
  unfold step
  cases he : s.nextEvent with
  | host =>
    have hq : s.afterDraw.SeqInv := hi.seq.of_kept (by simp) fun p c u hl => ⟨u, by simpa using hl, rfl, rfl⟩
    have hb : s.afterDraw.PortsBound := hi.portsBound.congr (by simp) (by simp)
    refine (hostTurn_advances hq hb).imp ?_
    rintro ⟨i, hs, ⟨w, rest, hp, hd⟩, hm⟩
    exact ⟨i, ⟨he, by simpa using hs, w, rest, by simpa using hp, hd⟩, hm.congr (by simp) (by simp)⟩
  | irq v => exact Or.inl (irqTurn_advances v _)
  | lineLoad | lineShiftDone | lineRx | envDataEmpty | envTransmitComplete | envReceive =>
    exact Or.inl (advances_next _)

end

/-- Settles O50: a next state is no fault and no refusal, and a refusal is that of a misused WRITE. -/
theorem stepNeverFaults : Obligations.StepNeverFaults := by
  intro s hi
  rcases step_advances hi with ⟨t, ht⟩ | ⟨⟨i, his, hm, p, v, c, u, rfl, hl, hu⟩, x, hx⟩
  · rw [ht]
    exact ⟨nofun, fun _ => ⟨t, rfl⟩, nofun⟩
  · rw [hx]
    exact ⟨nofun, fun ht => (nomatch hm.symm.trans ht), fun _ _ => ⟨hm, p, v, c, u, his, hl, hu⟩⟩

end Sys2Proof.Machine
end

section
/-! SUPPORT. When each handler is dispatchable and what its activation leaves (60_exceptions.md R261 to R269), and O31, O32,
O33, O34 from them. -/

namespace Sys2Proof.Machine

open Sys2Proof

/-! ### The dispatch condition of each source -/

section
variable {s : State} {u : Periph}

/-- RXC is pending: its enable is set and a received entry waits (R42). -/
theorem Periph.pending_rxc_iff : u.pending .rxc = true ↔ u.ctrla.getLsbD 7 = true ∧ u.rxFifo ≠ [] := by
  rw [Periph.pending, Periph.rxcie_eq, Periph.rxcif, Bool.and_eq_true, Bool.not_eq_true', List.isEmpty_eq_false_iff]

/-- DRE is pending: its enable is set and TXHOLD is empty (R42). -/
theorem Periph.pending_dre_iff : u.pending .dre = true ↔ u.ctrla.getLsbD 5 = true ∧ u.txHold = none := by
  rw [Periph.pending, Periph.dreie_eq, Periph.dreif, Bool.and_eq_true, Option.isNone_iff_eq_none]

/-- TXC is pending: its enable and its flag are set (R42). -/
theorem Periph.pending_txc_iff : u.pending .txc = true ↔ u.ctrla.getLsbD 6 = true ∧ u.txcif = true := by
  rw [Periph.pending, Periph.txcie_eq, Bool.and_eq_true]

/-- RXC is the highest source, so that its own flag and enable decide (R261, R263). -/
theorem State.dispatchable_rxc_iff :
    s.dispatchable u .rxc = true ↔
      s.gie = true ∧ s.iexec = false ∧ (u.ctrla.getLsbD 7 = true ∧ u.rxFifo ≠ []) := by
  simp only [State.dispatchable_iff, Periph.pending_rxc_iff, Periph.noneAbove, and_true]

/-- DRE waits for RXC (R263). -/
theorem State.dispatchable_dre_iff :
    s.dispatchable u .dre = true ↔
      s.gie = true ∧ s.iexec = false ∧ (u.ctrla.getLsbD 5 = true ∧ u.txHold = none) ∧
        ¬ (u.ctrla.getLsbD 7 = true ∧ u.rxFifo ≠ []) := by
  simp only [State.dispatchable_iff, Periph.pending_dre_iff, Periph.noneAbove, ← Periph.pending_rxc_iff,
    Bool.not_eq_true', Bool.not_eq_true]

/-- TXC waits for RXC and DRE (R263). -/
theorem State.dispatchable_txc_iff :
    s.dispatchable u .txc = true ↔
      s.gie = true ∧ s.iexec = false ∧ (u.ctrla.getLsbD 6 = true ∧ u.txcif = true) ∧
        ¬ (u.ctrla.getLsbD 7 = true ∧ u.rxFifo ≠ []) ∧ ¬ (u.ctrla.getLsbD 5 = true ∧ u.txHold = none) := by
  simp only [State.dispatchable_iff, Periph.pending_txc_iff, Periph.noneAbove, ← Periph.pending_rxc_iff,
    ← Periph.pending_dre_iff, Bool.and_eq_true, Bool.not_eq_true', Bool.not_eq_true]

end

/-! ### One activation -/

section
variable {s : State} {c : PortParams} {u : Port}

/-- An activation leaves GIE and IEXEC as they were: the handler enters, runs its body and returns (R268, R269). -/
theorem runHandler_of_dispatchable {p : Nat} {k : Source} {body : Port → Port} (hl : s.lookup p = some (c, u))
    (hd : s.dispatchable u.uart k = true) : runHandler s p k body = .next (s.setPort p (body u)) := by
  obtain ⟨-, hx, -, -⟩ := State.dispatchable_iff.mp hd
  simp only [runHandler, hl, hd, if_true, State.setPort, State.takeInterrupt, State.returnFromInterrupt, ← hx]

/-- Without dispatch there is no activation (R261; log 3). -/
theorem runHandler_of_not_dispatchable {p : Nat} {k : Source} {body : Port → Port} (hl : s.lookup p = some (c, u))
    (hd : ¬ s.dispatchable u.uart k = true) : runHandler s p k body = .next s := by
  simp only [runHandler, hl, if_neg hd]

end

/-- CTRLA after the TXC handler where its reserved bits are 0 (R31, R266). -/
theorem txcValue_eq {a : Byte} (h : a &&& 0x14#8 = 0#8) : txcValue a = (a ||| 0x80#8) &&& 0xBF#8 := by
  have reserved : (a ||| 0x80#8) &&& 0x14#8 = 0#8 := by
    rw [BitVec.and_or_distrib_right, h]
    rfl
  exact and_and_mask_of_reserved reserved _

/-- Settles O31: the cases of the RXC handler's body, with the cursor a remainder. -/
theorem rxcHandlerStoresByte : Obligations.RxcHandlerStoresByte := by
  intro s p c u e rest hl hg hx h7 hf hc
  have hd : s.dispatchable u.uart .rxc = true :=
    State.dispatchable_rxc_iff.mpr ⟨hg, hx, h7, hf ▸ List.cons_ne_nil e rest⟩
  have run : exec (.rxc p) s = .next (s.setPort p.toNat (u.rxcBody s.params.rxCap (Config.rxDataEmpty s.tick))) :=
    runHandler_of_dispatchable hl hd
  rw [run, ← cursorNext_eq hc]
  rcases u.rxcBody_cases s.params.rxCap (Config.rxDataEmpty s.tick) hf with ⟨hdrop, hb⟩ | ⟨hp, hn, hb⟩ <;> rw [hb]
  · refine ⟨fun _ => rfl, fun hp hn => ?_⟩
    exact absurd hdrop (not_or.mpr ⟨ne_true_of_eq_false hp, hn⟩)
  · refine ⟨fun hdrop => ?_, fun _ _ => rfl⟩
    exact absurd hdrop (not_or.mpr ⟨ne_true_of_eq_false hp, hn⟩)

/-- Settles O32: `DreStep` run by the DRE handler. -/
theorem dreHandlerDrainsOneByte : Obligations.DreHandlerDrainsOneByte := by
  intro s p c u hl hg hx h5 hh hr hres hc
  have hd : s.dispatchable u.uart .dre = true := State.dispatchable_dre_iff.mpr ⟨hg, hx, ⟨h5, hh⟩, hr⟩
  have run : exec (.dre p) s = .next (s.setPort p.toNat (u.dreStep s.params.txCap)) :=
    runHandler_of_dispatchable hl hd
  rw [run, Port.dreStep_of_reserved hc hres]
  refine ⟨fun he => ?_, fun hn => ?_⟩
  · rw [if_pos he]; rfl
  · rw [if_neg hn]; rfl

/-- Settles O33: the TXC handler's body drains RXFIFO and flips the two enables. -/
theorem txcHandlerReturnsToReceive : Obligations.TxcHandlerReturnsToReceive := by
  intro s p c u hl hg hx h6 ht hr hd hres
  have hdisp : s.dispatchable u.uart .txc = true := State.dispatchable_txc_iff.mpr ⟨hg, hx, ⟨h6, ht⟩, hr, hd⟩
  have run : exec (.txc p) s = .next (s.setPort p.toNat (u.txcBody (Config.rxDataEmpty s.tick))) :=
    runHandler_of_dispatchable hl hdisp
  rw [run, Port.txcBody_eq, txcValue_eq hres]
  rfl

/-- Settles O34: the three dispatch conditions, negated. -/
theorem handlersRunOnlyWhenDispatchable : Obligations.HandlersRunOnlyWhenDispatchable := by
  intro s p c u hl
  exact ⟨fun h => runHandler_of_not_dispatchable hl (mt State.dispatchable_rxc_iff.mp h),
    fun h => runHandler_of_not_dispatchable hl (mt State.dispatchable_dre_iff.mp h),
    fun h => runHandler_of_not_dispatchable hl (mt State.dispatchable_txc_iff.mp h)⟩

end Sys2Proof.Machine
end

section
/-! SUPPORT. The line steps of the reference peripheral and the environment steps of the boundary view, an equation per case
(60_exceptions.md R281 to R286), and O43, O44 from them. -/

namespace Sys2Proof.Machine

open Sys2Proof

section
variable {s : State} {view : LineView} {p : Nat} {c : PortParams} {u : Port}

/-- An environment step of the machine's own view changes its port (R281 to R286). -/
theorem State.environment_of_view {f : Port → Port} (hv : s.params.line = view) (hl : s.lookup p = some (c, u)) :
    s.environment view p f = s.setPort p (f u) := by
  simp only [State.environment, if_pos hv, hl]

/-- An environment step of the other view changes nothing (log 13). -/
theorem next_environment_of_other_view (hv : s.params.line ≠ view) (f : Port → Port) :
    (.next (s.environment view p f) : Result) = .next s :=
  congrArg _ (if_neg hv)

end

/-- LineLoad moves TXHOLD into an idle shift register while the transmitter is on (R281). -/
theorem Periph.lineLoadEnabled_iff {u : Periph} :
    u.lineLoadEnabled = true ↔ u.ctrlb.getLsbD 6 = true ∧ u.txShift = none ∧ u.txHold ≠ none := by
  rw [Periph.lineLoadEnabled, Periph.txen, Bool.and_eq_true, Bool.and_eq_true, and_assoc, Option.isNone_iff_eq_none,
    Option.isSome_iff_ne_none]

theorem Periph.lineLoad_of_enabled {u : Periph} (h : u.lineLoadEnabled = true) :
    u.lineLoad = { u with txShift := u.txHold, txHold := none } :=
  if_pos h

theorem Periph.lineLoad_of_not_enabled {u : Periph} (h : ¬ u.lineLoadEnabled = true) : u.lineLoad = u :=
  if_neg h

/-- The end of a byte's shift: the byte leaves the pin, its echo arrives in loopback, and TXHOLD follows or TXCIF is set
(R282, R284). -/
theorem Port.lineShiftDone_of_some {depth : Nat} {u : Port} {b : Byte} (h : u.uart.txShift = some b) :
    u.lineShiftDone depth =
      { u with
        lineOut := u.lineOut ++ [b]
        uart := { u.uart with
          rxFifo :=
            if (u.uart.ctrla.getLsbD 3 = true ∧ u.uart.ctrlb.getLsbD 7 = true) ∧ u.uart.rxFifo.length < depth then
              u.uart.rxFifo ++ [⟨b, false, false⟩]
            else u.uart.rxFifo
          txShift := u.uart.txHold
          txHold := none
          txcif := if u.uart.txHold = none then true else u.uart.txcif } } := by
  have completes : (u.uart.txcif || u.uart.txHold.isNone) = if u.uart.txHold = none then true else u.uart.txcif := by
    cases u.uart.txHold <;> simp
  rcases u.lineShiftDone_cases depth with ⟨hn, -⟩ | ⟨b', hb, he⟩
  · rw [hn] at h
    cases h
  · rw [hb] at h
    cases h
    simp only [he, completes, Periph.lbme, Periph.rxen, Bool.and_eq_true, decide_eq_true_eq]

/-- Settles O43: each line step on a port where it is enabled, and where it is not. -/
theorem lineStepsOfReferencePeripheral : Obligations.LineStepsOfReferencePeripheral := by
  intro s p c u hv hl
  refine ⟨fun b ht hs hh => ?_, fun hn => ?_, fun b hs => ?_, fun hs => ?_, fun b perr ferr => ?_⟩
  · have enabled : u.uart.lineLoadEnabled = true :=
      Periph.lineLoadEnabled_iff.mpr ⟨ht, hs, hh ▸ Option.some_ne_none b⟩
    rw [runEvent, turnLineLoad, State.environment_of_view hv hl, Periph.lineLoad_of_enabled enabled, hh]
    rfl
  · have kept : u.uart.lineLoad = u.uart :=
      Periph.lineLoad_of_not_enabled (mt Periph.lineLoadEnabled_iff.mp hn)
    exact congrArg _ (State.environment_of_kept hl (by rw [kept]))
  · rw [runEvent, turnLineShiftDone, State.environment_of_view hv hl, Port.lineShiftDone_of_some hs]
    rfl
  · exact congrArg _ (State.environment_of_kept hl (Port.lineShiftDone_of_none _ hs))
  · rw [runEvent, turnLineRx, State.environment_of_view hv hl, Periph.lineRx_eq, Periph.rxen]
    by_cases h : u.uart.ctrlb.getLsbD 7 = true ∧ u.uart.rxFifo.length < s.params.rxFifoDepth
    · rw [if_pos h, if_pos h]; rfl
    · rw [if_neg h, if_neg h]; exact congrArg _ (State.setPort_self hl)

/-- Settles O44: each environment step in its own view and in the other. -/
theorem boundaryEnvironmentSteps : Obligations.BoundaryEnvironmentSteps := by
  refine ⟨fun s p c u hv hl => ⟨?_, ?_, fun b perr ferr => ?_⟩, fun s p hv => ?_, fun s p hv => ?_⟩
  · exact congrArg _ (State.environment_of_view hv hl)
  · exact congrArg _ (State.environment_of_view hv hl)
  · exact congrArg _ (State.environment_of_view hv hl)
  · have other : s.params.line ≠ .reference := by rw [hv]; nofun
    exact ⟨next_environment_of_other_view other _, next_environment_of_other_view other _,
      fun _ _ _ => next_environment_of_other_view other _⟩
  · have other : s.params.line ≠ .boundary := by rw [hv]; nofun
    exact ⟨next_environment_of_other_view other _, next_environment_of_other_view other _,
      fun _ _ _ => next_environment_of_other_view other _⟩

end Sys2Proof.Machine
end

section
/-! SUPPORT. The word a ready Host runs next, and what a blocked command leaves alone (70_reset_and_hazards.md R337, R342), and
O7, O55 from it. -/

namespace Sys2Proof.Machine

open Sys2Proof

/-- A 64-bit table word reads as what the command decoder makes of it (30_encoding.md R102). -/
theorem decodeCommand_of_tableWord {w : Nat} {i : Instr} (h : decodeTableWord 64 w = some i) :
    decodeCommand (BitVec.ofNat 64 w) = .ok i := by
  rw [decodeTableWord, if_pos rfl] at h
  cases hd : decodeCommand (BitVec.ofNat 64 w) with
  | ok j => rw [hd] at h; cases h; rfl
  | error e => rw [hd] at h; cases h

/-- Settles O7: the staged word heads the program of a ready Host whose turn comes next. -/
theorem stagedWordRunsNext : Obligations.StagedWordRunsNext := fun s _ i h =>
  stepRunsDecodedInstruction.1 (s.stageCommand _) _ s.program i rfl rfl rfl (decodeCommand_of_tableWord h)

/-- While a command is blocked the program stays as it is (R180, R337). -/
theorem step_program_of_blocked {s t : State} (hs : s.seq ≠ .ready) (h : step s = .next t) :
    t.program = s.program := by
  rcases step_cases h with ⟨-, hh⟩ | rfl | ⟨p, c, u, u', -, -, rfl⟩
  · rcases hostTurn_cases hh with rfl | ⟨-, hx⟩ | ⟨w, rest, hready, -⟩
    · simp
    · obtain ⟨frame, -⟩ := spin_cases hx
      simpa using frame.program
    · exact absurd (by simpa using hready) hs
  · simp
  · simp

/-- Settles O55: GIE, IEXEC and the bindings change only in a step that issues a command, and a blocked Host issues
none. -/
theorem blockedHostIssuesNothing : Obligations.BlockedHostIssuesNothing := by
  intro s t hs h
  rcases step_system h with ⟨hg, hi, hb⟩ | ⟨i, rest, ⟨-, hready, -⟩, -⟩
  · exact ⟨step_program_of_blocked hs h, hg, hi, fun p u u' hu hu' => pgi_eq_of_map hb hu hu'⟩
  · exact absurd hready hs

end Sys2Proof.Machine
end

section
/-! SUPPORT. A blocked command whose Host polls while its line drains (70_reset_and_hazards.md R338): the line's transmit
steps empty TXHOLD, the spin after them moves one more byte on, and O54 from it. -/

namespace Sys2Proof.Machine

open Sys2Proof

/-! ### Steps whose turn is fixed -/

theorem step_of_inputs {s : State} {e : Event} {rest : List Event} (h : s.inputs = e :: rest) :
    step s = runEvent e { s with inputs := rest } := by
  simp only [step, State.nextEvent, State.afterDraw, h]

theorem runSteps_succ_of_step {s t : State} (h : step s = .next t) (n : Nat) : runSteps (n + 1) s = runSteps n t := by
  simp only [runSteps, h]

/-- A blocked Host spins (R180). -/
theorem hostTurn_of_blocked {s : State} (h : s.seq ≠ .ready) : hostTurn s = spin s := by
  unfold hostTurn
  split
  · next hs => exact absurd hs h
  · rfl

section
variable {s : State} {p : Nat} {c : PortParams} {u : Port} {rest : List Event}

theorem step_lineShiftDone (hl : s.lookup p = some (c, u)) (hv : s.params.line = .reference)
    (hi : s.inputs = .lineShiftDone p :: rest) :
    step s = .next ({ s with inputs := rest }.setPort p (u.lineShiftDone s.params.rxFifoDepth)) := by
  rw [step_of_inputs hi]
  exact congrArg _ (State.environment_of_view (s := { s with inputs := rest }) hv hl)

theorem step_lineLoad (hl : s.lookup p = some (c, u)) (hv : s.params.line = .reference)
    (hi : s.inputs = .lineLoad p :: rest) :
    step s = .next ({ s with inputs := rest }.setPort p { u with uart := u.uart.lineLoad }) := by
  rw [step_of_inputs hi]
  exact congrArg _ (State.environment_of_view (s := { s with inputs := rest }) hv hl)

theorem step_host_of_blocked (hi : s.inputs = .host :: rest) (hq : s.seq ≠ .ready) :
    step s = spin { s with inputs := rest } := by
  rw [step_of_inputs hi]
  exact hostTurn_of_blocked hq

end

/-! ### The port after a round -/

/-- Port `u` after the two transmit steps of one round (R281, R282). -/
def Port.lineRound (depth : Nat) (u : Port) : Port :=
  { u.lineShiftDone depth with uart := (u.lineShiftDone depth).uart.lineLoad }

theorem LineFrame.trans {u v w : Port} (h : LineFrame u v) (h' : LineFrame v w) : LineFrame u w := by
  rw [LineFrame] at h h' ⊢
  rw [h', h]

theorem Port.lineRound_frame (depth : Nat) (u : Port) : LineFrame u (u.lineRound depth) :=
  (lineFrame_lineShiftDone depth u).trans (lineFrame_lineLoad _)

@[simp] theorem Port.lineRound_txb (depth : Nat) (u : Port) : (u.lineRound depth).txb = u.txb := by
  rw [u.lineRound_frame depth]

@[simp] theorem Port.lineRound_written (depth : Nat) (u : Port) : (u.lineRound depth).written = u.written := by
  rw [u.lineRound_frame depth]

@[simp] theorem Port.lineRound_ctrla (depth : Nat) (u : Port) : (u.lineRound depth).uart.ctrla = u.uart.ctrla := by
  rw [u.lineRound_frame depth]

@[simp] theorem Port.lineRound_ctrlb (depth : Nat) (u : Port) : (u.lineRound depth).uart.ctrlb = u.uart.ctrlb := by
  rw [u.lineRound_frame depth]

theorem Port.lineRound_accepted (cap depth : Nat) (u : Port) : (u.lineRound depth).accepted cap = u.accepted cap :=
  (u.lineRound_frame depth).accepted

theorem Periph.lineLoad_of_txHold {u : Periph} (h : u.txHold = none) : u.lineLoad = u :=
  Periph.lineLoad_of_not_enabled fun he => (Periph.lineLoadEnabled_iff.mp he).2.2 h

/-- With the transmitter on, a round leaves TXHOLD empty, and the shift register too where TXHOLD was empty before
(R281, R282). -/
theorem Port.lineRound_drains (depth : Nat) {u : Port} (on : u.uart.ctrlb.getLsbD 6 = true) :
    (u.lineRound depth).uart.txHold = none ∧
      (u.uart.txHold = none → (u.lineRound depth).uart.txShift = none) := by
  rcases u.lineShiftDone_cases depth with ⟨hs, he⟩ | ⟨b, -, he⟩ <;> rw [Port.lineRound, he]
  · by_cases hh : u.uart.txHold = none
    · rw [Periph.lineLoad_of_txHold hh]
      exact ⟨hh, fun _ => hs⟩
    · rw [Periph.lineLoad_of_enabled (Periph.lineLoadEnabled_iff.mpr ⟨on, hs, hh⟩)]
      exact ⟨rfl, fun h => absurd h hh⟩
  · rw [Periph.lineLoad_of_txHold rfl]
    exact ⟨rfl, id⟩

theorem Port.dreStep_ctrlb (cap : Nat) (u : Port) : (u.dreStep cap).uart.ctrlb = u.uart.ctrlb := by
  rcases u.dreStep_cases cap with ⟨-, hd⟩ | ⟨-, hd⟩ <;> rw [hd]

/-- Port `u` after a round in which the spin polls: the line's part, then a `DreStep`. -/
def Port.polledRound (c : Params) (u : Port) : Port := (u.lineRound c.rxFifoDepth).dreStep c.txCap

/-! ### A round of a blocked command -/

/-- What a round of turns needs of the state and keeps: the reference line, a Host that polls, and a port `p` of the
invariants that is written and has its transmitter on (R13, R281). -/
structure Draining (s : State) (p : Nat) (c : PortParams) (u : Port) : Prop where
  params : s.params.Wf
  line : s.params.line = .reference
  polls : s.mustPoll = true
  lookup : s.lookup p = some (c, u)
  inv : PortInv s.params c u
  lineInv : PortLineInv u
  written : u.written = true
  on : u.uart.ctrlb.getLsbD 6 = true

/-- The state after the line's two turns of a round on port `p`, which was `u`. -/
def State.afterLine (s : State) (p : Nat) (u : Port) (rest : List Event) : State :=
  { s with inputs := rest }.setPort p (u.lineRound s.params.rxFifoDepth)

section
variable {s : State} {p : Nat} {c : PortParams} {u : Port} {rest : List Event}

@[simp] theorem State.afterLine_params : (s.afterLine p u rest).params = s.params := rfl

/-- The port is replaced by one of the invariants, and the turns to come are any. -/
theorem Draining.setPort (h : Draining s p c u) {u' : Port} (hi : PortInv s.params c u') (hl : PortLineInv u')
    (hw : u'.written = true) (hon : u'.uart.ctrlb.getLsbD 6 = true) :
    Draining ({ s with inputs := rest }.setPort p u') p c u' where
  params := h.params
  line := h.line
  polls := h.polls
  lookup := State.lookup_setPort_same (s := { s with inputs := rest }) u' h.lookup
  inv := hi
  lineInv := hl
  written := hw
  on := hon

theorem Draining.afterLine (h : Draining s p c u) :
    Draining (s.afterLine p u rest) p c (u.lineRound s.params.rxFifoDepth) := by
  have shifts : QuietChange s u (u.lineShiftDone s.params.rxFifoDepth) := .lineShiftDone h.line
  have loads : QuietChange s (u.lineShiftDone s.params.rxFifoDepth) (u.lineRound s.params.rxFifoDepth) := .lineLoad h.line
  have shifted := shifts.portInv h.params h.inv
  exact h.setPort (loads.portInv h.params shifted)
    (loads.portLineInv h.line shifted (shifts.portLineInv h.line h.inv h.lineInv))
    (by rw [Port.lineRound_written, h.written]) (by rw [Port.lineRound_ctrlb, h.on])

theorem Draining.available_eq_zero_iff (h : Draining s p c u) :
    u.txb.available s.params.txCap = 0 ↔ u.txb.head = u.txb.tail :=
  Ring.available_eq_zero h.params.tx_cap h.inv.tx.head h.inv.tx.tail

/-- Blocking changes nothing that a round needs. -/
theorem Draining.block (h : Draining s p c u) (q : Seq) : Draining (s.block q) p c u := { h with }

/-- A round of a blocked command is the line's part, then a spin (R180, R338). -/
theorem Draining.runSteps_round (h : Draining s p c u) (hq : s.seq ≠ .ready) (hi : s.inputs = drainRound p ++ rest)
    {t : State} (hx : spin (s.afterLine p u rest) = .next t) (n : Nat) : runSteps (n + 3) s = runSteps n t := by
  have shift := step_lineShiftDone h.lookup h.line hi
  have shifted := State.lookup_setPort_same (s := { s with inputs := .lineLoad p :: .host :: rest })
    (u.lineShiftDone s.params.rxFifoDepth) h.lookup
  have load : step ({ s with inputs := .lineLoad p :: .host :: rest }.setPort p
      (u.lineShiftDone s.params.rxFifoDepth)) = .next (s.afterLine p u (.host :: rest)) :=
    (step_lineLoad shifted h.line rfl).trans
      (congrArg _ (State.setPort_setPort { s with inputs := .host :: rest } p (u.lineShiftDone s.params.rxFifoDepth) _))
  have host : step (s.afterLine p u (.host :: rest)) = .next t :=
    (step_host_of_blocked (s := s.afterLine p u (.host :: rest)) rfl hq).trans hx
  calc runSteps (n + 3) s = runSteps (n + 2) _ := runSteps_succ_of_step shift _
    _ = runSteps (n + 1) _ := runSteps_succ_of_step load _
    _ = runSteps n t := runSteps_succ_of_step host n

/-- The poll of a draining port with TXHOLD empty is a `DreStep` (R169, R170). -/
theorem Draining.pollPort (h : Draining s p c u) (hn : u.uart.txHold = none) :
    s.pollPort u = u.dreStep s.params.txCap := by
  rw [State.pollPort_eq, if_pos ⟨State.mustPoll_iff.mp h.polls, hn⟩]

/-- The state after a round in which the spin only polls. -/
def State.afterPoll (s : State) (p : Nat) (u : Port) (rest : List Event) : State :=
  (s.afterLine p u rest).setPort p (u.polledRound s.params)

theorem Draining.afterPoll (h : Draining s p c u) : Draining (s.afterPoll p u rest) p c (u.polledRound s.params) := by
  have after := h.afterLine (rest := rest)
  have hold := (u.lineRound_drains s.params.rxFifoDepth h.on).1
  refine after.setPort (rest := rest) (after.inv.dreStep h.params) (after.lineInv.dreStep after.inv hold)
    ((Port.dreStep_status _ _).written.trans after.written) ?_
  rw [Port.polledRound, Port.dreStep_ctrlb, after.on]

/-- A round loses no byte and accepts none (R171). -/
theorem Draining.polledRound_accepted (h : Draining s p c u) :
    (u.polledRound s.params).accepted s.params.txCap = u.accepted s.params.txCap := by
  have after := h.afterLine (rest := s.inputs)
  rw [Port.polledRound, Port.dreStep_accepted h.params.tx_cap after.inv.tx, Port.lineRound_accepted]

/-- A round in which the spin polls takes one byte from the buffer, if it holds one (R169). -/
theorem Draining.available_polledRound (h : Draining s p c u) (hn : u.txb.head ≠ u.txb.tail) :
    u.txb.available s.params.txCap = (u.polledRound s.params).txb.available s.params.txCap + 1 := by
  rcases (u.lineRound s.params.rxFifoDepth).dreStep_cases s.params.txCap with ⟨he, -⟩ | ⟨-, hd⟩
  · rw [Port.lineRound_txb] at he
    exact absurd he hn
  · rw [Port.polledRound, hd, Port.lineRound_txb]
    exact Ring.available_popped h.params.tx_cap h.inv.tx _ hn

/-- A round in which the spin polls an empty buffer leaves DREIE clear and TXHOLD empty (R169). -/
theorem Draining.polledRound_of_empty (h : Draining s p c u) (he : u.txb.head = u.txb.tail) :
    (u.polledRound s.params).uart.dreie = false ∧ (u.polledRound s.params).uart.txHold = none := by
  rcases (u.lineRound s.params.rxFifoDepth).dreStep_cases s.params.txCap with ⟨-, hd⟩ | ⟨hn, -⟩
  · obtain ⟨-, -, h5, -⟩ := dreOffValue_bits (u.lineRound s.params.rxFifoDepth).uart.ctrla
    rw [Port.polledRound, hd]
    exact ⟨h5, (u.lineRound_drains s.params.rxFifoDepth h.on).1⟩
  · rw [Port.lineRound_txb] at hn
    exact absurd he hn

/-! ### A blocked FLUSH -/

/-- Within `bound` steps a FLUSH blocked on port `p` answers, with `bytes` on the wire (R173). -/
def FlushEnds (s : State) (p : Nat) (bytes : List Byte) (bound : Nat) : Prop :=
  ∃ n t u', n ≤ bound ∧ runSteps n s = .next t ∧ t.seq = .ready ∧ t.response = some ⟨.ok, 0#16⟩ ∧
    t.ports[p]? = some u' ∧ u'.lineOut = bytes

theorem FlushEnds.mono {bytes : List Byte} {m n : Nat} (h : FlushEnds s p bytes m) (hmn : m ≤ n) :
    FlushEnds s p bytes n := by
  obtain ⟨k, t, u', hk, ends⟩ := h
  exact ⟨k, t, u', hk.trans hmn, ends⟩

/-- Where `FlushDone` holds, every accepted byte has left the pin (R174). -/
theorem Draining.lineOut_of_flushDone (h : Draining s p c u) (hd : u.uart.flushDone = true) :
    u.lineOut = u.accepted s.params.txCap := by
  have empty := h.inv.txb_empty_of_flushed (Or.inr hd)
  obtain ⟨hold, shift⟩ := h.lineInv.empty_of_flushed (Or.inr hd)
  simp [Port.accepted, Ring.held_of_empty h.params.tx_cap h.inv.tx empty, h.lineInv.log, hold, shift]

/-- A draining port with nothing buffered, DREIE clear and an empty peripheral is flushed (R172, R339). -/
theorem Draining.flushDone_of_empty (h : Draining s p c u) (hd : u.uart.dreie = false) (hh : u.uart.txHold = none)
    (hs : u.uart.txShift = none) : u.uart.flushDone = true := by
  have complete : u.uart.txcif = true := by
    rcases h.lineInv.inFlight h.written with hb | hb | hb | hb
    · exact absurd (h.inv.txb_empty_of_dreie hd) hb
    · exact absurd hh hb
    · exact absurd hs hb
    · exact hb
  simp [Periph.flushDone, hd, complete]

/-- The round after which `FlushDone` holds ends the FLUSH (R173). -/
theorem Draining.flushEnds_of_done (h : Draining s p c u) (hq : s.seq = .flushWait p .done)
    (hi : s.inputs = drainRound p ++ rest) (hd : (u.lineRound s.params.rxFifoDepth).uart.flushDone = true) :
    FlushEnds s p (u.accepted s.params.txCap) 3 := by
  have after := h.afterLine (rest := rest)
  have blocked : s.seq ≠ .ready := by rw [hq]; nofun
  have spins : spin (s.afterLine p u rest) = .next ((s.afterLine p u rest).unblock.respond .ok 0#16) :=
    spin_flush_of_done (s := s.afterLine p u rest) hq after.lookup hd
  refine ⟨3, _, _, le_rfl, h.runSteps_round blocked hi spins 0, rfl, rfl, (State.lookup_eq_some.mp after.lookup).2, ?_⟩
  exact (after.lineOut_of_flushDone hd).trans (Port.lineRound_accepted _ _ u)

/-- A round that does not end the FLUSH polls, and the wait goes on (R173). -/
theorem Draining.flushEnds_of_not_done (h : Draining s p c u) (hq : s.seq = .flushWait p .done)
    (hi : s.inputs = drainRound p ++ rest) (hd : ¬ (u.lineRound s.params.rxFifoDepth).uart.flushDone = true)
    {bytes : List Byte} {bound : Nat} (next : FlushEnds (s.afterPoll p u rest) p bytes bound) :
    FlushEnds s p bytes (bound + 3) := by
  have after := h.afterLine (rest := rest)
  have blocked : s.seq ≠ .ready := by rw [hq]; nofun
  have spins : spin (s.afterLine p u rest) = .next (s.afterPoll p u rest) := by
    rw [spin_flush_of_not_done (s := s.afterLine p u rest) hq after.lookup hd,
      after.pollPort (u.lineRound_drains s.params.rxFifoDepth h.on).1]
    rfl
  obtain ⟨n, t, u', hn, run, ends⟩ := next
  exact ⟨n + 3, t, u', Nat.add_le_add_right hn 3, (h.runSteps_round blocked hi spins n).trans run, ends⟩

end

/-- A FLUSH whose port has DREIE clear and TXHOLD empty ends with the byte being shifted out (R173). -/
theorem Draining.flushEnds_of_shifting {s : State} {p : Nat} {c : PortParams} {u : Port} {rest : List Event}
    (h : Draining s p c u) (hq : s.seq = .flushWait p .done) (hi : s.inputs = drainRound p ++ rest)
    (hd : u.uart.dreie = false) (hh : u.uart.txHold = none) : FlushEnds s p (u.accepted s.params.txCap) 3 := by
  obtain ⟨hold, shift⟩ := u.lineRound_drains s.params.rxFifoDepth h.on
  have dreie : (u.lineRound s.params.rxFifoDepth).uart.dreie = false := by
    rw [Periph.dreie_eq, Port.lineRound_ctrla, ← Periph.dreie_eq, hd]
  exact h.flushEnds_of_done hq hi ((h.afterLine (rest := rest)).flushDone_of_empty dreie hold (shift hh))

/-- A FLUSH on a port with `n` bytes buffered ends within `n + 2` rounds: one for each byte, one to clear DREIE, one for
the last byte's shift (R338). -/
theorem Draining.flushEnds (n : Nat) {s : State} {p : Nat} {c : PortParams} {u : Port} {rest : List Event}
    (h : Draining s p c u) (hn : u.txb.available s.params.txCap = n) (hq : s.seq = .flushWait p .done)
    (hi : s.inputs = (List.replicate (n + 2) (drainRound p)).flatten ++ rest) :
    FlushEnds s p (u.accepted s.params.txCap) (3 * (n + 2)) := by
  induction n generalizing s u with
  | zero =>
    have round : s.inputs = drainRound p ++ (drainRound p ++ rest) := hi
    by_cases hd : (u.lineRound s.params.rxFifoDepth).uart.flushDone = true
    · exact (h.flushEnds_of_done hq round hd).mono (by decide)
    · obtain ⟨dreie, hold⟩ := h.polledRound_of_empty (h.available_eq_zero_iff.mp hn)
      have last := h.afterPoll.flushEnds_of_shifting (rest := rest) hq rfl dreie hold
      exact h.flushEnds_of_not_done hq round hd (h.polledRound_accepted ▸ last)
  | succ n ih =>
    have held : u.txb.head ≠ u.txb.tail := mt h.available_eq_zero_iff.mpr (by omega)
    have round : s.inputs = drainRound p ++ ((List.replicate (n + 2) (drainRound p)).flatten ++ rest) := by
      rw [hi, List.replicate_succ, List.flatten_cons, List.append_assoc]
    have waits : ¬ (u.lineRound s.params.rxFifoDepth).uart.flushDone = true := fun hd => by
      have empty := (h.afterLine (rest := rest)).inv.txb_empty_of_flushed (Or.inr hd)
      rw [Port.lineRound_txb] at empty
      exact held empty
    have fewer : (u.polledRound s.params).txb.available s.params.txCap = n := by
      have := h.available_polledRound held
      omega
    exact h.flushEnds_of_not_done hq round waits (h.polledRound_accepted ▸ ih h.afterPoll fewer hq rfl)

/-! ### A blocked WRITE -/

/-- A WRITE blocked on a port with a slot free ends in one round (R167). -/
theorem Draining.writeEnds_of_room {s : State} {p : Nat} {b : Byte} {c : PortParams} {u : Port} {rest : List Event}
    (h : Draining s p c u) (hq : s.seq = .writeWait p b) (hi : s.inputs = drainRound p ++ rest)
    (room : u.txb.availableForWrite s.params.txCap ≠ 0) :
    ∃ t, runSteps 3 s = .next t ∧ t.seq = .ready ∧ t.response = some ⟨.ok, 1#16⟩ := by
  have blocked : s.seq ≠ .ready := by rw [hq]; nofun
  have spins : spin (s.afterLine p u rest) = writeTry (s.afterLine p u rest) p b (u.lineRound s.params.rxFifoDepth) :=
    spin_of_writeWait hq h.afterLine.lookup
  rw [← u.lineRound_txb s.params.rxFifoDepth] at room
  rw [writeTry, State.afterLine_params, if_neg room] at spins
  exact ⟨_, h.runSteps_round blocked hi spins 0, rfl, rfl⟩

/-- A WRITE blocked on a full buffer polls one byte out of it, so that the next round finds a slot free (R167, R170). -/
theorem Draining.writeEnds_of_full {s : State} {p : Nat} {b : Byte} {c : PortParams} {u : Port} {rest : List Event}
    (h : Draining s p c u) (hq : s.seq = .writeWait p b) (hi : s.inputs = drainRound p ++ (drainRound p ++ rest))
    (full : u.txb.availableForWrite s.params.txCap = 0) :
    ∃ t, runSteps 6 s = .next t ∧ t.seq = .ready ∧ t.response = some ⟨.ok, 1#16⟩ := by
  have after := h.afterLine (rest := drainRound p ++ rest)
  have blocked : s.seq ≠ .ready := by rw [hq]; nofun
  have room : (u.polledRound s.params).txb.availableForWrite s.params.txCap ≠ 0 := by
    have popped := h.available_polledRound (h.inv.tx.head_ne_tail_of_full h.params.tx_cap full)
    have before := Ring.available_add_availableForWrite h.params.tx_cap u.txb
    have now := Ring.available_add_availableForWrite h.params.tx_cap (u.polledRound s.params).txb
    omega
  have spins : spin (s.afterLine p u (drainRound p ++ rest)) =
      .next ((s.afterPoll p u (drainRound p ++ rest)).block (.writeWait p b)) := by
    rw [← u.lineRound_txb s.params.rxFifoDepth] at full
    rw [spin_of_writeWait (s := s.afterLine p u (drainRound p ++ rest)) hq after.lookup, writeTry,
      State.afterLine_params, if_pos full, after.pollPort (u.lineRound_drains s.params.rxFifoDepth h.on).1]
    rfl
  obtain ⟨t, run, ends⟩ := (h.afterPoll.block (.writeWait p b)).writeEnds_of_room (rest := rest) rfl rfl room
  exact ⟨t, (h.runSteps_round blocked hi spins 3).trans run, ends⟩

/-! ### From the invariants -/

/-- The port a blocked command names is written (R45). -/
theorem State.SeqInv.written_of_flushWait {s : State} (h : s.SeqInv) {p : Nat} {k : Cont} {c : PortParams} {u : Port}
    (hs : s.seq = .flushWait p k) (hl : s.lookup p = some (c, u)) : u.written = true := by
  rw [State.SeqInv, hs] at h
  obtain ⟨c', u', hl', -, hw⟩ := h
  rw [hl] at hl'
  cases hl'
  exact hw

/-- Settles O54: a FLUSH by induction on the bytes buffered, a WRITE by whether its buffer is full. -/
theorem polledWaitsTerminate : Obligations.PolledWaitsTerminate := by
  intro s p c u inv lineInv line polls lookup on
  have draining : u.written = true → Draining s p c u := fun written =>
    ⟨inv.params, line, State.mustPoll_iff.mpr polls, lookup, inv.ports p c u lookup, lineInv p c u lookup, written, on⟩
  refine ⟨fun rest hq hi => ?_, fun b rest hq hi => ?_⟩
  · exact (draining (inv.seq.written_of_flushWait hq lookup)).flushEnds _ rfl hq hi
  · have h := draining (inv.seq.of_writeWait hq lookup).2
    have rounds : s.inputs = drainRound p ++ (drainRound p ++ rest) := hi
    by_cases full : u.txb.availableForWrite s.params.txCap = 0
    · obtain ⟨t, ends⟩ := h.writeEnds_of_full hq rounds full
      exact ⟨6, t, le_rfl, ends⟩
    · obtain ⟨t, ends⟩ := h.writeEnds_of_room hq rounds full
      exact ⟨3, t, by decide, ends⟩

end Sys2Proof.Machine
end
